-- ==== Sys2Proof/Word.lean ====
section
/-! DEFINITION. The word types of the host interface (rules R11, R62, R81). -/

namespace Sys2Proof

/-- One byte on the host interface. -/
abbrev Byte := BitVec 8

/-- A 32-bit command word, CSR response word or binary32 pattern. -/
abbrev Word := BitVec 32

end Sys2Proof
end

