-- ==== Sys2Proof/Syntax.lean ====
section
/-! DEFINITION. The commands of the host interface (rule R84), one constructor per row of spec/opcode_table.json, and the
assembly-level commands of rules R89 and R90. Operands are the numbers of rule R83, not scaled and not sign-extended. -/

namespace Sys2Proof

/-- Direction of the transform: `d = 0` forward, `d = 1` inverse (rule R83). -/
inductive Dir where
  | fwd
  | inv
deriving DecidableEq, Repr

/-- The six commands of rule R84. -/
inductive Instr where
  /-- `INGEST_PRS` (rule R101): no operand. -/
  | ingestPrs
  /-- `INGEST_FIC idx` (rule R103): the slot index. -/
  | ingestFic (idx : Nat)
  /-- `INGEST_MSC idx` (rule R104): the slot index. -/
  | ingestMsc (idx : Nat)
  /-- `STOP` (rule R105): no operand. -/
  | stop
  /-- `READ_CSR n` (rule R106): the CSR number. -/
  | readCsr (n : Nat)
  /-- `XFORM d` (rule R107): the direction. -/
  | xform (d : Dir)
deriving DecidableEq, Repr

/-- The names of the 14 assigned CSRs (rule R38). -/
inductive Csr where
  | cfgTu | cfgTg | cfgK | cfgL | cfgNfic | cfgDecim | cfgMode
  | status | pending | curblk | snr | snrCnt | constLen | fault
deriving DecidableEq, Repr

/-- An assembly line with its sample arrays already as payload bytes (rules R89, R90). -/
inductive Asm where
  | ingestPrs (buf : List Byte)
  | ingestFic (idx : Nat) (buf : List Byte)
  | ingestMsc (idx : Nat) (buf : List Byte)
  | stop
  | readCsr (n : Nat)
  | readCsrName (c : Csr)
  | xform (d : Dir) (buf : List Byte)
  /-- `.word`: a raw command word, used to write illegal words. -/
  | word (w : Word) (buf : List Byte)
  /-- `INGEST idx, @buf`: pseudo-command (rule R90). -/
  | ingest (idx : Nat) (buf : List Byte)
  /-- `FRAME @b0, @b1, …`: pseudo-command (rule R90). -/
  | frame (bufs : List (List Byte))
  /-- `TEARDOWN`: pseudo-command (rules R90, R284). -/
  | teardown
  /-- `FFT @buf`: pseudo-command (rule R90). -/
  | fft (buf : List Byte)
  /-- `IFFT @buf`: pseudo-command (rule R90). -/
  | ifft (buf : List Byte)
deriving DecidableEq, Repr

end Sys2Proof
end

