-- ==== Sys2Proof/WellFormed.lean ====
section
/-! DEFINITION. Well-formed commands: the operand fits the 16-bit field `arg` (rules R81, R83). The slot index is not compared
with `L` here: `idx ≥ L` is a run-time fault (rules R89, R102). -/

namespace Sys2Proof

/-- A command whose operand the command word can hold (rule R89: the assembler refuses an `idx` or `n` outside
`[0, 65535]`). -/
def Instr.wellFormed : Instr → Bool
  | .ingestPrs => true
  | .ingestFic idx => decide (idx < 65536)
  | .ingestMsc idx => decide (idx < 65536)
  | .stop => true
  | .readCsr n => decide (n < 65536)
  | .xform _ => true

end Sys2Proof
end

