-- ==== Sys2Proof/Decode.lean ====
section
/-! DEFINITION. Decoding a command from the bytes on the wire (rules R62, R81 to R87) and the encoder. -/

namespace Sys2Proof

/-- Four bytes as a word, byte 0 the least significant (rule R62). -/
def leWord (b0 b1 b2 b3 : Byte) : Word := b3 ++ b2 ++ b1 ++ b0

/-- A word as four bytes, byte 0 the least significant (rule R62). -/
def leBytes (w : Word) : List Byte :=
  [w.extractLsb' 0 8, w.extractLsb' 8 8, w.extractLsb' 16 8, w.extractLsb' 24 8]

/-- The field `op`, bits 31:24 (rule R81). -/
def opField (w : Word) : BitVec 8 := w.extractLsb' 24 8

/-- The field `rsv`, bits 23:16 (rule R81). -/
def rsvField (w : Word) : BitVec 8 := w.extractLsb' 16 8

/-- The field `arg`, bits 15:0 (rule R81). -/
def argField (w : Word) : BitVec 16 := w.extractLsb' 0 16

/-- Which row of the table of rule R84. -/
inductive OpKind where
  | ingestPrs | ingestFic | ingestMsc | stop | readCsr | xform
deriving DecidableEq, Repr

/-- One row of the table of rule R84: a word matches when it agrees with `pattern` under `mask`. -/
structure OpRow where
  kind : OpKind
  pattern : Word
  mask : Word
deriving DecidableEq, Repr

/-- The table of rule R84. -/
def opRows : List OpRow :=
  [⟨.ingestPrs, 0x01000000#32, 0xFFFFFFFF#32⟩,
   ⟨.ingestFic, 0x02000000#32, 0xFFFF0000#32⟩,
   ⟨.ingestMsc, 0x03000000#32, 0xFFFF0000#32⟩,
   ⟨.stop,      0x04000000#32, 0xFFFFFFFF#32⟩,
   ⟨.readCsr,   0x05000000#32, 0xFFFF0000#32⟩,
   ⟨.xform,     0x06000000#32, 0xFFFFFFFE#32⟩]

/-- A word matches a row under the row's mask (rule R82). -/
def OpRow.hits (r : OpRow) (w : Word) : Bool := w &&& r.mask == r.pattern

/-- `d` of `XFORM`: bit 0 of `arg` (rule R83). -/
def dirOfBit (b : Bool) : Dir := if b then .inv else .fwd

/-- Operand assembly (rule R83): `arg` as an unsigned number, or its bit 0. -/
def OpKind.build (k : OpKind) (w : Word) : Instr :=
  match k with
  | .ingestPrs => .ingestPrs
  | .ingestFic => .ingestFic (argField w).toNat
  | .ingestMsc => .ingestMsc (argField w).toNat
  | .stop      => .stop
  | .readCsr   => .readCsr (argField w).toNat
  | .xform     => .xform (dirOfBit (w.getLsbD 0))

/-- Why a transaction is no command (rule R87), by name. -/
inductive DecodeError where
  /-- Opcode 0x00 or 0x07 to 0xFF. -/
  | undefinedOpcode (op : BitVec 8)
  /-- A defined opcode with `rsv ≠ 0`. -/
  | reservedNonzero
  /-- Nonzero `arg` on `INGEST_PRS` or `STOP`, or nonzero `arg[15:1]` on `XFORM`. -/
  | argNonzero
  /-- Fewer than four bytes: no command word at all (rule R64). -/
  | truncated
deriving DecidableEq, Repr

/-- The reason an illegal word is illegal (rule R87). -/
def illegalReason (w : Word) : DecodeError :=
  if opField w = 0#8 ∨ 7#8 ≤ opField w then .undefinedOpcode (opField w)
  else if rsvField w ≠ 0#8 then .reservedNonzero
  else .argNonzero

/-- A command word is legal when it matches a row (rule R82). -/
def decodeWord (w : Word) : Except DecodeError Instr :=
  match opRows.find? (fun r => r.hits w) with
  | some r => .ok (r.kind.build w)
  | none   => .error (illegalReason w)

/-- Decode a transaction: the command word is the first four bytes, the payload the rest (rules R80, R81). -/
def decode : List Byte → Except DecodeError (Instr × List Byte)
  | b0 :: b1 :: b2 :: b3 :: rest =>
    match decodeWord (leWord b0 b1 b2 b3) with
    | .ok i    => .ok (i, rest)
    | .error e => .error e
  | _ => .error .truncated

/-- A command word from its opcode and operand, with `rsv = 0` (rule R81). -/
def mkWord (op : BitVec 8) (arg : BitVec 16) : Word := op ++ 0#8 ++ arg

/-- Bit 0 of `arg` for a direction (rule R83). -/
def dirBit : Dir → BitVec 16
  | .fwd => 0#16
  | .inv => 1#16

/-- The command word of a well-formed command, from the same table (rule R84). -/
def encode : Instr → Word
  | .ingestPrs     => mkWord 0x01#8 0#16
  | .ingestFic idx => mkWord 0x02#8 (BitVec.ofNat 16 idx)
  | .ingestMsc idx => mkWord 0x03#8 (BitVec.ofNat 16 idx)
  | .stop          => mkWord 0x04#8 0#16
  | .readCsr n     => mkWord 0x05#8 (BitVec.ofNat 16 n)
  | .xform d       => mkWord 0x06#8 (dirBit d)

/-- The bytes of a transaction on the wire (rules R62, R81). -/
def encodeBytes (i : Instr) (payload : List Byte) : List Byte := leBytes (encode i) ++ payload

/-- The four wire bytes of a table word of `nbits` bits (bits above `nbits` are 0). -/
def tableBytes (nbits w : Nat) : List Byte := leBytes (BitVec.ofNat 32 (w % 2 ^ nbits))

/-- The instruction the decoder reads from a word numbered as spec/opcode_table.json numbers it. -/
def decodeTableWord (nbits w : Nat) : Option Instr :=
  match decode (tableBytes nbits w) with
  | .ok (i, _) => some i
  | .error _   => none

end Sys2Proof
end

