-- ==== Sys2Proof/Config.lean ====
section
/-! DEFINITION. The configuration record `cfg` (rule R8) and the free values of the spec.

Every `opaque` below has no body: nothing in Lean can evaluate it or prove a value of it, so a theorem of the model holds for
every value it may have. The realised operations of a number format other than `REAL` are such functions (rules R13 and R163,
entry I2 of 93_implementation_defined.md). -/

namespace Sys2Proof

/-- Which part of the phase-reference payload is copied (rule R8, `PRS_MODE`). -/
inductive PrsMode where
  | useful
  | full
deriving DecidableEq, Repr

/-- Sign of the forward transform's exponent (rule R8, `FFT_SIGN`). -/
inductive FftSign where
  | minus
  | plus
deriving DecidableEq, Repr

/-- Transform normalisation (rule R8, `FFT_NORM`). -/
inductive FftNorm where
  | none
  | invN
  | unitary
deriving DecidableEq, Repr

/-- The arithmetic of the datapath (rule R8, `NUMERICS`): the exact reference, or an implementation format. -/
inductive Numerics where
  /-- `REAL`, the reference (rule R13). -/
  | real
  /-- IEEE 754 binary32, the implementation default (decision D2). -/
  | binary32
  /-- Any other implementation format: the spec names none, so the formats are numbered and nothing is known of one but what the rules say
  of every format (decision D2, entry I2). DESIGN CHOICE (safe: nothing is assumed of a format); log entry 34. -/
  | format (f : Nat)
deriving DecidableEq, Repr

/-- Quantisation of the instantaneous SNR (rule R8, `SNR_INST_QUANT`). -/
inductive SnrQuant where
  | none
  | truncInt
deriving DecidableEq, Repr

/-- The configuration record of rule R8. It is latched at reset and never changes.
`T_s`, `SNR_ALPHA`, `SNR_PERIOD`, `DB_FACTOR`, `SOFT_SCALE` and `W_PEND` are derived or fixed and are constants of the
definitions that use them. -/
structure Config where
  /-- `T_u`: transform length. -/
  tU : Nat
  /-- `T_g`: guard length in samples. -/
  tG : Nat
  /-- `K`: active carriers. -/
  k : Nat
  /-- `L`: symbols per frame, and slot count. -/
  l : Nat
  /-- `N_FIC`: number of fast-channel positions. -/
  nFic : Nat
  /-- `CONST_DECIM`: constellation decimation factor. -/
  constDecim : Nat
  /-- `PRS_MODE`. -/
  prsMode : PrsMode
  /-- `CARRIER_MAP` as the list of its `K` values (rule R170). -/
  carrierMap : List Int
  /-- `FFT_SIGN`. -/
  fftSign : FftSign
  /-- `FFT_NORM`. -/
  fftNorm : FftNorm
  /-- `NUMERICS`. -/
  numerics : Numerics
  /-- `SNR_M_WRAP`. -/
  snrMWrap : Nat
  /-- `SNR_M_EDGE`. -/
  snrMEdge : Nat
  /-- `DB_OFFSET`, a positive number. DESIGN CHOICE (safe): held as a rational; log entry 19. -/
  dbOffset : Rat
  /-- `SNR_INST_QUANT`. -/
  snrInstQuant : SnrQuant
  /-- `N_HOST`: number of host agents. -/
  nHost : Nat
  /-- The model's own bit. DESIGN CHOICE (safe: both values are covered): `STOP` and `READ_CSR` check that their payload is empty, as rules
  R64 and R85 say; every configuration the model builds sets it. Cleared, it gives the narrower list of rule R252 (log entry 12). -/
  lengthCheckAll : Bool
deriving DecidableEq, Repr

/-- `T_s = T_u + T_g` (rule R8). -/
def Config.tS (c : Config) : Nat := c.tU + c.tG

/-- A complex value as two binary32 patterns, real part first. -/
abbrev Bits2 := Word × Word

/-- OPEN `CONST_DECIM` of `State.reset`'s configuration, less one (decision D20: no value may be assumed). Log entry 4. -/
opaque Config.openDecim : Fin 65535

/-- `FFT_IMPL` (rule R163): bin `k` of the realised transform. It depends on `cfg`, the direction and the vector alone. -/
opaque Config.fftImpl : Config → Dir → List Bits2 → Nat → Bits2

/-- The realised differential product `w · conj(f)` (rule R222). Log entry 6. -/
opaque Config.f32Product : Bits2 → Bits2 → Bits2

/-- The realised L1 norm of a differential product (rule R224). Log entry 6. -/
opaque Config.f32NormOne : Bits2 → Word

/-- The realised `(−x / m) × 127` (rule R225): divide, then multiply. Log entry 6. -/
opaque Config.f32Ratio127 : Word → Word → Word

/-- The realised mean modulus over a nonempty list of bins (rule R196). Log entry 6. -/
opaque Config.f32MeanModulus : List Bits2 → Word

/-- The realised `DB_FACTOR · log10(x + DB_OFFSET)` (rule R199). Log entry 6. -/
opaque Config.f32Db : Rat → Word → Word

/-- The realised difference of two decibel values (rule R196). Log entry 6. -/
opaque Config.f32Sub : Word → Word → Word

/-- The realised `a·x + b·y` of the smoothing (rule R197). Log entry 6. -/
opaque Config.f32MulAdd : Word → Word → Word → Word → Word

/-- What the conversion of a not-a-number quotient to an integer gives, before the clamp. Log entry 22. -/
opaque Config.truncNan : Word → Int

/-- `trunc` of a binary32 number that is NaN or infinity: no rule states one (rule R196, `TRUNC_INT`). Log entry 33. -/
opaque Config.truncNonFinite : Word → Word

/-- Whether `trunc` of a binary32 number in `(−1, 0]` with the sign bit set keeps that bit: no rule states it (rule R196, `TRUNC_INT`). Log
entry 33. -/
opaque Config.truncKeepsSign : Word → Bool

/-- The real number pattern `n` of the format `f` denotes. Log entry 34. -/
noncomputable opaque Config.fmtValue (f n : Nat) : ℝ

/-- Pattern `n` of the format `f` is a finite number (rule R225). Log entry 34. -/
opaque Config.fmtFinite (f n : Nat) : Bool

/-- Pattern `n` of the format `f` is zero (rule R225). Log entry 34. -/
opaque Config.fmtZero (f n : Nat) : Bool

/-- The binary32 pattern that goes out for pattern `n` of the format `f` (rules R41, R61). Log entry 34. -/
opaque Config.fmtWord (f n : Nat) : Word

/-- The pattern of a held number that is no pattern under `binary32` (unreachable). Log entry 23. -/
opaque Config.unheldBits : Word

/-- The `n`-th free value of `snr` after a non-finite reference symbol (I4 of 93_implementation_defined.md). Log entry 7. -/
opaque Config.freeSnr : Nat → Word

/-- The `n`-th free choice among enabled moves (rules R70, R137; C7 of 90_conflicts.md). Log entry 1. -/
opaque Config.freeChoice : Nat → Nat

end Sys2Proof
end

