-- ==== Sys2Proof/Machine/CarrierMap.lean ====
section
/-! DEFINITION. The carrier map and the legality of a configuration (rules R8, R9, R170 to R175). -/

namespace Sys2Proof.Machine

/-- One wraparound of a signed bin (rule R171). -/
def wrapBin (tU : Nat) (m : Int) : Int := if m < 0 then m + tU else m

/-- `bin(i)` of logical carrier `i` (rule R171); `none` where the map has no entry in range, which rule R170 excludes. -/
def carrierBin (c : Config) (i : Nat) : Option Nat :=
  match c.carrierMap[i]? with
  | some m => if -(c.tU : Int) ≤ m ∧ m < c.tU then some (wrapBin c.tU m).toNat else none
  | none   => none

/-- The bins of all carriers in carrier order. -/
def carrierBins (c : Config) : List Nat := c.carrierMap.map (fun m => (wrapBin c.tU m).toNat)

/-- Pairwise distinct, by a set of seen bins held as the bits of a number. -/
def distinctFrom (seen : Nat) : List Nat → Bool
  | [] => true
  | b :: bs => !seen.testBit b && distinctFrom (seen ||| 2 ^ b) bs

/-- The two legality conditions of rule R170, and that the map has `K` entries. -/
def mapLegal (c : Config) : Bool :=
  decide (c.carrierMap.length = c.k) &&
  c.carrierMap.all (fun m => decide (-(c.tU : Int) ≤ m ∧ m < c.tU)) &&
  distinctFrom 0 (carrierBins c)

/-- The legal ranges of rule R8. -/
def rangesLegal (c : Config) : Bool :=
  decide (c.tU % 2 = 0 ∧ 2 ≤ c.tU ∧ c.tU ≤ 65536) &&
  decide (c.tG ≤ 65536) &&
  decide (1 ≤ c.k ∧ c.k ≤ c.tU) &&
  decide (1 ≤ c.l ∧ c.l ≤ 65536) &&
  decide (c.nFic ≤ c.l - 1) &&
  decide (1 ≤ c.constDecim ∧ c.constDecim ≤ 65535) &&
  decide (0 < c.dbOffset) &&
  decide (1 ≤ c.nHost)

/-- A configuration that reset accepts (rules R9, R280). -/
def configLegal (c : Config) : Bool := rangesLegal c && mapLegal c

/-- The next value of the generator `Π` (rule R172). -/
def dabNext (tU x : Nat) : Nat := (13 * x + (tU / 4 - 1)) % tU

/-- `n` successive values of `Π` from `x` on (rule R172). -/
def dabSeq (tU : Nat) : Nat → Nat → List Nat
  | 0, _ => []
  | n + 1, x => x :: dabSeq tU n (dabNext tU x)

/-- Rule R172 keeps `lwb ≤ Π ≤ upb` with `Π ≠ T_u / 2`. -/
def dabKeep (tU k x : Nat) : Bool :=
  decide ((tU - k) / 2 ≤ x ∧ x ≤ (tU + k) / 2 ∧ x ≠ tU / 2)

/-- The default carrier map of the four DAB geometries (rule R172). PRESUMED (unsafe): general knowledge, as the rule itself
says; log entry 29. -/
def dabMap (tU k : Nat) : List Int :=
  (((dabSeq tU tU 0).filter (dabKeep tU k)).map (fun x => (x : Int) - (tU / 2 : Nat))).take k

/-- A configuration with the default values of rule R8 for everything but the geometry. -/
def defaultConfig (tU tG k l nFic decim : Nat) (map : List Int) : Config where
  tU := tU
  tG := tG
  k := k
  l := l
  nFic := nFic
  constDecim := decim
  prsMode := .useful
  carrierMap := map
  fftSign := .minus
  fftNorm := .none
  numerics := .real
  snrMWrap := 10
  snrMEdge := 20
  dbOffset := 1
  snrInstQuant := .none
  nHost := 1
  lengthCheckAll := true

/-- The scenario geometry (rule R8; configuration M1 of 95_test_vectors.md) with a given `CONST_DECIM`. -/
def scenarioConfig (decim : Nat) : Config :=
  defaultConfig 2048 512 1536 76 3 decim (dabMap 2048 1536)

/-- DAB mode I (rule R173). -/
def dabModeI (decim : Nat) : Config := defaultConfig 2048 504 1536 76 3 decim (dabMap 2048 1536)
/-- DAB mode II (rule R173). -/
def dabModeII (decim : Nat) : Config := defaultConfig 512 126 384 76 3 decim (dabMap 512 384)
/-- DAB mode III (rule R173). -/
def dabModeIII (decim : Nat) : Config := defaultConfig 256 63 192 153 8 decim (dabMap 256 192)
/-- DAB mode IV (rule R173). -/
def dabModeIV (decim : Nat) : Config := defaultConfig 1024 252 768 76 3 decim (dabMap 1024 768)

end Sys2Proof.Machine
end

