-- ==== Sys2Proof/Machine/Numeric.lean ====
section
/-! DEFINITION. Numbers of the datapath (rules R8 `NUMERICS`, R13, R61, R225).

A held number is plain data: a binary32 pattern, or the exact expression a rule computes. Under `NUMERICS = REAL` the state
holds the exact expression and `Num.val` is the real number it denotes; under `binary32` every held number is a pattern
(`Num.lit`) computed by the realised functions of Config.lean; under another format it is a pattern of that format (`Num.code`)
computed by the format's functions below. Log entries 5, 6 and 34. -/

namespace Sys2Proof.Machine

/-- A number of the datapath. -/
inductive Num where
  /-- The number a binary32 pattern denotes (rule R61). -/
  | lit (bits : Word)
  /-- The number pattern `n` of the implementation format `f` denotes (decision D2). -/
  | code (f n : Nat)
  /-- An exact rational constant. -/
  | rat (q : Rat)
  | add (a b : Num)
  | sub (a b : Num)
  | mul (a b : Num)
  | div (a b : Num)
  | sqrt (a : Num)
  /-- Base-10 logarithm (rule R199). -/
  | log10 (a : Num)
  /-- `trunc` of rule R10. -/
  | trunc (a : Num)
  /-- `cos(2π·k/n)`. -/
  | cosTurn (k n : Nat)
  /-- `sin(2π·k/n)`. -/
  | sinTurn (k n : Nat)
deriving DecidableEq, Repr

/-- `trunc(x)`: the integer nearest `x` toward zero (rule R10). -/
def truncInt {α : Type} [Field α] [LinearOrder α] [FloorRing α] (x : α) : Int :=
  if 0 ≤ x then ⌊x⌋ else ⌈x⌉

/-- `clamp(lo, hi, v)` (rule R10). -/
def clampInt (lo hi v : Int) : Int := min hi (max lo v)

/-- `f32` exponent field. -/
def f32Exponent (b : Word) : Nat := (b.extractLsb' 23 8).toNat

/-- The pattern is a finite number: neither NaN nor infinity (rule R61). -/
def f32Finite (b : Word) : Bool := decide (f32Exponent b ≠ 255)

/-- The pattern is NaN. -/
def f32Nan (b : Word) : Bool := decide (f32Exponent b = 255 ∧ b.extractLsb' 0 23 ≠ 0#23)

/-- The pattern is a zero of either sign. -/
def f32Zero (b : Word) : Bool := decide (b.extractLsb' 0 31 = 0#31)

/-- The rational a finite binary32 pattern denotes (rule R61). -/
def f32ToRat (b : Word) : Rat :=
  let e := f32Exponent b
  let frac := (b.extractLsb' 0 23).toNat
  let sig := if e = 0 then frac else 2 ^ 23 + frac
  let mag : Rat := (sig * 2 ^ max e 1 : Nat) / (2 ^ 150 : Nat)
  if b.msb then -mag else mag

/-- Round a nonnegative number to an integer, ties to even. -/
def roundHalfEven {α : Type} [Field α] [LinearOrder α] [FloorRing α] (y : α) : Int :=
  let f := ⌊y⌋
  let d := y - (f : α)
  if d < 1 / 2 then f
  else if 1 / 2 < d then f + 1
  else if f % 2 = 0 then f else f + 1

/-- The magnitude bits of the binary32 nearest to `x ≥ 0`, ties to even, infinity above the range. Binade `n` holds the
multiples of `2^n / 2^149` below `2^24 · 2^n / 2^149`. -/
def f32RoundMag {α : Type} [Field α] [LinearOrder α] [FloorRing α] (x : α) : Nat :=
  match (List.range 254).find? (fun n => decide (x < 2 ^ 24 * 2 ^ n / 2 ^ 149)) with
  | some n => n * 2 ^ 23 + (roundHalfEven (x * 2 ^ 149 / 2 ^ n)).toNat
  | none   => 0x7F800000

/-- The binary32 pattern nearest to `x`, ties to even (rule R41). -/
def f32Round {α : Type} [Field α] [LinearOrder α] [FloorRing α] (x : α) : Word :=
  if x < 0 then BitVec.ofNat 32 (0x80000000 + f32RoundMag (-x)) else BitVec.ofNat 32 (f32RoundMag x)

/-- Truncation toward zero of a binary32 pattern, which binary32 holds exactly (rule R196, `TRUNC_INT`). The rule gives the number alone: the
sign of a zero result from a negative number, and the result where the pattern is NaN or infinity, are free values (DESIGN CHOICE, safe; log
entry 33). -/
def f32TruncToPattern (b : Word) : Word :=
  let e := f32Exponent b
  if e = 255 then Config.truncNonFinite b
  else if e < 127 then (if b.msb && Config.truncKeepsSign b then 0x80000000#32 else 0#32)
  else if 150 ≤ e then b
  else b &&& ~~~ (BitVec.ofNat 32 (2 ^ (150 - e) - 1))

/-- Truncation of a binary32 pattern to an integer, infinities beyond every clamp, a free value for NaN (log entry 22). -/
def f32TruncToInt (b : Word) : Int :=
  if f32Finite b then truncInt (f32ToRat b)
  else if f32Nan b then Config.truncNan b
  else if b.msb then -(2 ^ 128) else 2 ^ 128

/-- The real number an expression denotes (rule R13). A pattern that is no finite number denotes none: the 0 here is never used,
because every effect asks `Num.finite` first (log entry 11). -/
noncomputable def Num.val : Num → ℝ
  | .lit b => if f32Finite b then ((f32ToRat b : ℚ) : ℝ) else 0
  | .code f n => Config.fmtValue f n
  | .rat q => (q : ℝ)
  | .add a b => a.val + b.val
  | .sub a b => a.val - b.val
  | .mul a b => a.val * b.val
  | .div a b => a.val / b.val
  | .sqrt a => Real.sqrt a.val
  | .log10 a => Real.logb 10 a.val
  | .trunc a => ((truncInt a.val : Int) : ℝ)
  | .cosTurn k n => Real.cos (2 * Real.pi * k / n)
  | .sinTurn k n => Real.sin (2 * Real.pi * k / n)

/-- No pattern in the expression is NaN or infinity. -/
def Num.finite : Num → Bool
  | .lit b => f32Finite b
  | .code f n => Config.fmtFinite f n
  | .rat _ => true
  | .add a b => a.finite && b.finite
  | .sub a b => a.finite && b.finite
  | .mul a b => a.finite && b.finite
  | .div a b => a.finite && b.finite
  | .sqrt a => a.finite
  | .log10 a => a.finite
  | .trunc a => a.finite
  | .cosTurn _ _ => true
  | .sinTurn _ _ => true

/-- The cosine of a quarter-turn multiple, `none` elsewhere. -/
def quarterCos (k n : Nat) : Option Rat :=
  if n = 0 then none
  else
    let r := k % n
    if r = 0 then some 1
    else if 4 * r = n then some 0
    else if 2 * r = n then some (-1)
    else if 4 * r = 3 * n then some 0
    else none

/-- The sine of a quarter-turn multiple, `none` elsewhere. -/
def quarterSin (k n : Nat) : Option Rat :=
  if n = 0 then none
  else
    let r := k % n
    if r = 0 then some 0
    else if 4 * r = n then some 1
    else if 2 * r = n then some 0
    else if 4 * r = 3 * n then some (-1)
    else none

/-- The square root of a rational whose numerator and denominator are squares. -/
def ratSqrt (q : Rat) : Option Rat :=
  if q < 0 then none
  else
    let a := q.num.toNat.sqrt
    let b := q.den.sqrt
    if a * a = q.num.toNat ∧ b * b = q.den then some ((a : Rat) / (b : Rat)) else none

/-- Apply an operation to two known rationals. -/
def ratOp (f : Rat → Rat → Rat) : Option Rat → Option Rat → Option Rat
  | some p, some q => some (f p q)
  | _, _ => none

/-- Product of two perhaps unknown numbers: a known zero decides it. -/
def ratMul (a b : Option Rat) : Option Rat :=
  if a = some 0 ∨ b = some 0 then some 0 else ratOp (· * ·) a b

/-- Exact evaluation to a rational where the expression plainly has one; `none` says nothing. It lets the model run:
`Num.rat?_sound` in Laws/Numeric.lean says that an answer is the denoted number. -/
def Num.rat? : Num → Option Rat
  | .lit b => if f32Finite b then some (f32ToRat b) else none
  | .code _ _ => none
  | .rat q => some q
  | .add a b => ratOp (· + ·) a.rat? b.rat?
  | .sub a b => ratOp (· - ·) a.rat? b.rat?
  | .mul a b => if a.finite && b.finite then ratMul a.rat? b.rat? else none
  | .div a b => ratOp (· / ·) a.rat? b.rat?
  | .sqrt a => match a.rat? with
    | some q => ratSqrt q
    | none => none
  | .log10 a => if a.rat? = some 1 then some 0 else none
  | .trunc a => match a.rat? with
    | some q => some ((truncInt q : Int) : Rat)
    | none => none
  | .cosTurn k n => quarterCos k n
  | .sinTurn k n => quarterSin k n

/-- The pattern of a number held under `binary32`. -/
def Num.bits : Num → Word
  | .lit b => b
  | _ => Config.unheldBits

/-- The number is held as a binary32 pattern. -/
def Num.isLit : Num → Bool
  | .lit _ => true
  | _ => false

/-- The number is held as a pattern of binary32 or of another format, and is no expression. -/
def Num.isPattern : Num → Bool
  | .lit _ => true
  | .code _ _ => true
  | _ => false

/-- The expression names no pattern of a format other than binary32. -/
def Num.codeFree : Num → Bool
  | .lit _ => true
  | .code _ _ => false
  | .rat _ => true
  | .add a b => a.codeFree && b.codeFree
  | .sub a b => a.codeFree && b.codeFree
  | .mul a b => a.codeFree && b.codeFree
  | .div a b => a.codeFree && b.codeFree
  | .sqrt a => a.codeFree
  | .log10 a => a.codeFree
  | .trunc a => a.codeFree
  | .cosTurn _ _ => true
  | .sinTurn _ _ => true

/-- The number is held in the arithmetic `k` (rules R13, R21, R28): an exact expression; a binary32 pattern; a pattern of the format, or an
interface pattern no operation has touched yet (log entry 34). -/
def Num.heldIn (k : Numerics) (e : Num) : Bool :=
  match k with
  | .real => e.codeFree
  | .binary32 => e.isLit
  | .format f => match e with
    | .lit _ => true
    | .code g _ => decide (g = f)
    | _ => false

end Sys2Proof.Machine

namespace Sys2Proof

/-- The pattern that goes out for an exact expression over NaN or infinity: no rule states one (rule R61 accepts such input, rule R225
gives its soft bits alone). A free value, in Config's namespace; it stands here because it is applied to the expression. Log entry 11. -/
opaque Config.nonFiniteWord : Machine.Num → Word

end Sys2Proof

namespace Sys2Proof.Machine

/-- A 32-bit word of an output: known bits, or the binary32 nearest to an exact value (rules R41, R61). -/
inductive Word32 where
  | bits (w : Word)
  | nearest (e : Num)
deriving DecidableEq, Repr

/-- The bits of an output word: ties to even (rule R41); a free value where the expression holds NaN or infinity (log entry 11). -/
noncomputable def Word32.value : Word32 → Word
  | .bits w => w
  | .nearest e => if e.finite then f32Round e.val else Config.nonFiniteWord e

/-- The binary32 form of a number: a held binary32 pattern itself, what the format gives for one of its own (log entry 34), else the nearest
pattern (rule R41). -/
def Num.word (e : Num) : Word32 :=
  match e with
  | .lit b => .bits b
  | .code f n => .bits (Config.fmtWord f n)
  | e => match e.rat? with
    | some q => .bits (f32Round q)
    | none => .nearest e

/-- A complex value (rule R10). -/
structure Cplx where
  re : Num
  im : Num
deriving DecidableEq, Repr

/-- A vector of complex values (rule R10). -/
abbrev Vec := List Cplx

/-- The complex number a value denotes. -/
noncomputable def Cplx.val (z : Cplx) : ℂ := ⟨z.re.val, z.im.val⟩

/-- Neither part holds NaN or infinity. -/
def Cplx.finite (z : Cplx) : Bool := z.re.finite && z.im.finite

/-- Both parts are held in the arithmetic `k`. -/
def Cplx.heldIn (k : Numerics) (z : Cplx) : Bool := z.re.heldIn k && z.im.heldIn k

/-- The patterns of a value held under `binary32`. -/
def Cplx.bits (z : Cplx) : Bits2 := (z.re.bits, z.im.bits)

/-- A value from two patterns. -/
def Cplx.ofBits (b : Bits2) : Cplx := ⟨.lit b.1, .lit b.2⟩

/-- A value from two patterns of the format `f`. -/
def Cplx.ofCodes (f : Nat) (p : Nat × Nat) : Cplx := ⟨.code f p.1, .code f p.2⟩

/-- `+0.0 + 0.0 j` (rule R86). -/
def Cplx.zero : Cplx := ⟨.lit 0#32, .lit 0#32⟩

end Sys2Proof.Machine

/-! The realised operations of the implementation format `f` (rules R13, R163, entry I2): each answers patterns of the format and depends on
`cfg` or the format and on its operands alone (log entry 34). They stand here because their operands are held numbers. -/

namespace Sys2Proof

/-- `FFT_IMPL` (rule R163): bin `k` of the realised transform. -/
opaque Config.fmtTransform (c : Config) (d : Dir) (x : Machine.Vec) (k : Nat) : Nat × Nat

/-- The realised differential product `w · conj(g)` (rule R222). -/
opaque Config.fmtProduct (f : Nat) (w g : Machine.Cplx) : Nat × Nat

/-- The realised L1 norm (rule R224). -/
opaque Config.fmtNormOne (f : Nat) (r : Machine.Cplx) : Nat

/-- The integer the realised `(−x / m) × 127` truncates to, before the clamp (rule R225). -/
opaque Config.fmtSoftInt (f : Nat) (x : Machine.Num) (m : Nat) : Int

/-- The realised mean modulus over a nonempty list of bins (rule R196). -/
opaque Config.fmtMeanModulus (f : Nat) (zs : Machine.Vec) : Nat

/-- The realised `DB_FACTOR · log10(x + DB_OFFSET)` (rule R199). -/
opaque Config.fmtDb (f : Nat) (offset : Rat) (x : Machine.Num) : Nat

/-- The realised difference of two decibel values (rule R196). -/
opaque Config.fmtSub (f : Nat) (a b : Machine.Num) : Nat

/-- The realised `trunc` of `TRUNC_INT` (rule R196). -/
opaque Config.fmtTrunc (f : Nat) (x : Machine.Num) : Nat

/-- The realised `0.7 · old + 0.3 · inst`, with the constants as the format holds them (rule R197, entry I6). -/
opaque Config.fmtSmooth (f : Nat) (old inst : Machine.Num) : Nat

end Sys2Proof

namespace Sys2Proof.Machine

/-- Sum of a list of numbers. -/
def Num.sum (xs : List Num) : Num := xs.foldr .add (.rat 0)

/-- A soft bit of an output record: an `int8`, or the soft bit of two exact parts that the model does not evaluate. -/
inductive SoftVal where
  | int8 (b : BitVec 8)
  /-- The soft bit of the part `x` beside the other part `y` (rule R225). -/
  | exact (x y : Num)
deriving DecidableEq, Repr

/-- Rule R225 for one part `x` of `r`, with `y` the other part: `clamp(−127, 127, trunc((−x / m) × 127))`, 0 when `m = 0`. -/
def softBit {α : Type} [Field α] [LinearOrder α] [FloorRing α] (x y : α) : Int :=
  let m := |x| + |y|
  if m = 0 then 0 else clampInt (-127) 127 (truncInt ((-x / m) * 127))

/-- The `int8` of a soft bit, as an integer. -/
noncomputable def SoftVal.value : SoftVal → Int
  | .int8 b => b.toInt
  | .exact x y => softBit x.val y.val

end Sys2Proof.Machine
end

