-- ==== Sys2Proof/Machine/State.lean ====
section
/-! DEFINITION. The state of one core instance (rule R20), as plain data, and the state after reset (rules R43, R280 to R282). -/

namespace Sys2Proof.Machine

/-- Worker phase (rule R31). -/
inductive WPhase where
  | wait
  | run
  | exited
  | faulted
deriving DecidableEq, Repr

/-- The six sticky fault bits (rule R42). -/
inductive FaultBit where
  | illegalCmd
  | badLength
  | badIndex
  | pendSat
  | overrun
  | uninitRead
deriving DecidableEq, Repr

/-- A record of an output port (rule R91). -/
inductive Record where
  /-- `FicBlock` on port `FIC`. -/
  | fic (bits : List SoftVal) (pos : BitVec 16)
  /-- `MscBlock` on port `MSC`. -/
  | msc (bits : List SoftVal) (pos : BitVec 16)
  /-- `SnrReport` on port `SNR`. -/
  | snr (value : Num)
  /-- `ConstFlush` on port `CONST`. -/
  | const (samples : Vec)
deriving DecidableEq, Repr

/-- A nonempty response to a command (rule R86). -/
inductive Response where
  | word (w : Word32)
  | samples (v : Vec)
deriving DecidableEq, Repr

/-- One event of the trace (rule R92). -/
inductive Event where
  | response (host : Nat) (r : Response)
  | record (r : Record)
deriving DecidableEq, Repr

/-- What a host has still to do (rules R80, R284). -/
inductive HostReq where
  /-- A command transaction: the bytes on the wire, command word first (rules R81, R62). -/
  | cmd (bytes : List Byte)
  /-- The join of `TEARDOWN`: `READ_CSR STATUS`, repeated until `WPHASE` is `EXITED` or `FAULTED` (rule R284). -/
  | pollJoin
  /-- `release` of `TEARDOWN`: the instance ends (rule R284). -/
  | release
deriving DecidableEq, Repr

/-- The transaction on the host interface: its host, and its payload bytes (rule R80). -/
structure Port where
  host : Nat
  payload : List Byte
deriving DecidableEq, Repr

/-- The state of one core instance (rule R20), its configuration, and the model's own fields. -/
structure State where
  /-- The configuration latched at reset (rules R8, R280). -/
  cfg : Config
  /-- `slot[b]` with `slot_valid[b]`: `none` is an unwritten slot, `slot_valid[b] = 0` (rules R21, R22). -/
  slots : List (Option Vec)
  /-- `pending` (rule R23). -/
  pending : BitVec 32
  /-- `curblk` (rule R24). -/
  curblk : Nat
  /-- `work`: `none` before its first write (rules R25, R282). -/
  work : Option Vec
  /-- `ref[k]` with `ref_valid[k]`: `none` is `ref_valid[k] = 0` (rule R26). -/
  ref : List (Option Cplx)
  /-- `running` (rule R30). -/
  running : Bool
  /-- `wphase` (rule R31). -/
  wphase : WPhase
  /-- `snr` (rule R28). -/
  snr : Num
  /-- `snr_cnt` (rule R29). -/
  snrCnt : BitVec 4
  /-- `cbuf` (rule R27). -/
  cbuf : Vec
  /-- `fault` (rules R32, R42). -/
  fault : BitVec 6
  /-- The observation (rule R92), oldest event first. -/
  trace : List Event
  /-- The requests each host has still to issue, in its order (rules R70, R264). -/
  hosts : List (List HostReq)
  /-- The transaction being executed (rule R80). -/
  port : Port
  /-- The instance has ended (rule R284). -/
  released : Bool
  /-- How the next choices among several enabled moves fall (rules R70, R137). DESIGN CHOICE, log entry 1. -/
  choices : List Nat
  /-- Numbers the free values drawn. DESIGN CHOICE, log entry 26. -/
  freeCtr : Nat
  /-- A non-finite reference symbol was processed, so `snr` is any value from then on (I4). Log entry 7. -/
  snrFree : Bool
deriving DecidableEq, Repr

/-- Why the machine stops. -/
inductive Fault where
  /-- Raised by the worker's process step when `work` holds no vector in phase `RUN`. Safe: rule R132 writes `work` before every
  read, so no run reaches it (log entry 9). -/
  | workUnwritten
deriving DecidableEq, Repr

/-- Why a step has no meaning. -/
inductive Refusal where
  /-- Raised by an arm of `exec` whose instruction is not modelled. Safe. -/
  | notModelled (mnemonic : String)
  /-- Raised by `step` after release: the instance has no state and no step (rule R284, I20). Safe. -/
  | released
  /-- Raised by a host transaction of fewer than four bytes: it holds no command word (rules R64, R80). Safe (log entry 13). -/
  | truncatedWord
deriving DecidableEq, Repr

/-- The state right after reset with configuration `c` (rule R43). -/
def State.initial (c : Config) : State where
  cfg := c
  slots := List.replicate c.l none
  pending := 0#32
  curblk := 0
  work := none
  ref := List.replicate c.tU none
  running := true
  wphase := .wait
  snr := .lit 0#32
  snrCnt := 0#4
  cbuf := []
  fault := 0#6
  trace := []
  hosts := List.replicate c.nHost []
  port := ⟨0, []⟩
  released := false
  choices := []
  freeCtr := 0
  snrFree := false

/-- Reset is construction with a configuration; an illegal one is refused and there is no core (rules R9, R280). -/
def State.resetWith (c : Config) : Option State :=
  if configLegal c then some (State.initial c) else none

/-- The configuration of `State.reset`: the scenario geometry with the OPEN `CONST_DECIM`. DESIGN CHOICE (unsafe: one configuration of
many; every general statement quantifies over `cfg`); log entry 4. -/
def State.resetConfig : Config := scenarioConfig (Config.openDecim.val + 1)

/-- The machine right after reset. -/
def State.reset : State := State.initial State.resetConfig

end Sys2Proof.Machine
end

