-- ==== Sys2Proof/Machine/Ops.lean ====
section
/-! DEFINITION. The named operations over the state: the fault mechanism (rule R250), the storage spaces (rules R12, R21, R26),
the shared ingress tail (rule R100), the ports and responses (rules R86, R92).

Taking an exception is `raiseFault`, the one mechanism the spec has: nothing is saved, no mode changes, control goes nowhere (rules
R250, R260). There is no return from it: faults do not nest and nothing re-enables anything (rule R261). -/

namespace Sys2Proof.Machine

/-- The bit number of a fault (rule R42). -/
def faultIndex : FaultBit → Nat
  | .illegalCmd => 0
  | .badLength  => 1
  | .badIndex   => 2
  | .pendSat    => 3
  | .overrun    => 4
  | .uninitRead => 5

/-- The mask of a fault bit in FAULT (rule R42). -/
def faultMask (f : FaultBit) : BitVec 6 := BitVec.ofNat 6 (2 ^ faultIndex f)

/-- `fault.F <- 1`: sticky (rules R32, R250). -/
def raiseFault (f : FaultBit) (s : State) : State := { s with fault := s.fault ||| faultMask f }

/-- `fault.F` (rule R42). -/
def faultSet (s : State) (f : FaultBit) : Bool := s.fault.getLsbD (faultIndex f)

/-- `slot[b] <- v`, which also sets `slot_valid[b]` (rule R12). -/
def writeSlot (b : Nat) (v : Vec) (s : State) : State := { s with slots := s.slots.set b (some v) }

/-- `slot[b]`, `none` where `slot_valid[b] = 0` (rules R21, R22). -/
def readSlot (s : State) (b : Nat) : Option Vec := (s.slots[b]?).join

/-- `slot_valid[b]` (rule R22). -/
def slotValid (s : State) (b : Nat) : Bool := (readSlot s b).isSome

/-- `work <- v` (rule R12). -/
def writeWork (v : Vec) (s : State) : State := { s with work := some v }

/-- `ref[k]`, `none` where `ref_valid[k] = 0` (rule R26). -/
def readRef (ref : List (Option Cplx)) (k : Nat) : Option Cplx := (ref[k]?).join

/-- Append one event to the trace (rule R92). -/
def observe (e : Event) (s : State) : State := { s with trace := s.trace ++ [e] }

/-- `emit P(record)` (rules R12, R92): every consumer takes the record at once. -/
def emit (r : Record) (s : State) : State := observe (.record r) s

/-- `respond(v)` to the host that issued the command (rule R12). -/
def respond (r : Response) (s : State) : State := observe (.response s.port.host r) s

/-- The last value of the pending counter, `2^W_PEND − 1` (rules R8, R254). -/
def pendMax : BitVec 32 := 0xFFFFFFFF#32

/-- Mark an ingress that finds `pending ≥ L` (rules R100, R256). It does not abort. -/
def markOverrun (s : State) : State :=
  if s.cfg.l ≤ s.pending.toNat then raiseFault .overrun s else s

/-- The slot write and the increment of an ingress (rule R100). -/
def commitIngest (b : Nat) (v : Vec) (s : State) : State :=
  writeSlot b v { s with pending := s.pending + 1#32 }

/-- `IngestTail(b, v)` (rule R100). -/
def ingestTail (b : Nat) (v : Vec) (s : State) : State :=
  if s.pending = pendMax then raiseFault .pendSat s
  else commitIngest b v (markOverrun s)

/-- The UNINIT_READ entry (rule R255): the bit is set and the worker stops for good. -/
def uninitStop (s : State) : State := { raiseFault .uninitRead s with wphase := .faulted }

end Sys2Proof.Machine
end

