-- ==== Sys2Proof/Machine/Operands.lean ====
section
/-! DEFINITION. Operands of the commands: payloads (rules R61, R64, R85), guard removal (rules R101, R102), CSR numbers (rule
R38). -/

namespace Sys2Proof.Machine

/-- The complex samples of a payload: 8 bytes each, the real part first, each a little-endian binary32 (rules R61, R62). Bytes
beyond the last whole sample are not read; a payload that has any fails the length check (rule R64). -/
def samplesOf : List Byte → Vec
  | a0 :: a1 :: a2 :: a3 :: b0 :: b1 :: b2 :: b3 :: rest =>
    ⟨.lit (leWord a0 a1 a2 a3), .lit (leWord b0 b1 b2 b3)⟩ :: samplesOf rest
  | _ => []

/-- The payload has exactly `n` samples: `8·n` bytes (rule R64). -/
def payloadIs (p : List Byte) (n : Nat) : Bool := decide (p.length = 8 * n)

/-- `n_payload(op)` (rule R85). -/
def nPayload (c : Config) : Instr → Nat
  | .ingestPrs => match c.prsMode with
    | .useful => c.tU
    | .full => c.tS
  | .ingestFic _ => c.tS
  | .ingestMsc _ => c.tS
  | .stop => 0
  | .readCsr _ => 0
  | .xform _ => c.tU

/-- `buf[off : off + T_u]` (rules R101, R102). -/
def usefulPart (c : Config) (off : Nat) (buf : Vec) : Vec := (buf.drop off).take c.tU

/-- Offset of the useful part in a phase-reference payload (rule R101). -/
def prsOffset (c : Config) : Nat :=
  match c.prsMode with
  | .useful => 0
  | .full => c.tG

/-- The CSR number of a name (rule R38). -/
def csrNumber : Csr → Nat
  | .cfgTu => 0x0000
  | .cfgTg => 0x0001
  | .cfgK => 0x0002
  | .cfgL => 0x0003
  | .cfgNfic => 0x0004
  | .cfgDecim => 0x0005
  | .cfgMode => 0x0006
  | .status => 0x0010
  | .pending => 0x0011
  | .curblk => 0x0012
  | .snr => 0x0013
  | .snrCnt => 0x0014
  | .constLen => 0x0015
  | .fault => 0x0020

/-- Every assigned CSR (rule R38). -/
def allCsrs : List Csr :=
  [.cfgTu, .cfgTg, .cfgK, .cfgL, .cfgNfic, .cfgDecim, .cfgMode,
   .status, .pending, .curblk, .snr, .snrCnt, .constLen, .fault]

/-- The CSR a number names; `none` where the number is unassigned (rules R37, R38). -/
def csrOf (n : Nat) : Option Csr := allCsrs.find? (fun c => decide (csrNumber c = n))

end Sys2Proof.Machine
end

