-- ==== Sys2Proof/Machine/Flags.lean ====
section
/-! DEFINITION. Status words: the contents of the CSRs (rules R36 to R42). No arithmetic result sets a flag (rule R36). -/

namespace Sys2Proof.Machine

/-- WPHASE in STATUS (rule R40). -/
def wphaseCode : WPhase → BitVec 2
  | .wait => 0#2
  | .run => 1#2
  | .exited => 2#2
  | .faulted => 3#2

/-- STATUS: RUNNING in bit 0, WPHASE in bits 2:1, the rest 0 (rule R40). -/
def statusWord (s : State) : Word := 0#29 ++ wphaseCode s.wphase ++ BitVec.ofBool s.running

/-- FFT_SIGN in CFG_MODE (rule R39). -/
def signCode : FftSign → BitVec 1
  | .minus => 0#1
  | .plus => 1#1

/-- FFT_NORM in CFG_MODE (rule R39). -/
def normCode : FftNorm → BitVec 2
  | .none => 0#2
  | .invN => 1#2
  | .unitary => 2#2

/-- PRS_MODE in CFG_MODE (rule R39). -/
def prsCode : PrsMode → BitVec 1
  | .useful => 0#1
  | .full => 1#1

/-- SNR_INST_QUANT in CFG_MODE (rule R39). -/
def quantCode : SnrQuant → BitVec 1
  | .none => 0#1
  | .truncInt => 1#1

/-- CFG_MODE (rule R39). -/
def cfgModeWord (c : Config) : Word :=
  0#27 ++ quantCode c.snrInstQuant ++ normCode c.fftNorm ++ signCode c.fftSign ++ prsCode c.prsMode

/-- FAULT: the six bits, the rest 0 (rule R42). -/
def faultWord (s : State) : Word := 0#26 ++ s.fault

/-- `CSR[n]` (rules R38 to R42). The SNR word is the binary32 nearest to `snr`, or the held pattern (rule R41). -/
def csrValue (s : State) : Csr → Word32
  | .cfgTu => .bits (BitVec.ofNat 32 s.cfg.tU)
  | .cfgTg => .bits (BitVec.ofNat 32 s.cfg.tG)
  | .cfgK => .bits (BitVec.ofNat 32 s.cfg.k)
  | .cfgL => .bits (BitVec.ofNat 32 s.cfg.l)
  | .cfgNfic => .bits (BitVec.ofNat 32 s.cfg.nFic)
  | .cfgDecim => .bits (BitVec.ofNat 32 s.cfg.constDecim)
  | .cfgMode => .bits (cfgModeWord s.cfg)
  | .status => .bits (statusWord s)
  | .pending => .bits s.pending
  | .curblk => .bits (BitVec.ofNat 32 s.curblk)
  | .snr => s.snr.word
  | .snrCnt => .bits (0#28 ++ s.snrCnt)
  | .constLen => .bits (BitVec.ofNat 32 s.cbuf.length)
  | .fault => .bits (faultWord s)

/-- `WPHASE ∈ {EXITED, FAULTED}`: the condition the join of TEARDOWN polls for (rule R284). -/
def joined (s : State) : Bool :=
  match s.wphase with
  | .exited => true
  | .faulted => true
  | _ => false

end Sys2Proof.Machine
end

