-- ==== Sys2Proof/Machine/Control.lean ====
section
/-! DEFINITION. `STOP` (rule R105) and `READ_CSR` (rule R106). -/

namespace Sys2Proof.Machine

/-- The length check of a command that takes no payload: rules R64 and R85 ask for it, and it is on in every configuration the model builds;
the list of rule R252 and rules R105 and R106 do not name it. DESIGN CHOICE (safe: `cfg.lengthCheckAll` covers both); log entry 12. -/
def emptyPayloadOk (s : State) : Bool := !s.cfg.lengthCheckAll || payloadIs s.port.payload 0

/-- `STOP` on the state (rule R105). The wake has no state (rule R33). -/
def stopWorker (s : State) : State :=
  if emptyPayloadOk s then { s with running := false } else raiseFault .badLength s

/-- `READ_CSR n` on the state (rule R106): an unassigned number answers 0 and sets ILLEGAL_CMD. -/
def readCsr (n : Nat) (s : State) : State :=
  match csrOf n with
  | some c =>
    if emptyPayloadOk s then respond (.word (csrValue s c)) s
    else respond (.word (.bits 0#32)) (raiseFault .badLength s)
  | none => respond (.word (.bits 0#32)) (raiseFault .illegalCmd s)

/-- `STOP` (rule R105). -/
def execStop (s : State) : Host.Outcome State Fault Refusal := .next (stopWorker s)

/-- `READ_CSR n` (rule R106). -/
def execReadCsr (n : Nat) (s : State) : Host.Outcome State Fault Refusal := .next (readCsr n s)

end Sys2Proof.Machine
end

