-- ==== Sys2Proof/Machine/Ingress.lean ====
section
/-! DEFINITION. The three ingress commands (rules R100 to R104). Every path is a next state: an aborting fault sets its bit and has no
other effect (rule R250). The checks run in the order of rule R258. -/

namespace Sys2Proof.Machine

/-- `INGEST_PRS` on the state (rule R101). -/
def ingestPrs (s : State) : State :=
  if payloadIs s.port.payload (nPayload s.cfg .ingestPrs) then
    ingestTail 0 (usefulPart s.cfg (prsOffset s.cfg) (samplesOf s.port.payload)) s
  else raiseFault .badLength s

/-- `DataIngest(idx, buf)` (rule R102). -/
def dataIngest (idx : Nat) (s : State) : State :=
  if payloadIs s.port.payload s.cfg.tS then
    if s.cfg.l ≤ idx then raiseFault .badIndex s
    else ingestTail idx (usefulPart s.cfg s.cfg.tG (samplesOf s.port.payload)) s
  else raiseFault .badLength s

/-- `INGEST_PRS` (rule R101). -/
def execIngestPrs (s : State) : Host.Outcome State Fault Refusal := .next (ingestPrs s)

/-- `INGEST_FIC idx` (rule R103). -/
def execIngestFic (idx : Nat) (s : State) : Host.Outcome State Fault Refusal := .next (dataIngest idx s)

/-- `INGEST_MSC idx`: the same copy discipline as `INGEST_FIC` (rule R104). -/
def execIngestMsc (idx : Nat) (s : State) : Host.Outcome State Fault Refusal := .next (dataIngest idx s)

end Sys2Proof.Machine
end

