-- ==== Sys2Proof/Machine/Transform.lean ====
section
/-! DEFINITION. The FFT / IFFT engine (rules R160 to R166) and the command `XFORM` (rule R107).

Under `NUMERICS = REAL` a bin is the exact sum of rule R160 or R161, written with `cos` and `sin`; in an implementation
format it is the configuration function `FFT_IMPL` (rule R163). -/

namespace Sys2Proof.Machine

/-- The sign of the exponent for a direction: `FFT_SIGN` forward, its opposite inverse (rules R160, R161). -/
def exponentSign (c : Config) : Dir → Rat
  | .fwd => match c.fftSign with
    | .minus => -1
    | .plus => 1
  | .inv => match c.fftSign with
    | .minus => 1
    | .plus => -1

/-- `s_f` and `s_i` (rules R160, R161). -/
def transformScale (c : Config) (d : Dir) : Num :=
  match c.fftNorm, d with
  | .none, _ => .rat 1
  | .invN, .fwd => .rat 1
  | .invN, .inv => .rat (1 / c.tU)
  | .unitary, _ => .div (.rat 1) (.sqrt (.rat c.tU))

/-- Real part of `z · exp(±j·2π·k·n/N)`, with the sign `σ`. -/
def twiddleRe (σ : Rat) (N k n : Nat) (z : Cplx) : Num :=
  .sub (.mul z.re (.cosTurn (k * n) N)) (.mul (.rat σ) (.mul z.im (.sinTurn (k * n) N)))

/-- Imaginary part of `z · exp(±j·2π·k·n/N)`, with the sign `σ`. -/
def twiddleIm (σ : Rat) (N k n : Nat) (z : Cplx) : Num :=
  .add (.mul z.im (.cosTurn (k * n) N)) (.mul (.rat σ) (.mul z.re (.sinTurn (k * n) N)))

/-- Bin `k` of the exact transform (rules R160, R161). -/
def exactBin (c : Config) (d : Dir) (x : Vec) (k : Nat) : Cplx where
  re := .mul (transformScale c d) (Num.sum (x.mapIdx (fun n z => twiddleRe (exponentSign c d) c.tU k n z)))
  im := .mul (transformScale c d) (Num.sum (x.mapIdx (fun n z => twiddleIm (exponentSign c d) c.tU k n z)))

/-- Bin `k` of the transform in `cfg.NUMERICS` (rules R160, R161, R163). -/
def transformBin (c : Config) (d : Dir) (x : Vec) (k : Nat) : Cplx :=
  match c.numerics with
  | .real => exactBin c d x k
  | .binary32 => Cplx.ofBits (Config.fftImpl c d (x.map Cplx.bits) k)
  | .format f => Cplx.ofCodes f (Config.fmtTransform c d x k)

/-- `DFT(x)` and `IDFT(x)`: `T_u` values (rules R160, R161). -/
def transform (c : Config) (d : Dir) (x : Vec) : Vec := (List.range c.tU).map (transformBin c d x)

/-- The response of `XFORM` to a payload of the wrong length: `T_u` zero samples (rules R86, R252). -/
def zeroSamples (c : Config) : Vec := List.replicate c.tU Cplx.zero

/-- `XFORM d` on the state (rule R107): it writes nothing but a fault bit. -/
def xform (d : Dir) (s : State) : State :=
  if payloadIs s.port.payload s.cfg.tU then
    respond (.samples (transform s.cfg d (samplesOf s.port.payload))) s
  else respond (.samples (zeroSamples s.cfg)) (raiseFault .badLength s)

/-- `XFORM d` (rule R107). -/
def execXform (d : Dir) (s : State) : Host.Outcome State Fault Refusal := .next (xform d s)

end Sys2Proof.Machine
end

