-- ==== Sys2Proof/Machine/Dispatch.lean ====
section
/-! DEFINITION. The meaning of each command, one arm per constructor. -/

namespace Sys2Proof.Machine

def exec (i : Instr) (s : State) : Host.Outcome State Fault Refusal :=
  match i with
  | .ingestPrs => Sys2Proof.Machine.execIngestPrs s
  | .ingestFic idx => Sys2Proof.Machine.execIngestFic idx s
  | .ingestMsc idx => Sys2Proof.Machine.execIngestMsc idx s
  | .stop => Sys2Proof.Machine.execStop s
  | .readCsr n => Sys2Proof.Machine.execReadCsr n s
  | .xform d => Sys2Proof.Machine.execXform d s

end Sys2Proof.Machine
end

