-- ==== Sys2Proof/Machine/DataBlock.lean ====
section
/-! DEFINITION. Data-block processing: the differential QPSK demodulator, the soft-bit mapper and the constellation tap (rules R220 to
R231). -/

namespace Sys2Proof.Machine

/-- The differential product `w · conj(f)` (rule R222). -/
def diffProduct (c : Config) (w f : Cplx) : Cplx :=
  match c.numerics with
  | .real =>
    ⟨.add (.mul w.re f.re) (.mul w.im f.im), .sub (.mul w.im f.re) (.mul w.re f.im)⟩
  | .binary32 => Cplx.ofBits (Config.f32Product w.bits f.bits)
  | .format n => Cplx.ofCodes n (Config.fmtProduct n w f)

/-- A soft bit as an `int8`. -/
def int8Of (v : Int) : SoftVal := .int8 (BitVec.ofInt 8 v)

/-- The soft bit of an exact part `x` beside `y` (rule R225), evaluated where both parts have a known rational value. -/
def exactSoft (x y : Num) : SoftVal :=
  match x.rat?, y.rat? with
  | some p, some q => int8Of (softBit p q)
  | _, _ => .exact x y

/-- The soft bit of a binary32 part with the realised norm `m` (rule R225): divide, multiply, truncate, clamp. -/
def f32Soft (x m : Word) : SoftVal := int8Of (clampInt (-127) 127 (f32TruncToInt (Config.f32Ratio127 x m)))

/-- The degenerate case of rule R225 in binary32: `m = 0`, or `m` (or a part it is made from) not finite (log entry 32). -/
def f32Degenerate (r : Cplx) : Bool :=
  let m := Config.f32NormOne r.bits
  !r.finite || f32Zero m || !f32Finite m

/-- The soft bit of a part in the format `f` with the realised norm `m` (rule R225): the realised integer, clamped. -/
def fmtSoft (f : Nat) (x : Num) (m : Nat) : SoftVal := int8Of (clampInt (-127) 127 (Config.fmtSoftInt f x m))

/-- The degenerate case of rule R225 in the format `f`, as in binary32 (log entry 32). -/
def fmtDegenerate (f : Nat) (r : Cplx) : Bool :=
  let m := Config.fmtNormOne f r
  !r.finite || Config.fmtZero f m || !Config.fmtFinite f m

/-- `SoftBits(r)` (rule R225): the real-part bit and the imaginary-part bit. -/
def softBits (c : Config) (r : Cplx) : SoftVal × SoftVal :=
  match c.numerics with
  | .real =>
    if r.finite then (exactSoft r.re r.im, exactSoft r.im r.re) else (.int8 0#8, .int8 0#8)
  | .binary32 =>
    if f32Degenerate r then (.int8 0#8, .int8 0#8)
    else (f32Soft r.re.bits (Config.f32NormOne r.bits), f32Soft r.im.bits (Config.f32NormOne r.bits))
  | .format f =>
    if fmtDegenerate f r then (.int8 0#8, .int8 0#8)
    else (fmtSoft f r.re (Config.fmtNormOne f r), fmtSoft f r.im (Config.fmtNormOne f r))

/-- What the loop over the carriers has made so far (rule R220, step 2). -/
structure CarrierAcc where
  ref : List (Option Cplx)
  reBits : List SoftVal
  imBits : List SoftVal
  cbuf : Vec
deriving DecidableEq, Repr

/-- The constellation tap: `r` is appended when `i mod CONST_DECIM = 0` (rule R227). -/
def tapCarrier (c : Config) (i : Nat) (r : Cplx) (cbuf : Vec) : Vec :=
  if i % c.constDecim = 0 then cbuf ++ [r] else cbuf

/-- Carrier `i` with its bin `k`, its transform value `w` and its reference `f` (rule R220, steps 2b to 2e). -/
def demodCarrier (c : Config) (i k : Nat) (w f : Cplx) (a : CarrierAcc) : CarrierAcc where
  ref := a.ref.set k (some w)
  reBits := a.reBits ++ [(softBits c (diffProduct c w f)).1]
  imBits := a.imBits ++ [(softBits c (diffProduct c w f)).2]
  cbuf := tapCarrier c i (diffProduct c w f) a.cbuf

/-- Step 2 for one carrier (rule R220); `none` where the reference at its bin is not valid (rule R44). -/
def carrierStep (c : Config) (x : Vec) (i : Nat) (a : CarrierAcc) : Option CarrierAcc :=
  match carrierBin c i with
  | none => none
  | some k =>
    match x[k]?, readRef a.ref k with
    | some w, some f => some (demodCarrier c i k w f a)
    | _, _ => none

/-- Step 2 over a list of carriers in order (rules R220, R221). -/
def carrierLoop (c : Config) (x : Vec) : List Nat → CarrierAcc → Option CarrierAcc
  | [], a => some a
  | i :: is, a =>
    match carrierStep c x i a with
    | some b => carrierLoop c x is b
    | none => none

/-- The soft-bit array: `K` real-part bits, then `K` imaginary-part bits (rule R226). -/
def CarrierAcc.bits (a : CarrierAcc) : List SoftVal := a.reBits ++ a.imBits

/-- The record of position `p` (rules R133, R228): fast channel for `p ≤ N_FIC`, else service channel. -/
def blockRecord (c : Config) (p : Nat) (bits : List SoftVal) : Record :=
  if p ≤ c.nFic then .fic bits (BitVec.ofNat 16 p) else .msc bits (BitVec.ofNat 16 p)

/-- Step 2 over all `K` carriers from the state's reference and constellation buffer (rule R220). -/
def demodulate (x : Vec) (s : State) : Option CarrierAcc :=
  carrierLoop s.cfg x (List.range s.cfg.k) ⟨s.ref, [], [], s.cbuf⟩

/-- What the loop made, written to the state, and the record of the position (rule R220, steps 1 to 3). -/
def dataApply (x : Vec) (a : CarrierAcc) (s : State) : State :=
  emit (blockRecord s.cfg s.curblk a.bits) { writeWork x s with ref := a.ref, cbuf := a.cbuf }

/-- `DataProcess(P, p)` for the transformed symbol `x`. -/
def dataProcessed (x : Vec) (s : State) : Option State :=
  match demodulate x s with
  | some a => some (dataApply x a s)
  | none => none

/-- `DataProcess(P, p)` with `work` holding `w` and `p = curblk` (rule R220). `none` where a reference that is not valid is read;
the caller then stops the worker (rules R44, R255). -/
def dataProcess (w : Vec) (s : State) : Option State := dataProcessed (transform s.cfg .fwd w) s

end Sys2Proof.Machine
end

