-- ==== Sys2Proof/Machine/PhaseReference.lean ====
section
/-! DEFINITION. Phase-reference processing and the spectral SNR estimator (rules R190 to R203). -/

namespace Sys2Proof.Machine

/-- The integer range `[a, b)` (rule R10), empty when `b ≤ a`. -/
def natRange (a b : Nat) : List Nat := (List.range (b - a)).map (· + a)

/-- `c = N div 2` (rule R195). -/
def centre (c : Config) : Nat := c.tU / 2

/-- `low = c − (K div 2)` (rule R195). -/
def bandLow (c : Config) : Nat := centre c - c.k / 2

/-- `high = low + K` (rule R195). -/
def bandHigh (c : Config) : Nat := bandLow c + c.k

/-- `β(j) = (j + c) mod N` (rule R195). -/
def centredBin (c : Config) (j : Nat) : Nat := (j + centre c) % c.tU

/-- `J_noise` (rule R195). -/
def noiseSet (c : Config) : List Nat :=
  natRange c.snrMWrap (bandLow c - c.snrMEdge) ++ natRange (bandHigh c + c.snrMEdge) (c.tU - c.snrMWrap)

/-- `J_signal` (rule R195). -/
def signalSet (c : Config) : List Nat := natRange (centre c - c.k / 4) (centre c + c.k / 4)

/-- `|z|`: the modulus (rule R10). -/
def modulus (z : Cplx) : Num := .sqrt (.add (.mul z.re z.re) (.mul z.im z.im))

/-- The bins of `X` that an index set names. -/
def binsAt (c : Config) (js : List Nat) (x : Vec) : Vec := js.map (fun j => x.getD (centredBin c j) Cplx.zero)

/-- The mean modulus over a list of bins, 0 when it is empty (rule R196). -/
def meanModulus (c : Config) (zs : Vec) : Num :=
  if zs.isEmpty then .lit 0#32
  else match c.numerics with
    | .real => .mul (.rat (1 / zs.length)) (Num.sum (zs.map modulus))
    | .binary32 => .lit (Config.f32MeanModulus (zs.map Cplx.bits))
    | .format f => .code f (Config.fmtMeanModulus f zs)

/-- `dB(x) = 20 · log10(x + DB_OFFSET)` (rule R199). -/
def decibel (c : Config) (x : Num) : Num :=
  match c.numerics with
  | .real => .mul (.rat 20) (.log10 (.add x (.rat c.dbOffset)))
  | .binary32 => .lit (Config.f32Db c.dbOffset x.bits)
  | .format f => .code f (Config.fmtDb f c.dbOffset x)

/-- The difference of two decibel values (rule R196). -/
def decibelDiff (c : Config) (a b : Num) : Num :=
  match c.numerics with
  | .real => .sub a b
  | .binary32 => .lit (Config.f32Sub a.bits b.bits)
  | .format f => .code f (Config.fmtSub f a b)

/-- `SNR_INST_QUANT` (rule R196). In binary32 the sign of a zero and the `trunc` of a pattern that is not finite are free values (log entry
33). -/
def quantise (c : Config) (x : Num) : Num :=
  match c.snrInstQuant with
  | .none => x
  | .truncInt => match c.numerics with
    | .real => .trunc x
    | .binary32 => .lit (f32TruncToPattern x.bits)
    | .format f => .code f (Config.fmtTrunc f x)

/-- `SnrInstant(X)` (rule R196). -/
def snrInstant (c : Config) (x : Vec) : Num :=
  quantise c (decibelDiff c (decibel c (meanModulus c (binsAt c (signalSet c) x)))
    (decibel c (meanModulus c (binsAt c (noiseSet c) x))))

/-- `0.7 · snr + 0.3 · inst` (rule R197); in binary32 the constants are 0x3F333333 and 0x3E99999A (I6). -/
def smooth (c : Config) (old inst : Num) : Num :=
  match c.numerics with
  | .real => .add (.mul (.rat (7 / 10)) old) (.mul (.rat (3 / 10)) inst)
  | .binary32 => .lit (Config.f32MulAdd 0x3F333333#32 old.bits 0x3E99999A#32 inst.bits)
  | .format f => .code f (Config.fmtSmooth f old inst)

/-- The transformed reference symbol holds NaN or infinity, now or in an earlier update (I4). -/
def snrOpen (s : State) (x : Vec) : Bool := s.snrFree || !x.all Cplx.finite

/-- The new `snr` (rule R197), or a free value where I4 leaves it open (log entry 7). -/
def smoothSnr (x : Vec) (s : State) : State :=
  if snrOpen s x then
    { s with snr := .lit (Config.freeSnr s.freeCtr), freeCtr := s.freeCtr + 1, snrFree := true }
  else { s with snr := smooth s.cfg s.snr (snrInstant s.cfg x) }

/-- `SNR_PERIOD` (rule R8). -/
def snrPeriod : BitVec 4 := 10#4

/-- The report cadence (rule R198): count, and on the 10th update report and reset the count. -/
def reportSnr (s : State) : State :=
  if s.snrCnt + 1#4 = snrPeriod then { emit (.snr s.snr) s with snrCnt := 0#4 }
  else { s with snrCnt := s.snrCnt + 1#4 }

/-- `SnrUpdate` for a transformed symbol (rules R197, R198). -/
def snrUpdate (x : Vec) (s : State) : State := reportSnr (smoothSnr x s)

/-- `ref[k] <- work[k]; ref_valid[k] <- 1` for every bin (rule R190, step 4). -/
def storeReference (x : Vec) (s : State) : State := { s with ref := x.map some }

/-- Steps 2 to 4 of rule R190 for the transformed symbol `x`. -/
def prsApply (x : Vec) (s : State) : State := storeReference x (snrUpdate x (writeWork x s))

/-- `PrsProcess()` with `work` holding `w` (rule R190). -/
def prsProcess (w : Vec) (s : State) : State := prsApply (transform s.cfg .fwd w) s

end Sys2Proof.Machine
end

