-- ==== Sys2Proof/Machine/Worker.lean ====
section
/-! DEFINITION. The worker's atomic steps: dequeue, process with its retire, exit (rules R130 to R139). -/

namespace Sys2Proof.Machine

/-- Dequeue (rule R132): copy `slot[curblk]` into `work`, or stop on an unwritten slot. -/
def workerDequeue (s : State) : State :=
  match readSlot s s.curblk with
  | some v => { writeWork v s with wphase := .run }
  | none => uninitStop s

/-- Flush (rule R135). -/
def flush (s : State) : State := { emit (.const s.cbuf) s with cbuf := [] }

/-- The position after `p` (rules R24, R134). -/
def nextPosition (c : Config) (p : Nat) : Nat := (p + 1) % c.l

/-- The counters of the retire (rule R134). -/
def retireCounters (s : State) : State :=
  { s with pending := s.pending - 1#32, curblk := nextPosition s.cfg s.curblk }

/-- The flush of the retire, taken at a wrap (rules R134, R135). -/
def flushAtWrap (s : State) : State := if s.curblk = 0 then flush s else s

/-- Retire (rule R134). -/
def retire (s : State) : State := { flushAtWrap (retireCounters s) with wphase := .wait }

/-- Process (rule R133): dispatch by position alone, then retire. A data position that would read a reference that is not valid
takes the UNINIT_READ entry instead, with no other effect (rules R44, R255; log entry 10). -/
def workerProcess (s : State) : Host.Outcome State Fault Refusal :=
  match s.work with
  | none => .fault .workUnwritten
  | some w =>
    if s.curblk = 0 then .next (retire (prsProcess w s))
    else match dataProcess w s with
      | some t => .next (retire t)
      | none => .next (uninitStop s)

/-- Exit (rule R136). -/
def workerExit (s : State) : State := { s with wphase := .exited }

end Sys2Proof.Machine
end

