-- ==== Sys2Proof/Machine/Agents.lean ====
section
/-! DEFINITION. The agents and their interleaving (rules R66, R70, R130, R137, R264): which moves are enabled, which one is taken, and what
it does. Step.lean only calls what stands here. -/

namespace Sys2Proof.Machine

/-- A move of one agent: a host's next request, or a step of the worker. -/
inductive Move where
  | host (h : Nat)
  | dequeue
  | process
  | exit
deriving DecidableEq, Repr

/-- The condition of `release`: the stop was requested and the join has succeeded (rule R284). -/
def releaseReady (s : State) : Bool := !s.running && joined s

/-- A host can move when it has a request; a `release` waits for the join (rule R284; log entry 14). -/
def hostReady (s : State) : List HostReq → Bool
  | [] => false
  | .cmd _ :: _ => true
  | .pollJoin :: _ => true
  | .release :: _ => releaseReady s

/-- The hosts' enabled moves, in host order. -/
def hostMoves (s : State) : List Move :=
  ((List.range s.hosts.length).filter (fun h => hostReady s (s.hosts.getD h []))).map .host

/-- Dequeue is enabled (rule R132). -/
def dequeueEnabled (s : State) : Bool := decide (s.wphase = .wait ∧ s.pending ≠ 0#32)

/-- Process is enabled (rule R133). -/
def processEnabled (s : State) : Bool := decide (s.wphase = .run)

/-- Exit is enabled (rule R136). -/
def exitEnabled (s : State) : Bool := decide (s.wphase = .wait ∧ s.running = false)

/-- A one-move list when a condition holds. -/
def movesIf (b : Bool) (m : Move) : List Move := if b then [m] else []

/-- The worker's enabled moves (rules R130 to R139). -/
def workerMoves (s : State) : List Move :=
  movesIf (dequeueEnabled s) .dequeue ++ movesIf (processEnabled s) .process ++ movesIf (exitEnabled s) .exit

/-- Every enabled move. -/
def enabledMoves (s : State) : List Move := hostMoves s ++ workerMoves s

/-- The move a choice number names. -/
def chosen (m : Move) (ms : List Move) (n : Nat) : Move := (m :: ms).getD (n % (ms.length + 1)) m

/-- The move taken, and the state after the choice is drawn. No choice is drawn where at most one move is enabled; else it is the head
of `choices`, or a free value when that list is empty (rules R70, R137; log entry 1). -/
def pick (s : State) : Option Move × State :=
  match enabledMoves s with
  | [] => (none, s)
  | [m] => (some m, s)
  | m :: ms =>
    match s.choices with
    | n :: ns => (some (chosen m ms n), { s with choices := ns })
    | [] => (some (chosen m ms (Config.freeChoice s.freeCtr)), { s with freeCtr := s.freeCtr + 1 })

/-- Take host `h`'s request off its list and put its payload on the interface (rule R80). -/
def accept (h : Nat) (rest : List HostReq) (payload : List Byte) (s : State) : State :=
  { s with hosts := s.hosts.set h rest, port := ⟨h, payload⟩ }

/-- A command transaction (rules R80, R82, R251): a legal word runs its command; an illegal word sets ILLEGAL_CMD, its payload is
discarded and it gets no response. -/
def runCommand (h : Nat) (bytes : List Byte) (rest : List HostReq) (s : State) : Host.Outcome State Fault Refusal :=
  match decode bytes with
  | .ok (i, payload) => exec i (accept h rest payload s)
  | .error .truncated => .refused .truncatedWord
  | .error (.undefinedOpcode _) => .next (raiseFault .illegalCmd (accept h rest [] s))
  | .error .reservedNonzero => .next (raiseFault .illegalCmd (accept h rest [] s))
  | .error .argNonzero => .next (raiseFault .illegalCmd (accept h rest [] s))

/-- One round of the join loop: read STATUS; the request stays until the join succeeds (rule R284). -/
def runPoll (h : Nat) (rest : List HostReq) (s : State) : Host.Outcome State Fault Refusal :=
  exec (.readCsr (csrNumber .status)) (accept h (if joined s then rest else .pollJoin :: rest) [] s)

/-- A host's move: its first request. -/
def runHost (h : Nat) (s : State) : Host.Outcome State Fault Refusal :=
  match s.hosts.getD h [] with
  | [] => .next s
  | .cmd bytes :: rest => runCommand h bytes rest s
  | .pollJoin :: rest => runPoll h rest s
  | .release :: rest => .next { accept h rest [] s with released := true }

/-- What a move does (rules R70, R130). -/
def runMove (m : Move) (s : State) : Host.Outcome State Fault Refusal :=
  match m with
  | .host h => runHost h s
  | .dequeue => .next (workerDequeue s)
  | .process => workerProcess s
  | .exit => .next (workerExit s)

/-- One atomic step of one agent. With no enabled move the machine waits and the step changes nothing (rule R131; log entry 3). After
release there is no step (rule R284). -/
def stepState (s : State) : Host.Outcome State Fault Refusal :=
  if s.released then .refused .released
  else match pick s with
    | (none, t) => .next t
    | (some m, t) => runMove m t

/-- Zero payload of the length the decoded command takes (rule R85). -/
def zeroPayload (c : Config) (bytes : List Byte) : List Byte :=
  match decode bytes with
  | .ok (i, _) => List.replicate (8 * nPayload c i) 0#8
  | .error _ => []

/-- Host 0's requests with one more in front. -/
def hostsWith (r : HostReq) : List (List HostReq) → List (List HostReq)
  | [] => [[r]]
  | q :: qs => (r :: q) :: qs

/-- The next choice falls on host 0, the first of the enabled moves, where there is a choice at all. -/
def chooseFirst (s : State) : State :=
  match enabledMoves s with
  | [] => s
  | [_] => s
  | _ => { s with choices := 0 :: s.choices }

/-- Place a transaction as host 0's next request, so that the very next step runs it (log entry 2). -/
def placeWord (s : State) (nbits w : Nat) : State :=
  let bytes := tableBytes nbits w
  chooseFirst { s with hosts := hostsWith (.cmd (bytes ++ zeroPayload s.cfg bytes)) s.hosts }

end Sys2Proof.Machine
end

