-- ==== Sys2Proof/Machine/Assembler.lean ====
section
/-! DEFINITION. The assembler of rules R89 and R90: the requests an assembly line stands for, and the reading of a line of text. It
belongs to the host; the core sees only its result. -/

namespace Sys2Proof.Machine

/-- A command as a transaction on the wire, where the command word can hold its operand (rule R89). -/
def assembleInstr (i : Instr) (buf : List Byte) : Option (List HostReq) :=
  if i.wellFormed then some [.cmd (encodeBytes i buf)] else none

/-- The expansion of `INGEST idx, @buf` (rule R90). -/
def expandIngest (c : Config) (idx : Nat) (buf : List Byte) : Option (List HostReq) :=
  if idx = 0 then assembleInstr .ingestPrs buf
  else if idx ≤ c.nFic then assembleInstr (.ingestFic idx) buf
  else assembleInstr (.ingestMsc idx) buf

/-- `INGEST p, @bp` for successive positions from `p` on (rule R90). -/
def expandFrom (c : Config) : Nat → List (List Byte) → Option (List HostReq)
  | _, [] => some []
  | p, b :: bs =>
    match expandIngest c p b, expandFrom c (p + 1) bs with
    | some r, some rs => some (r ++ rs)
    | _, _ => none

/-- The requests an assembly line stands for; `none` where the assembler refuses it (rules R89, R90, R284). -/
def assemble (c : Config) : Asm → Option (List HostReq)
  | .ingestPrs buf => assembleInstr .ingestPrs buf
  | .ingestFic idx buf => assembleInstr (.ingestFic idx) buf
  | .ingestMsc idx buf => assembleInstr (.ingestMsc idx) buf
  | .stop => assembleInstr .stop []
  | .readCsr n => assembleInstr (.readCsr n) []
  | .readCsrName r => assembleInstr (.readCsr (csrNumber r)) []
  | .xform d buf => assembleInstr (.xform d) buf
  | .word w buf => some [.cmd (leBytes w ++ buf)]
  | .ingest idx buf => expandIngest c idx buf
  | .frame bufs => if bufs.length = c.l then expandFrom c 0 bufs else none
  | .teardown => some [.cmd (encodeBytes .stop []), .pollJoin, .release]
  | .fft buf => assembleInstr (.xform .fwd) buf
  | .ifft buf => assembleInstr (.xform .inv) buf

/-- The CSR names of rule R38. -/
def csrNames : List (String × Csr) :=
  [("CFG_TU", .cfgTu), ("CFG_TG", .cfgTg), ("CFG_K", .cfgK), ("CFG_L", .cfgL), ("CFG_NFIC", .cfgNfic),
   ("CFG_DECIM", .cfgDecim), ("CFG_MODE", .cfgMode), ("STATUS", .status), ("PENDING", .pending),
   ("CURBLK", .curblk), ("SNR", .snr), ("SNR_CNT", .snrCnt), ("CONST_LEN", .constLen), ("FAULT", .fault)]

/-- A token of an assembly line. -/
abbrev Token := List Char

/-- Spaces, tabs and commas separate tokens (rule R89). -/
def isSeparator (ch : Char) : Bool := ch == ' ' || ch == '\t' || ch == ','

/-- Split characters into tokens; `cur` is the token being read. -/
def tokensFrom (cur : Token) : List Char → List Token
  | [] => if cur.isEmpty then [] else [cur]
  | ch :: cs =>
    if isSeparator ch then (if cur.isEmpty then tokensFrom [] cs else cur :: tokensFrom [] cs)
    else tokensFrom (cur ++ [ch]) cs

/-- The tokens of a line; a comment starts with `;` (rule R89). -/
def lineTokens (line : List Char) : List Token := tokensFrom [] (line.takeWhile (fun ch => ch != ';'))

/-- Mnemonics are case-insensitive (rule R89). -/
def upperToken (t : Token) : Token := t.map Char.toUpper

/-- The value of a digit in a base. -/
def digitValue (base : Nat) (ch : Char) : Option Nat :=
  let u := ch.toUpper.toNat
  let v := if 48 ≤ u ∧ u ≤ 57 then u - 48 else if 65 ≤ u ∧ u ≤ 70 then u - 55 else 16
  if v < base then some v else none

/-- Digits read from the left. -/
def digitsFrom (base : Nat) (acc : Nat) : Token → Option Nat
  | [] => some acc
  | ch :: cs =>
    match digitValue base ch with
    | some v => digitsFrom base (acc * base + v) cs
    | none => none

/-- A decimal or `0x`-hex number (rule R89). DESIGN CHOICE (safe: the host's text): the prefix may be `0X`, hex digits may be of either case, and
any count of digits is read; log entry 31. -/
def parseNumber : Token → Option Nat
  | [] => none
  | '0' :: 'x' :: ch :: ds => digitsFrom 16 0 (ch :: ds)
  | '0' :: 'X' :: ch :: ds => digitsFrom 16 0 (ch :: ds)
  | ds => digitsFrom 10 0 ds

/-- Find a token among named values. -/
def lookupToken {α : Type} (t : Token) : List (String × α) → Option α
  | [] => none
  | (n, a) :: rest => if n.toList = t then some a else lookupToken t rest

/-- `@buf` names a host-side sample array (rule R89). -/
def parseBuffer (env : List (String × List Byte)) : Token → Option (List Byte)
  | '@' :: name => lookupToken name env
  | _ => none

/-- Several `@buf` operands. -/
def parseBuffers (env : List (String × List Byte)) : List Token → Option (List (List Byte))
  | [] => some []
  | t :: ts =>
    match parseBuffer env t, parseBuffers env ts with
    | some b, some bs => some (b :: bs)
    | _, _ => none

/-- The shape of a mnemonic's operands. -/
inductive AsmOp where
  | ingestPrs | ingestFic | ingestMsc | stop | readCsr | xform | word
  | ingest | frame | teardown | fft | ifft
deriving DecidableEq, Repr

/-- The mnemonics of rules R89 and R90. -/
def asmOps : List (String × AsmOp) :=
  [("INGEST_PRS", .ingestPrs), ("INGEST_FIC", .ingestFic), ("INGEST_MSC", .ingestMsc), ("STOP", .stop),
   ("READ_CSR", .readCsr), ("XFORM", .xform), (".WORD", .word), ("INGEST", .ingest), ("FRAME", .frame),
   ("TEARDOWN", .teardown), ("FFT", .fft), ("IFFT", .ifft)]

/-- `FWD` or `INV` (rule R89). -/
def parseDir (t : Token) : Option Dir :=
  lookupToken (upperToken t) [("FWD", Dir.fwd), ("INV", Dir.inv)]

/-- A CSR name or number (rule R89). -/
def parseCsr (t : Token) : Option Asm :=
  match lookupToken (upperToken t) csrNames with
  | some c => some (.readCsrName c)
  | none => (parseNumber t).map .readCsr

/-- An index and a buffer. -/
def parseIndexed (env : List (String × List Byte)) (mk : Nat → List Byte → Asm) : List Token → Option Asm
  | [i, b] =>
    match parseNumber i, parseBuffer env b with
    | some n, some p => some (mk n p)
    | _, _ => none
  | _ => none

/-- One buffer. -/
def parseOne (env : List (String × List Byte)) (mk : List Byte → Asm) : List Token → Option Asm
  | [b] => (parseBuffer env b).map mk
  | _ => none

/-- A raw word, `.word 0xHHHHHHHH` (rule R89). DESIGN CHOICE (safe: the host's text): any number below `2^32` in a form `parseNumber` reads is taken,
with any count of digits, and a payload may follow; log entry 31. -/
def parseWordOp (env : List (String × List Byte)) : List Token → Option Asm
  | [w] => (parseNumber w).bind (fun n => if n < 2 ^ 32 then some (.word (BitVec.ofNat 32 n) []) else none)
  | [w, b] =>
    match parseNumber w, parseBuffer env b with
    | some n, some p => if n < 2 ^ 32 then some (.word (BitVec.ofNat 32 n) p) else none
    | _, _ => none
  | _ => none

/-- The operands of a mnemonic (rules R89, R90). -/
def parseOperands (env : List (String × List Byte)) (op : AsmOp) (ts : List Token) : Option Asm :=
  match op with
  | .ingestPrs => parseOne env .ingestPrs ts
  | .ingestFic => parseIndexed env .ingestFic ts
  | .ingestMsc => parseIndexed env .ingestMsc ts
  | .stop => if ts.isEmpty then some .stop else none
  | .readCsr => match ts with
    | [t] => parseCsr t
    | _ => none
  | .xform => match ts with
    | [d, b] => (parseDir d).bind (fun d => (parseBuffer env b).map (.xform d))
    | _ => none
  | .word => parseWordOp env ts
  | .ingest => parseIndexed env .ingest ts
  | .frame => (parseBuffers env ts).map .frame
  | .teardown => if ts.isEmpty then some .teardown else none
  | .fft => parseOne env .fft ts
  | .ifft => parseOne env .ifft ts

/-- One line of assembly text: no command on a blank or comment line, `none` on a line that is no assembly (rules R89, R90). -/
def parseLine (env : List (String × List Byte)) (line : List Char) : Option (List Asm) :=
  match lineTokens line with
  | [] => some []
  | m :: ts =>
    match lookupToken (upperToken m) asmOps with
    | some op => (parseOperands env op ts).map (fun a => [a])
    | none => none

/-- The requests of one line of assembly text. -/
def assembleLine (c : Config) (env : List (String × List Byte)) (line : List Char) : Option (List HostReq) :=
  match parseLine env line with
  | some [] => some []
  | some (a :: _) => assemble c a
  | none => none

end Sys2Proof.Machine
end

