-- ==== Sys2Proof/Machine/Wire.lean ====
section
/-! DEFINITION. The wire forms of output records and responses, little-endian (rules R61, R62, R86, R91).

A number that is not held as a pattern goes out as the binary32 nearest to it, ties to even (log entry 18). -/

namespace Sys2Proof.Machine

/-- One field of a wire form. -/
inductive WireField where
  /-- One byte. -/
  | byte (b : Byte)
  /-- A soft bit: one byte holding an `int8` (rule R61). -/
  | soft (v : SoftVal)
  /-- A 32-bit word: four bytes, little-endian (rule R62). -/
  | word (w : Word32)
deriving DecidableEq, Repr

/-- The bytes of a field. -/
noncomputable def WireField.bytes : WireField → List Byte
  | .byte b => [b]
  | .soft v => [BitVec.ofInt 8 v.value]
  | .word w => leBytes w.value

/-- A sample: two binary32 halves, the real part first (rule R61). -/
def sampleFields (z : Cplx) : List WireField := [.word z.re.word, .word z.im.word]

/-- `pos` as two bytes, little-endian (rule R91). -/
def posFields (pos : BitVec 16) : List WireField :=
  [.byte (pos.extractLsb' 0 8), .byte (pos.extractLsb' 8 8)]

/-- The wire form of a record (rule R91). -/
def recordFields : Record → List WireField
  | .fic bits pos => posFields pos ++ bits.map .soft
  | .msc bits pos => posFields pos ++ bits.map .soft
  | .snr v => [.word v.word]
  | .const zs => .word (.bits (BitVec.ofNat 32 zs.length)) :: zs.flatMap sampleFields

/-- The wire form of a response (rules R61, R62, R86). -/
def responseFields : Response → List WireField
  | .word w => [.word w]
  | .samples v => v.flatMap sampleFields

/-- The bytes of a record on its port (rule R91). -/
noncomputable def recordBytes (r : Record) : List Byte := (recordFields r).flatMap WireField.bytes

/-- The bytes of a response (rule R86). -/
noncomputable def responseBytes (r : Response) : List Byte := (responseFields r).flatMap WireField.bytes

end Sys2Proof.Machine
end

