-- ==== Sys2Proof/Safety.lean ====
section
/-! DEFINITION. What claims about runs are stated in: a good state (rule R257), the invariants of the machine, what the outside may supply
between steps, fairness (rule R138) and the coherence that the ingress contract gives (rules R108, R294). -/

namespace Sys2Proof.Machine

/-- No fault bit is set: the premise of every claim about a run (rule R257). -/
def State.clean (s : State) : Prop := s.fault = 0#6

/-- Every stored vector of an entry has the transform length. -/
def entryWf (n : Nat) : Option Vec → Bool
  | some v => decide (v.length = n)
  | none => true

/-- The canonical form of the storage spaces (rule R60): `L` slots of `T_u` samples, `T_u` reference entries. -/
def storageWf (s : State) : Bool :=
  decide (s.slots.length = s.cfg.l) && s.slots.all (entryWf s.cfg.tU) && decide (s.ref.length = s.cfg.tU)

/-- `ceil(K / CONST_DECIM)` (rule R227). -/
def tapsPerSymbol (c : Config) : Nat := (c.k + c.constDecim - 1) / c.constDecim

/-- The structural invariant of the machine. -/
structure State.Inv (s : State) : Prop where
  /-- The configuration passed the check of reset (rules R9, R280). -/
  cfgLegal : configLegal s.cfg = true
  /-- The storage spaces have their sizes (rules R21, R26). -/
  storage : storageWf s = true
  /-- `curblk ∈ [0, L)` (rule R24). -/
  position : s.curblk < s.cfg.l
  /-- `snr_cnt ∈ [0, 10)` (rule R29). -/
  count : s.snrCnt.toNat < 10
  /-- In phase `RUN` the working buffer holds a vector (rules R31, R132). -/
  working : s.wphase = .run → ∃ w, s.work = some w ∧ w.length = s.cfg.tU
  /-- In phase `RUN` a symbol is pending (rule R134). -/
  inFlight : s.wphase = .run → s.pending ≠ 0#32
  /-- Past position 0 every reference entry is valid (rules R44, R190). -/
  reference : s.curblk ≠ 0 → ∀ k, k < s.cfg.tU → (readRef s.ref k).isSome = true
  /-- The constellation buffer holds the taps of the frame's data positions so far (rules R27, R227). -/
  taps : s.cbuf.length = (s.curblk - 1) * tapsPerSymbol s.cfg
  /-- The worker exits only after a stop request (rule R136). -/
  stopped : s.wphase = .exited → s.running = false
  /-- There are `N_HOST` host agents (rules R8, R264). -/
  agents : s.hosts.length = s.cfg.nHost

/-- Every number a vector holds is held in the arithmetic `k`. -/
def vecHeld (k : Numerics) (v : Vec) : Bool := v.all (Cplx.heldIn k)

/-- An entry that holds only numbers of the arithmetic `k`. -/
def entryHeld (k : Numerics) : Option Vec → Bool
  | some v => vecHeld k v
  | none => true

/-- A reference entry that holds only numbers of the arithmetic `k`. -/
def refHeld (k : Numerics) : Option Cplx → Bool
  | some z => z.heldIn k
  | none => true

/-- Every number held in the state is held in `cfg.NUMERICS` (rules R13, R21, R28). -/
structure State.Held (s : State) : Prop where
  slots : s.slots.all (entryHeld s.cfg.numerics) = true
  work : entryHeld s.cfg.numerics s.work = true
  ref : s.ref.all (refHeld s.cfg.numerics) = true
  cbuf : vecHeld s.cfg.numerics s.cbuf = true
  snr : s.snr.heldIn s.cfg.numerics = true

/-- Request lists for exactly `n` hosts: a host that is given none has no request, and a list beyond the last host is no host's. -/
def hostLists (n : Nat) (hosts : List (List HostReq)) : List (List HostReq) := (List.range n).map (fun h => hosts.getD h [])

/-- What the outside may change between two steps: the requests its `N_HOST` hosts still have to issue (rules R8, R264), and how choices
fall. -/
def State.supply (s : State) (hosts : List (List HostReq)) (choices : List Nat) : State :=
  { s with hosts := hostLists s.cfg.nHost hosts, choices := choices }

/-- A state some run from a legal reset reaches, whatever the hosts request and however the choices fall. -/
inductive Reachable : State → Prop where
  | reset (c : Config) (s : State) : State.resetWith c = some s → Reachable s
  | step (s t : State) (hosts : List (List HostReq)) (choices : List Nat) :
      Reachable s → Sys2Proof.Machine.step (s.supply hosts choices) = .next t → Reachable t

/-- An infinite execution with what the outside supplies before each step. -/
structure Execution where
  st : Nat → State
  hosts : Nat → List (List HostReq)
  choices : Nat → List Nat

/-- The state step `n` of an execution starts from. -/
def Execution.before (e : Execution) (n : Nat) : State := (e.st n).supply (e.hosts n) (e.choices n)

/-- Each state follows from the one before by one step. -/
def Execution.Valid (e : Execution) : Prop := ∀ n, step (e.before n) = .next (e.st (n + 1))

/-- The move taken at step `n`. -/
def Execution.taken (e : Execution) (n : Nat) : Option Move := (pick (e.before n)).1

/-- The fairness of rule R138: process weakly fair; dequeue continuously enabled leads to a dequeue or an exit; exit strongly fair. -/
structure Execution.Fair (e : Execution) : Prop where
  process : ∀ n, (∀ m, n ≤ m → processEnabled (e.before m) = true) → ∃ m, n ≤ m ∧ e.taken m = some .process
  dequeue : ∀ n, (∀ m, n ≤ m → dequeueEnabled (e.before m) = true) →
    ∃ m, n ≤ m ∧ (e.taken m = some .dequeue ∨ e.taken m = some .exit)
  exit : (∀ n, ∃ m, n ≤ m ∧ exitEnabled (e.before m) = true) → ∀ n, ∃ m, n ≤ m ∧ e.taken m = some .exit

/-- The differential product of carrier `i` from a transformed symbol and a reference (rules R171, R222). -/
def carrierProduct (c : Config) (x : Vec) (ref : List (Option Cplx)) (i : Nat) : Cplx :=
  match carrierBin c i with
  | some k => diffProduct c (x.getD k Cplx.zero) ((readRef ref k).getD Cplx.zero)
  | none => Cplx.zero

/-- The soft-bit array of a data symbol (rules R225, R226): `K` real-part bits, then `K` imaginary-part bits. -/
def blockBits (c : Config) (x : Vec) (ref : List (Option Cplx)) : List SoftVal :=
  (List.range c.k).map (fun i => (softBits c (carrierProduct c x ref i)).1) ++
  (List.range c.k).map (fun i => (softBits c (carrierProduct c x ref i)).2)

/-- The samples a data symbol appends to the constellation buffer (rule R227). -/
def blockTaps (c : Config) (x : Vec) (ref : List (Option Cplx)) : Vec :=
  ((List.range c.k).filter (fun i => decide (i % c.constDecim = 0))).map (carrierProduct c x ref)

/-- The mean modulus over an index set, as a real number; 0 over an empty set (rule R196). -/
noncomputable def meanModulusVal (c : Config) (js : List Nat) (x : Vec) : ℝ :=
  (js.map (fun j => ‖(x.getD (centredBin c j) Cplx.zero).val‖)).sum / js.length

/-- The instantaneous SNR of rules R196 and R199 before quantisation, as a real number. -/
noncomputable def snrInstantVal (c : Config) (x : Vec) : ℝ :=
  20 * Real.logb 10 (meanModulusVal c (signalSet c) x + c.dbOffset) -
  20 * Real.logb 10 (meanModulusVal c (noiseSet c) x + c.dbOffset)

/-- The sign of the exponent of a transform as a complex number: `FFT_SIGN` forward, its opposite inverse (rules R160, R161). -/
noncomputable def exponentSignVal (c : Config) (d : Dir) : ℂ :=
  match d, c.fftSign with
  | .fwd, .minus => -1
  | .fwd, .plus => 1
  | .inv, .minus => 1
  | .inv, .plus => -1

/-- `s_f` and `s_i` as complex numbers (rules R160, R161). -/
noncomputable def scaleVal (c : Config) (d : Dir) : ℂ :=
  match c.fftNorm, d with
  | .none, _ => 1
  | .invN, .fwd => 1
  | .invN, .inv => 1 / c.tU
  | .unitary, _ => 1 / (Real.sqrt c.tU : ℝ)

/-- The sum of rules R160 and R161 over the reals. -/
noncomputable def transformVal (c : Config) (d : Dir) (x : Vec) (k : Nat) : ℂ :=
  scaleVal c d * ∑ n ∈ Finset.range c.tU,
    (x.getD n Cplx.zero).val * Complex.exp (exponentSignVal c d * Complex.I * (2 * Real.pi * k * n / c.tU))

/-- One while a dequeued symbol is not retired (rule R33). -/
def inFlightCount (s : State) : Nat := if s.wphase = .run then 1 else 0

/-- What the ingress contract keeps true (rules R108, R294): `h` is the list of vectors ingested so far and `d` the number of dequeues. The
vectors not yet retired are still in their slots, the position is that of the next retire, and the in-flight copy is the last vector dequeued. -/
structure Coherent (s : State) (h : List Vec) (d : Nat) : Prop where
  inFlight : inFlightCount s ≤ d
  counts : h.length = (d - inFlightCount s) + s.pending.toNat
  position : s.curblk = (d - inFlightCount s) % s.cfg.l
  capacity : s.pending.toNat ≤ s.cfg.l
  slots : ∀ j, d - inFlightCount s ≤ j → j < h.length → readSlot s (j % s.cfg.l) = h[j]?
  copy : s.wphase = .run → s.work = h[d - 1]?
  alive : s.wphase = .wait ∨ s.wphase = .run

/-- The frame-position order of the ingress contract (rule R108): the `n`-th ingress, counting from 0, is `INGEST_PRS` at position 0 and a data
ingress with its own position elsewhere. -/
def contractInstr (c : Config) (n : Nat) : Instr :=
  if n % c.l = 0 then .ingestPrs
  else if n % c.l ≤ c.nFic then .ingestFic (n % c.l) else .ingestMsc (n % c.l)

end Sys2Proof.Machine
end

