-- ==== Sys2Proof/Certificates/Slice0/Obligations.lean ====
section
/-! DEFINITION. The statements for the provers. Each docstring names the rule of spec/ it formalises. -/

open Sys2Proof Sys2Proof.Machine

/-! ### Encoding -/

/-- The worked encodings of rule R93: each word as the spec writes it, its wire bytes, the three illegal words, and the sample. -/
def Obligations.WorkedEncodingsAreRead : Prop :=
  encode .ingestPrs = 0x01000000#32 ∧ decode [0x00#8, 0x00#8, 0x00#8, 0x01#8] = .ok (.ingestPrs, []) ∧
  encode (.ingestFic 1) = 0x02000001#32 ∧ decode [0x01#8, 0x00#8, 0x00#8, 0x02#8] = .ok (.ingestFic 1, []) ∧
  encode (.ingestFic 3) = 0x02000003#32 ∧ decode [0x03#8, 0x00#8, 0x00#8, 0x02#8] = .ok (.ingestFic 3, []) ∧
  encode (.ingestMsc 2) = 0x03000002#32 ∧ decode [0x02#8, 0x00#8, 0x00#8, 0x03#8] = .ok (.ingestMsc 2, []) ∧
  encode (.ingestMsc 75) = 0x0300004B#32 ∧ decode [0x4B#8, 0x00#8, 0x00#8, 0x03#8] = .ok (.ingestMsc 75, []) ∧
  encode .stop = 0x04000000#32 ∧ decode [0x00#8, 0x00#8, 0x00#8, 0x04#8] = .ok (.stop, []) ∧
  encode (.readCsr (csrNumber .fault)) = 0x05000020#32 ∧
  decode [0x20#8, 0x00#8, 0x00#8, 0x05#8] = .ok (.readCsr (csrNumber .fault), []) ∧
  encode (.readCsr (csrNumber .status)) = 0x05000010#32 ∧
  decode [0x10#8, 0x00#8, 0x00#8, 0x05#8] = .ok (.readCsr (csrNumber .status), []) ∧
  encode (.xform .inv) = 0x06000001#32 ∧ decode [0x01#8, 0x00#8, 0x00#8, 0x06#8] = .ok (.xform .inv, []) ∧
  decode [0x00#8, 0x00#8, 0x00#8, 0x00#8] = .error (.undefinedOpcode 0x00#8) ∧
  decode [0x01#8, 0x00#8, 0x01#8, 0x02#8] = .error .reservedNonzero ∧
  decode [0x02#8, 0x00#8, 0x00#8, 0x06#8] = .error .argNonzero ∧
  samplesOf [0x00#8, 0x00#8, 0x80#8, 0x3F#8, 0x00#8, 0x00#8, 0x80#8, 0xBF#8] =
    [⟨.lit 0x3F800000#32, .lit 0xBF800000#32⟩] ∧
  f32ToRat 0x3F800000#32 = 1 ∧ f32ToRat 0xBF800000#32 = -1

/-- Decoding the wire bytes of a well-formed command gives the command back, with its payload (rules R62, R81, R83, R84). -/
def Obligations.DecodeOfEncodeIsIdentity : Prop :=
  ∀ (i : Instr) (payload : List Byte), i.wellFormed = true → decode (encodeBytes i payload) = .ok (i, payload)

/-- Encoding a decoded command gives the bytes back: no bit of the word is dropped (rules R81, R83, R84). -/
def Obligations.EncodeOfDecodeIsIdentity : Prop :=
  ∀ (bytes : List Byte) (i : Instr) (payload : List Byte), decode bytes = .ok (i, payload) →
    i.wellFormed = true ∧ encodeBytes i payload = bytes

/-- Rule R82: a word is legal exactly when it matches one row of the table, no word matches two rows, and a step that takes an illegal word
sets ILLEGAL_CMD, discards the payload, answers nothing and changes no other state (the request is taken off its host's list). -/
def Obligations.IllegalWordsOnlySetIllegalCmd : Prop :=
  (∀ w : Word, (∃ i, decodeWord w = .ok i) ↔ ∃ r, r ∈ opRows ∧ r.hits w = true) ∧
  (∀ (w : Word) (r q : OpRow), r ∈ opRows → q ∈ opRows → r.hits w = true → q.hits w = true → r = q) ∧
  (∀ (s t : State) (h : Nat) (b0 b1 b2 b3 : Byte) (payload : List Byte) (rest : List HostReq),
    s.released = false → pick s = (some (.host h), t) →
    t.hosts.getD h [] = .cmd (b0 :: b1 :: b2 :: b3 :: payload) :: rest →
    (∀ r, r ∈ opRows → r.hits (leWord b0 b1 b2 b3) = false) →
    step s = .next { t with hosts := t.hosts.set h rest, port := ⟨h, []⟩, fault := t.fault ||| 0x01#6 })

/-- Rule R87: the illegal words are exactly those with an undefined opcode, a nonzero `rsv`, a nonzero `arg` on `INGEST_PRS` or `STOP`, or a
nonzero `arg[15:1]` on `XFORM`. -/
def Obligations.IllegalWordsAreExactlyThese : Prop :=
  ∀ w : Word, (∃ e, decodeWord w = .error e) ↔
    (opField w = 0x00#8 ∨ 0x07#8 ≤ opField w ∨ rsvField w ≠ 0#8 ∨
      ((opField w = 0x01#8 ∨ opField w = 0x04#8) ∧ argField w ≠ 0#16) ∨
      (opField w = 0x06#8 ∧ (argField w).extractLsb' 1 15 ≠ 0#15))

/-! ### The step and the agents -/

/-- A step that picks a host whose first request is a command runs exactly the decoded command, on the state in which the request is taken off
the host's list and its payload stands on the interface (rules R66, R80). -/
def Obligations.StepRunsTheDecodedCommand : Prop :=
  ∀ (s t : State) (h : Nat) (bytes payload : List Byte) (rest : List HostReq) (i : Instr),
    s.released = false → pick s = (some (.host h), t) → t.hosts.getD h [] = .cmd bytes :: rest →
    decode bytes = .ok (i, payload) →
    step s = exec i { t with hosts := t.hosts.set h rest, port := ⟨h, payload⟩ }

/-- `withFetchWord` makes the very next step run the placed command, whatever else is enabled (log entry 2). -/
def Obligations.FetchWordRunsNext : Prop :=
  ∀ (s : State) (i : Instr), s.released = false → i.wellFormed = true →
    step (s.withFetchWord 32 (encode i).toNat) =
      exec i { s with
        hosts := if s.hosts = [] then [[]] else s.hosts
        port := ⟨0, List.replicate (8 * nPayload s.cfg i) 0#8⟩ }

/-- A step before release answers a next state unless it takes a host's transaction that holds no command word (log entry 13) or the process
step finds `work` unwritten (log entry 9): nothing the spec gives a meaning stops the machine (rules R110, R250, R257). -/
def Obligations.EveryStepCompletes : Prop :=
  ∀ s : State, s.released = false →
    (∀ (h : Nat) (bytes : List Byte) (rest : List HostReq), s.hosts.getD h [] = .cmd bytes :: rest → 4 ≤ bytes.length) →
    (s.wphase = .run → s.work ≠ none) → ∃ t, step s = .next t

/-- Rule R131: in `WAIT` with nothing pending and the core running, the worker has no move; with no request of a host either, a step changes
nothing (log entry 3). -/
def Obligations.BlockedWorkerHasNoMove : Prop :=
  ∀ s : State, s.wphase = .wait → s.pending = 0#32 → s.running = true →
    workerMoves s = [] ∧
    ((∀ q, q ∈ s.hosts → q = []) → s.released = false → step s = .next s)

/-- Rule R137: after `STOP`, in `WAIT` with symbols pending, dequeue and exit are both enabled and either may be taken; a dequeued symbol is
always processed first, because in `RUN` the process step is the worker's only one. -/
def Obligations.DrainAfterStopIsOpen : Prop :=
  (∀ s : State, s.wphase = .wait → s.pending ≠ 0#32 → s.running = false →
    .dequeue ∈ enabledMoves s ∧ .exit ∈ enabledMoves s ∧
    (∃ n, (pick { s with choices := [n] }).1 = some .dequeue) ∧
    (∃ n, (pick { s with choices := [n] }).1 = some .exit)) ∧
  (∀ s : State, s.wphase = .run → workerMoves s = [.process])

/-- Rule R284, `TEARDOWN`: a step that takes a host's join request answers one `READ_CSR STATUS` and changes nothing else, and the request stays the
host's first exactly until `WPHASE` is `EXITED` or `FAULTED` (one round is one step: log entries 14 and 24); the release is taken only after the stop
and the join (log entry 14), and after it every step is refused. -/
def Obligations.ReleaseEndsTheInstance : Prop :=
  (∀ (s t : State) (h : Nat) (rest : List HostReq),
    s.released = false → pick s = (some (.host h), t) → t.hosts.getD h [] = .pollJoin :: rest →
    step s = .next { t with
      hosts := t.hosts.set h (if t.wphase = .exited ∨ t.wphase = .faulted then rest else .pollJoin :: rest)
      port := ⟨h, []⟩
      trace := t.trace ++ [.response h (.word (.bits (statusWord t)))] }) ∧
  (∀ s : State, step s = .refused .released ↔ s.released = true) ∧
  (∀ s t : State, step s = .next t → t.released = true →
    s.running = false ∧ (s.wphase = .exited ∨ s.wphase = .faulted))

/-! ### Commands -/

/-- Rule R101 with the tail of rule R100: the encoding, the length check, the PEND_SAT check, and otherwise slot 0 gets the useful part of the payload,
`pending` is incremented, OVERRUN is set when `pending ≥ L`, and nothing else changes. -/
def Obligations.IngestPrsWritesSlotZero : Prop :=
  encode .ingestPrs = 0x01000000#32 ∧ ∀ s : State,
    (s.port.payload.length ≠ 8 * (if s.cfg.prsMode = .useful then s.cfg.tU else s.cfg.tU + s.cfg.tG) →
      exec .ingestPrs s = .next { s with fault := s.fault ||| 0x02#6 }) ∧
    (s.port.payload.length = 8 * (if s.cfg.prsMode = .useful then s.cfg.tU else s.cfg.tU + s.cfg.tG) →
      s.pending = 0xFFFFFFFF#32 → exec .ingestPrs s = .next { s with fault := s.fault ||| 0x08#6 }) ∧
    (s.port.payload.length = 8 * (if s.cfg.prsMode = .useful then s.cfg.tU else s.cfg.tU + s.cfg.tG) →
      s.pending ≠ 0xFFFFFFFF#32 →
      exec .ingestPrs s = .next { s with
        slots := s.slots.set 0 (some (((samplesOf s.port.payload).drop
          (if s.cfg.prsMode = .useful then 0 else s.cfg.tG)).take s.cfg.tU))
        pending := s.pending + 1#32
        fault := if s.cfg.l ≤ s.pending.toNat then s.fault ||| 0x10#6 else s.fault })

/-- Rules R102, R103 and R104 with the tail of rule R100: the checks in their order, and otherwise slot `idx` gets the samples after the guard
interval, `pending` is incremented, OVERRUN is set when `pending ≥ L`, and nothing else changes. -/
def Obligations.DataIngestWritesItsSlot : Prop :=
  ∀ (s : State) (idx : Nat) (i : Instr), i = .ingestFic idx ∨ i = .ingestMsc idx →
    (s.port.payload.length ≠ 8 * (s.cfg.tU + s.cfg.tG) → exec i s = .next { s with fault := s.fault ||| 0x02#6 }) ∧
    (s.port.payload.length = 8 * (s.cfg.tU + s.cfg.tG) → s.cfg.l ≤ idx →
      exec i s = .next { s with fault := s.fault ||| 0x04#6 }) ∧
    (s.port.payload.length = 8 * (s.cfg.tU + s.cfg.tG) → idx < s.cfg.l → s.pending = 0xFFFFFFFF#32 →
      exec i s = .next { s with fault := s.fault ||| 0x08#6 }) ∧
    (s.port.payload.length = 8 * (s.cfg.tU + s.cfg.tG) → idx < s.cfg.l → s.pending ≠ 0xFFFFFFFF#32 →
      exec i s = .next { s with
        slots := s.slots.set idx (some (((samplesOf s.port.payload).drop s.cfg.tG).take s.cfg.tU))
        pending := s.pending + 1#32
        fault := if s.cfg.l ≤ s.pending.toNat then s.fault ||| 0x10#6 else s.fault })

/-- Rule R105: `STOP` clears `running`, changes nothing else, and a second one changes nothing. The payload is empty, or the configuration does
not check the length (log entry 12). -/
def Obligations.StopClearsRunning : Prop :=
  ∀ s : State, s.port.payload = [] ∨ s.cfg.lengthCheckAll = false →
    exec .stop s = .next { s with running := false } ∧
    exec .stop { s with running := false } = .next { s with running := false }

/-- Rule R106: an assigned CSR answers its contents and changes no state but the trace; an unassigned number answers 0 and sets ILLEGAL_CMD.
The payload is empty, or the configuration does not check the length (log entry 12). -/
def Obligations.ReadCsrAnswersOnce : Prop :=
  ∀ s : State, s.port.payload = [] ∨ s.cfg.lengthCheckAll = false →
    (∀ r : Csr, exec (.readCsr (csrNumber r)) s =
      .next { s with trace := s.trace ++ [.response s.port.host (.word (csrValue s r))] }) ∧
    (∀ n : Nat, (∀ r : Csr, csrNumber r ≠ n) → exec (.readCsr n) s =
      .next { s with
        fault := s.fault ||| 0x01#6
        trace := s.trace ++ [.response s.port.host (.word (.bits 0#32))] })

/-- Rules R64 and R85: a nonempty payload on `STOP` or on `READ_CSR` of an assigned number is a BAD_LENGTH with the default response and no other
effect. The bit that says so is set in every configuration the model builds; that it can be cleared is the model's choice (log entry 12). -/
def Obligations.CheckedLengthOfEmptyCommands : Prop :=
  ∀ s : State, s.port.payload ≠ [] → s.cfg.lengthCheckAll = true →
    exec .stop s = .next { s with fault := s.fault ||| 0x02#6 } ∧
    ∀ r : Csr, exec (.readCsr (csrNumber r)) s =
      .next { s with
        fault := s.fault ||| 0x02#6
        trace := s.trace ++ [.response s.port.host (.word (.bits 0#32))] }

/-- Rule R107: the encoding of `XFORM`; it answers the transform of its payload, or `T_u` zero samples and BAD_LENGTH, and changes no other state. -/
def Obligations.XformAnswersTheTransform : Prop :=
  encode (.xform .fwd) = 0x06000000#32 ∧ encode (.xform .inv) = 0x06000001#32 ∧ ∀ (s : State) (d : Dir),
    (s.port.payload.length = 8 * s.cfg.tU → exec (.xform d) s =
      .next { s with
        trace := s.trace ++ [.response s.port.host (.samples (transform s.cfg d (samplesOf s.port.payload)))] }) ∧
    (s.port.payload.length ≠ 8 * s.cfg.tU → exec (.xform d) s =
      .next { s with
        fault := s.fault ||| 0x02#6
        trace := s.trace ++
          [.response s.port.host (.samples (List.replicate s.cfg.tU ⟨.lit 0#32, .lit 0#32⟩))] })

/-- Rule R38: the CSR numbers name the registers and every other number is unassigned, the contents of each, and the reset values of the
table. -/
def Obligations.CsrMapIsTheTable : Prop :=
  (∀ r : Csr, csrOf (csrNumber r) = some r) ∧ (∀ n : Nat, (∀ r : Csr, csrNumber r ≠ n) → csrOf n = none) ∧
  [Csr.cfgTu, .cfgTg, .cfgK, .cfgL, .cfgNfic, .cfgDecim, .cfgMode, .status, .pending, .curblk, .snr, .snrCnt,
    .constLen, .fault].map csrNumber = [0, 1, 2, 3, 4, 5, 6, 16, 17, 18, 19, 20, 21, 32] ∧
  (∀ s : State,
    csrValue s .cfgTu = .bits (BitVec.ofNat 32 s.cfg.tU) ∧ csrValue s .cfgTg = .bits (BitVec.ofNat 32 s.cfg.tG) ∧
    csrValue s .cfgK = .bits (BitVec.ofNat 32 s.cfg.k) ∧ csrValue s .cfgL = .bits (BitVec.ofNat 32 s.cfg.l) ∧
    csrValue s .cfgNfic = .bits (BitVec.ofNat 32 s.cfg.nFic) ∧
    csrValue s .cfgDecim = .bits (BitVec.ofNat 32 s.cfg.constDecim) ∧
    csrValue s .cfgMode = .bits (cfgModeWord s.cfg) ∧ csrValue s .status = .bits (statusWord s) ∧
    csrValue s .pending = .bits s.pending ∧ csrValue s .curblk = .bits (BitVec.ofNat 32 s.curblk) ∧
    csrValue s .snr = s.snr.word ∧ csrValue s .snrCnt = .bits (s.snrCnt.setWidth 32) ∧
    csrValue s .constLen = .bits (BitVec.ofNat 32 s.cbuf.length) ∧ csrValue s .fault = .bits (s.fault.setWidth 32)) ∧
  (∀ c : Config,
    csrValue (State.initial c) .status = .bits 0x00000001#32 ∧ csrValue (State.initial c) .pending = .bits 0#32 ∧
    csrValue (State.initial c) .curblk = .bits 0#32 ∧ csrValue (State.initial c) .snr = .bits 0#32 ∧
    csrValue (State.initial c) .snrCnt = .bits 0#32 ∧ csrValue (State.initial c) .constLen = .bits 0#32 ∧
    csrValue (State.initial c) .fault = .bits 0#32)

/-- Rules R39, R40 and R42: the fields of CFG_MODE, STATUS and FAULT, with the reserved bits 0. -/
def Obligations.StatusFieldsAreTheTables : Prop :=
  ∀ s : State,
    ((statusWord s).getLsbD 0 = s.running ∧
      (statusWord s).extractLsb' 1 2 =
        (match s.wphase with | .wait => 0#2 | .run => 1#2 | .exited => 2#2 | .faulted => 3#2) ∧
      (statusWord s).extractLsb' 3 29 = 0#29) ∧
    ((cfgModeWord s.cfg).getLsbD 0 = decide (s.cfg.prsMode = .full) ∧
      (cfgModeWord s.cfg).getLsbD 1 = decide (s.cfg.fftSign = .plus) ∧
      (cfgModeWord s.cfg).extractLsb' 2 2 =
        (match s.cfg.fftNorm with | .none => 0#2 | .invN => 1#2 | .unitary => 2#2) ∧
      (cfgModeWord s.cfg).getLsbD 4 = decide (s.cfg.snrInstQuant = .truncInt) ∧
      (cfgModeWord s.cfg).extractLsb' 5 27 = 0#27) ∧
    ((faultWord s).getLsbD 0 = faultSet s .illegalCmd ∧ (faultWord s).getLsbD 1 = faultSet s .badLength ∧
      (faultWord s).getLsbD 2 = faultSet s .badIndex ∧ (faultWord s).getLsbD 3 = faultSet s .pendSat ∧
      (faultWord s).getLsbD 4 = faultSet s .overrun ∧ (faultWord s).getLsbD 5 = faultSet s .uninitRead ∧
      (faultWord s).extractLsb' 6 26 = 0#26)

/-- Rule R41: the SNR word is the held binary32 pattern itself, or for an exact value the binary32 nearest to the exact value, ties to even: no finite pattern is nearer, and
where another number is as near the last bit is 0. The exact value is below the overflow bound `2^128 − 2^103`. -/
def Obligations.SnrWordIsNearest : Prop :=
  (∀ b : Word, (Sys2Proof.Machine.Num.lit b).word.value = b) ∧
  ∀ (e : Sys2Proof.Machine.Num) (v w : Word), e.isPattern = false → e.finite = true → |e.val| < 2 ^ 128 - 2 ^ 103 →
    e.word.value = v → f32Finite w = true →
    f32Finite v = true ∧
    |e.val - ((f32ToRat v : ℚ) : ℝ)| ≤ |e.val - ((f32ToRat w : ℚ) : ℝ)| ∧
    (|e.val - ((f32ToRat v : ℚ) : ℝ)| = |e.val - ((f32ToRat w : ℚ) : ℝ)| → f32ToRat w ≠ f32ToRat v → v.getLsbD 0 = false)

/-- Rule R264: a command changes nothing of the state that is the worker's alone, nor the configuration, the hosts' lists or the model's own
choice fields. -/
def Obligations.CommandsLeaveWorkerState : Prop :=
  ∀ (i : Instr) (s t : State), exec i s = .next t →
    t.cfg = s.cfg ∧ t.curblk = s.curblk ∧ t.work = s.work ∧ t.ref = s.ref ∧ t.wphase = s.wphase ∧ t.snr = s.snr ∧
    t.snrCnt = s.snrCnt ∧ t.cbuf = s.cbuf ∧ t.hosts = s.hosts ∧ t.port = s.port ∧ t.released = s.released ∧
    t.choices = s.choices ∧ t.freeCtr = s.freeCtr ∧ t.snrFree = s.snrFree

/-! ### Faults -/

/-- Rule R250: an aborting fault has no other effect than its bit and the default response: no slot, counter, flag or output record
changes. -/
def Obligations.AbortingFaultsArePrecise : Prop :=
  ∀ (i : Instr) (s t : State) (f : FaultBit), f ≠ .overrun → exec i s = .next t →
    faultSet s f = false → faultSet t f = true →
    t.slots = s.slots ∧ t.pending = s.pending ∧ t.running = s.running ∧ t.fault = s.fault ||| faultMask f ∧
    (∀ r : Record, .record r ∈ t.trace → .record r ∈ s.trace) ∧
    (t.trace = s.trace ∨ t.trace = s.trace ++ [.response s.port.host (.word (.bits 0#32))] ∨
      t.trace = s.trace ++ [.response s.port.host (.samples (List.replicate s.cfg.tU Cplx.zero))])

/-- Rule R258: one command raises at most one fault, and its checks run in the order ILLEGAL_CMD, BAD_LENGTH, BAD_INDEX, PEND_SAT, then
OVERRUN. The ILLEGAL_CMD of a word is decided before its command runs (`IllegalWordsOnlySetIllegalCmd`). -/
def Obligations.OneFaultInPriorityOrder : Prop :=
  (∀ (i : Instr) (s t : State) (f g : FaultBit), exec i s = .next t → faultSet s f = false → faultSet s g = false →
    faultSet t f = true → faultSet t g = true → f = g) ∧
  (∀ (n : Nat) (s t : State), csrOf n = none → exec (.readCsr n) s = .next t → t.fault = s.fault ||| 0x01#6) ∧
  (∀ (idx : Nat) (i : Instr) (s t : State), i = .ingestFic idx ∨ i = .ingestMsc idx → exec i s = .next t →
    t.fault = s.fault |||
      (if s.port.payload.length ≠ 8 * (s.cfg.tU + s.cfg.tG) then 0x02#6
        else if s.cfg.l ≤ idx then 0x04#6
        else if s.pending = 0xFFFFFFFF#32 then 0x08#6
        else if s.cfg.l ≤ s.pending.toNat then 0x10#6 else 0#6))

/-- Rule R280 with rules R30, R32, R139 and R261: no step leaves `EXITED` or `FAULTED`, clears a fault bit, or sets `running` back to 1. -/
def Obligations.OnlyResetUndoesThese : Prop :=
  ∀ s t : State, step s = .next t →
    (s.wphase = .exited → t.wphase = .exited) ∧ (s.wphase = .faulted → t.wphase = .faulted) ∧
    (∀ f : FaultBit, faultSet s f = true → faultSet t f = true) ∧
    (s.running = false → t.running = false)

/-! ### The worker -/

/-- Rule R132: when dequeue is enabled, and both its outcomes. -/
def Obligations.DequeueCopiesTheSlot : Prop :=
  ∀ s : State,
    (.dequeue ∈ enabledMoves s ↔ s.wphase = .wait ∧ s.pending ≠ 0#32) ∧
    (∀ v, s.slots[s.curblk]? = some (some v) → runMove .dequeue s = .next { s with work := some v, wphase := .run }) ∧
    (s.slots[s.curblk]? = some none →
      runMove .dequeue s = .next { s with fault := s.fault ||| 0x20#6, wphase := .faulted })

/-- Rule R136: when exit is enabled and all it does; an `EXITED` worker has no further step. -/
def Obligations.ExitStopsTheWorker : Prop :=
  ∀ s : State,
    (.exit ∈ enabledMoves s ↔ s.wphase = .wait ∧ s.running = false) ∧
    runMove .exit s = .next { s with wphase := .exited } ∧
    (s.wphase = .exited → workerMoves s = [])

/-- Rules R134 and R135: the retire decrements `pending`, advances the position modulo `L`, and at the wrap (even with an empty buffer) flushes and
clears the constellation buffer. -/
def Obligations.RetireFlushesAtTheWrap : Prop :=
  ∀ s : State,
    ((s.curblk + 1) % s.cfg.l = 0 →
      retire s = { s with
        pending := s.pending - 1#32, curblk := 0, trace := s.trace ++ [.record (.const s.cbuf)], cbuf := []
        wphase := .wait }) ∧
    ((s.curblk + 1) % s.cfg.l ≠ 0 →
      retire s = { s with pending := s.pending - 1#32, curblk := (s.curblk + 1) % s.cfg.l, wphase := .wait })

/-- Rules R133, R190, R191, R197 and R198: at position 0 the process step completes: the transformed symbol becomes `work` and the whole valid
reference, `snr` and `snr_cnt` are updated, a 10th update reports, no block and no tap is produced, and the symbol is retired. What `snr` becomes after a
non-finite symbol is the free value of log entry 7. -/
def Obligations.PositionZeroRefreshesTheReference : Prop :=
  ∀ (s : State) (w x : Vec), s.work = some w → s.curblk = 0 → x = transform s.cfg .fwd w →
    ∃ t, runMove .process s = .next t ∧
      t.work = some x ∧ t.ref = x.map some ∧
      t.snr = (if s.snrFree = true ∨ x.all Cplx.finite = false then .lit (Config.freeSnr s.freeCtr)
        else smooth s.cfg s.snr (snrInstant s.cfg x)) ∧
      t.snrCnt = (if s.snrCnt = 9#4 then 0#4 else s.snrCnt + 1#4) ∧
      t.trace = s.trace ++ (if s.snrCnt = 9#4 then [.record (.snr t.snr)] else []) ++
        (if s.cfg.l = 1 then [.record (.const s.cbuf)] else []) ∧
      t.pending = s.pending - 1#32 ∧ t.curblk = (if s.cfg.l = 1 then 0 else 1) ∧ t.wphase = .wait ∧
      t.cbuf = (if s.cfg.l = 1 then [] else s.cbuf) ∧
      t.cfg = s.cfg ∧ t.slots = s.slots ∧ t.running = s.running ∧ t.fault = s.fault ∧ t.hosts = s.hosts

/-- Rules R197, R198 and R29: from a fresh count, any sequence of SNR updates reports exactly after its 10th, 20th, … update, each report
carrying the value just smoothed, and leaves the count of updates since the last report. -/
def Obligations.EveryTenthUpdateReports : Prop :=
  ∀ (s : State) (xs : List Vec), s.snrCnt = 0#4 →
    (xs.foldl (fun a x => snrUpdate x a) s).trace = s.trace ++
      (List.range (xs.length / 10)).map (fun j =>
        .record (.snr ((xs.take (10 * (j + 1))).foldl (fun a x => snrUpdate x a) s).snr)) ∧
    (xs.foldl (fun a x => snrUpdate x a) s).snrCnt = BitVec.ofNat 4 (xs.length % 10)

/-- Rules R133, R220 and R226 to R228: at a data position with every reference entry valid the process step completes: the soft bits, the record
of the position, the reference update, the taps, and the retire with its flush. -/
def Obligations.DataPositionEmitsItsBlock : Prop :=
  ∀ (s : State) (w x : Vec), configLegal s.cfg = true → s.work = some w → s.curblk ≠ 0 → s.curblk < s.cfg.l →
    s.ref.length = s.cfg.tU → (∀ k, k < s.cfg.tU → (readRef s.ref k).isSome = true) → x = transform s.cfg .fwd w →
    ∃ t, runMove .process s = .next t ∧
      t.work = some x ∧
      t.trace = s.trace ++
        [.record (if s.curblk ≤ s.cfg.nFic then .fic (blockBits s.cfg x s.ref) (BitVec.ofNat 16 s.curblk)
          else .msc (blockBits s.cfg x s.ref) (BitVec.ofNat 16 s.curblk))] ++
        (if s.curblk + 1 = s.cfg.l then [.record (.const (s.cbuf ++ blockTaps s.cfg x s.ref))] else []) ∧
      t.cbuf = (if s.curblk + 1 = s.cfg.l then [] else s.cbuf ++ blockTaps s.cfg x s.ref) ∧
      (∀ i k, i < s.cfg.k → carrierBin s.cfg i = some k → readRef t.ref k = x[k]?) ∧
      (∀ k, (∀ i, i < s.cfg.k → carrierBin s.cfg i ≠ some k) → readRef t.ref k = readRef s.ref k) ∧
      t.pending = s.pending - 1#32 ∧ t.curblk = (if s.curblk + 1 = s.cfg.l then 0 else s.curblk + 1) ∧
      t.wphase = .wait ∧ t.cfg = s.cfg ∧ t.slots = s.slots ∧ t.running = s.running ∧ t.fault = s.fault ∧
      t.snr = s.snr ∧ t.snrCnt = s.snrCnt ∧ t.hosts = s.hosts

/-- Unreachable corners (log entries 9 and 10): a process step with no vector in `work` stops by name, and one that reads a reference that is
not valid takes the UNINIT_READ entry with no other effect (rules R44, R255). -/
def Obligations.UnwrittenStorageStopsTheWorker : Prop :=
  (∀ s : State, s.work = none → runMove .process s = .fault .workUnwritten) ∧
  (∀ (s : State) (w : Vec) (i k : Nat), s.work = some w → s.curblk ≠ 0 → configLegal s.cfg = true → i < s.cfg.k →
    carrierBin s.cfg i = some k → readRef s.ref k = none →
    runMove .process s = .next { s with fault := s.fault ||| 0x20#6, wphase := .faulted })

/-- Rules R21, R30 and R264: a worker step changes no slot, not `running` and no host's list, and lowers `pending` by at most one. -/
def Obligations.WorkerStepsLeaveHostState : Prop :=
  ∀ (m : Move) (s t : State), m = .dequeue ∨ m = .process ∨ m = .exit → runMove m s = .next t →
    t.cfg = s.cfg ∧ t.slots = s.slots ∧ t.running = s.running ∧ t.hosts = s.hosts ∧ t.port = s.port ∧
    t.released = s.released ∧ t.choices = s.choices ∧ (t.pending = s.pending ∨ t.pending = s.pending - 1#32)

/-! ### Rules of the whole machine -/

/-- Rules R8 and R175: no step changes the configuration, so neither the geometry nor the carrier map. -/
def Obligations.ConfigurationNeverChanges : Prop :=
  ∀ s t : State, step s = .next t → t.cfg = s.cfg

/-- Rules R24, R35 and R140: a step leaves the position or, retiring a symbol, advances it by one modulo `L`. -/
def Obligations.PositionsCycleByOne : Prop :=
  ∀ s t : State, step s = .next t →
    t.curblk = s.curblk ∨
    (s.wphase = .run ∧ t.wphase = .wait ∧ t.curblk = (s.curblk + 1) % s.cfg.l ∧ t.pending = s.pending - 1#32)

/-- Rule R92: a step only appends to the trace, at most two events. -/
def Obligations.TraceOnlyGrows : Prop :=
  ∀ s t : State, step s = .next t → ∃ es : List Event, es.length ≤ 2 ∧ t.trace = s.trace ++ es

/-- The structural invariant holds right after every accepted reset (rules R43, R280, R281). -/
def Obligations.ResetMeetsTheStructuralInvariant : Prop :=
  ∀ (c : Config) (s : State), State.resetWith c = some s →
    s.Inv ∧ s.cfg = c ∧ s.pending = 0#32 ∧ s.curblk = 0 ∧ s.running = true ∧ s.wphase = .wait ∧ s.snr = .lit 0#32 ∧
    s.snrCnt = 0#4 ∧ s.cbuf = [] ∧ s.fault = 0#6 ∧ s.trace = [] ∧
    (∀ b, b < c.l → s.slots[b]? = some none) ∧ (∀ k, k < c.tU → s.ref[k]? = some none)

/-- Rule R9: reset is refused exactly when a legal range of rule R8 or a condition of rule R170 is broken. -/
def Obligations.ResetRefusesIllegalConfigurations : Prop :=
  ∀ c : Config, State.resetWith c = none ↔
    ¬ ((c.tU % 2 = 0 ∧ 2 ≤ c.tU ∧ c.tU ≤ 65536) ∧ c.tG ≤ 65536 ∧ (1 ≤ c.k ∧ c.k ≤ c.tU) ∧ (1 ≤ c.l ∧ c.l ≤ 65536) ∧
      c.nFic ≤ c.l - 1 ∧ (1 ≤ c.constDecim ∧ c.constDecim ≤ 65535) ∧ 0 < c.dbOffset ∧ 1 ≤ c.nHost ∧
      c.carrierMap.length = c.k ∧ (∀ m, m ∈ c.carrierMap → -(c.tU : Int) ≤ m ∧ m < c.tU) ∧
      (c.carrierMap.map (fun m => m % (c.tU : Int))).Nodup)

/-- Every step keeps the structural invariant, from every state that meets it (rules R21 to R31, R44, R134, R135, R227). -/
def Obligations.StepKeepsTheStructuralInvariant : Prop :=
  ∀ s t : State, s.Inv → step s = .next t → t.Inv

/-- Every step keeps every held number in `cfg.NUMERICS`: exact under `REAL`, a binary32 pattern under binary32, a pattern of the format (or an
interface pattern not yet transformed, log entry 34) under any other (rules R13, R21, R28). -/
def Obligations.StepKeepsHeldNumbersPatterns : Prop :=
  ∀ s t : State, s.Held → step s = .next t → t.Held

/-- Rule R44: in every reachable state in phase `RUN` the process step completes, back in `WAIT`, with no fault bit changed: neither `work` nor
`ref` is read unwritten. -/
def Obligations.ReachableProcessNeverReadsUnwritten : Prop :=
  ∀ s : State, Reachable s → s.wphase = .run → ∃ t, runMove .process s = .next t ∧ t.wphase = .wait ∧ t.fault = s.fault

/-- Rule R285: in every valid and fair execution, once `running` is 0 the worker reaches `EXITED` or `FAULTED`. -/
def Obligations.TeardownEnds : Prop :=
  ∀ (e : Execution) (n : Nat), e.Valid → e.Fair → (e.st n).running = false →
    ∃ m, n ≤ m ∧ ((e.st m).wphase = .exited ∨ (e.st m).wphase = .faulted)

/-- Rule R294, ingress: under the contract the `n`-th ingress, with `pending < L`, leaves its vector in slot `n mod L`, sets no fault bit and keeps
the coherence. -/
def Obligations.ContractIngressKeepsCoherence : Prop :=
  ∀ (s : State) (h : List Vec) (d : Nat), s.Inv → Coherent s h d → s.pending.toNat < s.cfg.l →
    s.port.payload.length = 8 * nPayload s.cfg (contractInstr s.cfg h.length) →
    ∃ t v, exec (contractInstr s.cfg h.length) s = .next t ∧
      v = ((samplesOf s.port.payload).drop
        (if h.length % s.cfg.l = 0 ∧ s.cfg.prsMode = .useful then 0 else s.cfg.tG)).take s.cfg.tU ∧
      readSlot t (h.length % s.cfg.l) = some v ∧ t.fault = s.fault ∧ Coherent t (h ++ [v]) d

/-- Rule R294, worker: under the contract the `d`-th dequeue reads exactly the vector of the `d`-th ingress, never an unwritten slot, and the worker
steps keep the coherence. -/
def Obligations.DequeueReadsTheMatchingIngress : Prop :=
  ∀ (s : State) (h : List Vec) (d : Nat), Coherent s h d →
    (s.wphase = .wait → s.pending ≠ 0#32 →
      ∃ v t, h[d]? = some v ∧ runMove .dequeue s = .next t ∧ t.work = some v ∧ t.fault = s.fault ∧
        Coherent t h (d + 1)) ∧
    (∀ t, s.wphase = .run → s.pending ≠ 0#32 → runMove .process s = .next t → t.wphase = .wait → Coherent t h d) ∧
    (∀ (i : Instr) (t : State), (∃ n, i = .readCsr n) ∨ (∃ dir, i = .xform dir) → exec i s = .next t → Coherent t h d)

/-- I4 of 93_implementation_defined.md: once a non-finite reference symbol has been processed, `snr` is a free value at every later update, until
reset (log entry 7). -/
def Obligations.OpenSnrStaysOpen : Prop :=
  (∀ s t : State, step s = .next t → s.snrFree = true → t.snrFree = true) ∧
  (∀ (x : Vec) (s : State), s.snrFree = true ∨ x.all Cplx.finite = false →
    (prsApply x s).snr = .lit (Config.freeSnr s.freeCtr) ∧ (prsApply x s).snrFree = true ∧
    (prsApply x s).freeCtr = s.freeCtr + 1)

/-! ### Arithmetic under `NUMERICS = REAL` -/

/-- Rules R160 and R161 under `REAL`: every value of the forward and of the inverse transform is the sum of its rule, with its sign and its
scale. -/
def Obligations.TransformIsTheSum : Prop :=
  ∀ (c : Config) (d : Dir) (x : Vec) (k : Nat), c.numerics = .real → x.length = c.tU → x.all Cplx.finite = true → k < c.tU →
    ∃ z, (transform c d x)[k]? = some z ∧ z.finite = true ∧ z.val = transformVal c d x k

/-- Rule R162: inverse after forward and forward after inverse give `c · x`, with `c = N` for `NONE` and `c = 1` for `INV_N` and
`UNITARY`. -/
def Obligations.TransformRoundTrip : Prop :=
  ∀ (c : Config) (d e : Dir) (x : Vec) (n : Nat), c.numerics = .real → x.length = c.tU → x.all Cplx.finite = true →
    n < c.tU → d ≠ e →
    ((transform c e (transform c d x)).getD n Cplx.zero).val =
      (match c.fftNorm with | .none => (c.tU : ℂ) | .invN => 1 | .unitary => 1) * (x.getD n Cplx.zero).val

/-- Rule R166: the zero vector in both directions, linearity, bin 0, and the impulse, for every transform length. -/
def Obligations.TransformCornerCases : Prop :=
  ∀ (c : Config) (x : Vec), c.numerics = .real → x.length = c.tU → x.all Cplx.finite = true →
    ((∀ n, n < c.tU → (x.getD n Cplx.zero).val = 0) →
      ∀ (d : Dir) (k : Nat), k < c.tU → ((transform c d x).getD k Cplx.zero).val = 0) ∧
    (∀ (y z : Vec) (a b : ℂ) (k : Nat), y.length = c.tU → z.length = c.tU → y.all Cplx.finite = true →
      z.all Cplx.finite = true → k < c.tU →
      (∀ n, n < c.tU → (z.getD n Cplx.zero).val = a * (x.getD n Cplx.zero).val + b * (y.getD n Cplx.zero).val) →
      ((transform c .fwd z).getD k Cplx.zero).val =
        a * ((transform c .fwd x).getD k Cplx.zero).val + b * ((transform c .fwd y).getD k Cplx.zero).val) ∧
    (0 < c.tU → ((transform c .fwd x).getD 0 Cplx.zero).val =
      scaleVal c .fwd * ∑ n ∈ Finset.range c.tU, (x.getD n Cplx.zero).val) ∧
    (∀ m, m < c.tU → (∀ n, n < c.tU → (x.getD n Cplx.zero).val = if n = m then 1 else 0) →
      ∀ k, k < c.tU → ((transform c .fwd x).getD k Cplx.zero).val =
        scaleVal c .fwd * Complex.exp (exponentSignVal c .fwd * Complex.I * (2 * Real.pi * k * m / c.tU)))

/-- Rule R165: with `FFT_SIGN = −1` a tone of amplitude `A` at bin `b` transforms to `s_f · N · A` at bin `b` and 0 elsewhere; with `+1` it lands
at bin `(N − b) mod N`. -/
def Obligations.ToneLandsInItsBin : Prop :=
  ∀ (c : Config) (x : Vec) (a : ℂ) (b k : Nat), c.numerics = .real → x.length = c.tU → x.all Cplx.finite = true → b < c.tU → k < c.tU →
    (∀ n, n < c.tU → (x.getD n Cplx.zero).val = a * Complex.exp (Complex.I * (2 * Real.pi * b * n / c.tU))) →
    ((transform c .fwd x).getD k Cplx.zero).val =
      if k = (match c.fftSign with | .minus => b | .plus => (c.tU - b) % c.tU) then scaleVal c .fwd * c.tU * a else 0

/-- Rule R222: the differential product is `work · conj(ref)`: its parts, its modulus and its phase. -/
def Obligations.DifferentialProductIsConjugateProduct : Prop :=
  ∀ (c : Config) (w f : Cplx), c.numerics = .real → w.finite = true → f.finite = true →
    (diffProduct c w f).finite = true ∧
    (diffProduct c w f).val = w.val * (starRingEnd ℂ) f.val ∧
    (diffProduct c w f).re.val = w.re.val * f.re.val + w.im.val * f.im.val ∧
    (diffProduct c w f).im.val = w.im.val * f.re.val - w.re.val * f.im.val ∧
    ‖(diffProduct c w f).val‖ = ‖w.val‖ * ‖f.val‖ ∧
    (w.val ≠ 0 → f.val ≠ 0 →
      ((Complex.arg (diffProduct c w f).val : ℝ) : Real.Angle) = (Complex.arg w.val : ℝ) - (Complex.arg f.val : ℝ))

/-- Rule R225: under `REAL` the soft bits of a finite `r` and the degenerate case `m = 0`; a realised norm that is zero or not finite gives
`(0, 0)`; in every arithmetic the bits lie in `[−127, 127]`. That a value with a part that is not finite gives `(0, 0)` is the model's choice under
`REAL` (log entry 11) and in an implementation format (log entry 32). -/
def Obligations.SoftBitsAreTheMapper : Prop :=
  ∀ (c : Config) (r : Cplx),
    (c.numerics = .real → r.finite = true →
      (softBits c r).1.value = (if |r.re.val| + |r.im.val| = 0 then 0 else
        min 127 (max (-127) (truncInt (-r.re.val / (|r.re.val| + |r.im.val|) * 127)))) ∧
      (softBits c r).2.value = (if |r.re.val| + |r.im.val| = 0 then 0 else
        min 127 (max (-127) (truncInt (-r.im.val / (|r.re.val| + |r.im.val|) * 127))))) ∧
    (r.finite = false ∨
        (c.numerics = .binary32 ∧
          (f32Zero (Config.f32NormOne r.bits) = true ∨ f32Finite (Config.f32NormOne r.bits) = false)) ∨
        (∃ f, c.numerics = .format f ∧
          (Config.fmtZero f (Config.fmtNormOne f r) = true ∨ Config.fmtFinite f (Config.fmtNormOne f r) = false)) →
      (softBits c r).1.value = 0 ∧ (softBits c r).2.value = 0) ∧
    (-127 ≤ (softBits c r).1.value ∧ (softBits c r).1.value ≤ 127 ∧
      -127 ≤ (softBits c r).2.value ∧ (softBits c r).2.value ≤ 127)

/-- Rule R230: for `r ≠ 0` the bits lie in `[−127, 127]`, their magnitudes sum to 126 or 127, each has the sign opposite to its part unless it
is 0, and the bits at the eight multiples of a quarter of π are those of the rule, for every amplitude. -/
def Obligations.SoftBitRangeAndQuadrants : Prop :=
  ∀ (c : Config) (r : Cplx) (x y : Int), c.numerics = .real → r.finite = true → r.val ≠ 0 →
    (softBits c r).1.value = x → (softBits c r).2.value = y →
    (-127 ≤ x ∧ x ≤ 127 ∧ -127 ≤ y ∧ y ≤ 127) ∧ (|x| + |y| = 126 ∨ |x| + |y| = 127) ∧
    (0 < r.re.val → x ≤ 0) ∧ (r.re.val < 0 → 0 ≤ x) ∧ (r.re.val = 0 → x = 0) ∧
    (0 < r.im.val → y ≤ 0) ∧ (r.im.val < 0 → 0 ≤ y) ∧ (r.im.val = 0 → y = 0) ∧
    (∀ a : ℝ, 0 < a →
      (r.re.val = a → r.im.val = 0 → x = -127 ∧ y = 0) ∧ (r.re.val = a → r.im.val = a → x = -63 ∧ y = -63) ∧
      (r.re.val = 0 → r.im.val = a → x = 0 ∧ y = -127) ∧ (r.re.val = -a → r.im.val = a → x = 63 ∧ y = -63) ∧
      (r.re.val = -a → r.im.val = 0 → x = 127 ∧ y = 0) ∧ (r.re.val = -a → r.im.val = -a → x = 63 ∧ y = 63) ∧
      (r.re.val = 0 → r.im.val = -a → x = 0 ∧ y = 127) ∧ (r.re.val = a → r.im.val = -a → x = -63 ∧ y = 63))

/-- Rule R229: scaling the symbol or the reference by a positive real changes no soft bit; the same symbol twice gives `(−127, 0)` where it is
not zero and `(0, 0)` where it is; a zero symbol or a zero reference gives `(0, 0)`. -/
def Obligations.SoftBitsIgnoreScale : Prop :=
  ∀ (c : Config) (w f : Cplx), c.numerics = .real → w.finite = true → f.finite = true →
    (∀ (u g : Cplx) (a b : ℝ), u.finite = true → g.finite = true → 0 < a → 0 < b →
      u.val = a * w.val → g.val = b * f.val →
      (softBits c (diffProduct c u g)).1.value = (softBits c (diffProduct c w f)).1.value ∧
      (softBits c (diffProduct c u g)).2.value = (softBits c (diffProduct c w f)).2.value) ∧
    (f.val = w.val →
      (softBits c (diffProduct c w f)).1.value = (if w.val = 0 then 0 else -127) ∧
      (softBits c (diffProduct c w f)).2.value = 0) ∧
    (w.val = 0 ∨ f.val = 0 →
      (softBits c (diffProduct c w f)).1.value = 0 ∧ (softBits c (diffProduct c w f)).2.value = 0)

/-- Rules R196 and R199: the instantaneous SNR is the difference of the decibel values of the two means, truncated toward zero when the
configuration says so. -/
def Obligations.InstantaneousSnrIsTheDifference : Prop :=
  ∀ (c : Config) (x : Vec), c.numerics = .real → x.length = c.tU → x.all Cplx.finite = true →
    (c.snrInstQuant = .none → (snrInstant c x).val = snrInstantVal c x) ∧
    (c.snrInstQuant = .truncInt → (snrInstant c x).val = (truncInt (snrInstantVal c x) : ℝ))

/-- Rule R197: under `REAL` the smoothing is exactly `0.7 · snr + 0.3 · inst`. In binary32 it is the realised operation on the nearest constants of I6,
an opaque function (rule R13; log entry 6), and in another implementation format that format's own opaque operation, whose constants are not named
(the model's choice, log entry 34). -/
def Obligations.SmoothingIsTheMovingAverage : Prop :=
  ∀ (x : Vec) (s : State), s.snrFree = false → x.all Cplx.finite = true →
    (s.cfg.numerics = .real →
      (snrUpdate x s).snr.val = 7 / 10 * s.snr.val + 3 / 10 * (snrInstant s.cfg x).val) ∧
    (s.cfg.numerics = .binary32 →
      (snrUpdate x s).snr =
        .lit (Config.f32MulAdd 0x3F333333#32 s.snr.bits 0x3E99999A#32 (snrInstant s.cfg x).bits)) ∧
    (∀ f, s.cfg.numerics = .format f →
      (snrUpdate x s).snr = .code f (Config.fmtSmooth f s.snr (snrInstant s.cfg x)))

/-- Rule R200: an all-zero spectrum, and a flat one over nonempty index sets, give an instantaneous SNR of 0; with zero noise bins and signal
mean `m` it is `20 · log10(m + 1)` under the default offset; an empty set has mean 0, with `K < 4` the signal
set is empty, and with `K ≥ 4` it has bin 0. -/
def Obligations.SnrCornerCases : Prop :=
  ∀ (c : Config) (x : Vec), c.numerics = .real → c.snrInstQuant = .none → x.length = c.tU → x.all Cplx.finite = true →
    0 < c.tU →
    ((∀ k, k < c.tU → (x.getD k Cplx.zero).val = 0) → (snrInstant c x).val = 0) ∧
    (∀ a : ℝ, noiseSet c ≠ [] → signalSet c ≠ [] → (∀ k, k < c.tU → ‖(x.getD k Cplx.zero).val‖ = a) →
      (snrInstant c x).val = 0) ∧
    (c.dbOffset = 1 → (∀ j, j ∈ noiseSet c → (x.getD (centredBin c j) Cplx.zero).val = 0) →
      (snrInstant c x).val = 20 * Real.logb 10 (meanModulusVal c (signalSet c) x + 1)) ∧
    (noiseSet c = [] → (meanModulus c (binsAt c (noiseSet c) x)).val = 0) ∧
    (c.k < 4 → signalSet c = [] ∧ (meanModulus c (binsAt c (signalSet c) x)).val = 0) ∧
    (4 ≤ c.k → c.k ≤ c.tU → c.tU % 2 = 0 → ∃ j, j ∈ signalSet c ∧ centredBin c j = 0)

/-- Rule R203: the index sets of the scenario geometry. -/
def Obligations.ScenarioIndexSets : Prop :=
  ∀ decim : Nat,
    centre (scenarioConfig decim) = 1024 ∧ bandLow (scenarioConfig decim) = 256 ∧ bandHigh (scenarioConfig decim) = 1792 ∧
    (∀ j, j ∈ noiseSet (scenarioConfig decim) ↔ (10 ≤ j ∧ j < 236) ∨ (1812 ≤ j ∧ j < 2038)) ∧
    (noiseSet (scenarioConfig decim)).length = 452 ∧
    (∀ j, j ∈ signalSet (scenarioConfig decim) ↔ 640 ≤ j ∧ j < 1408) ∧
    (signalSet (scenarioConfig decim)).length = 768 ∧
    (∀ k, (∃ j, j ∈ noiseSet (scenarioConfig decim) ∧ centredBin (scenarioConfig decim) j = k) ↔
      (1034 ≤ k ∧ k ≤ 1259) ∨ (788 ≤ k ∧ k ≤ 1013)) ∧
    (∀ k, (∃ j, j ∈ signalSet (scenarioConfig decim) ∧ centredBin (scenarioConfig decim) j = k) ↔
      (1664 ≤ k ∧ k ≤ 2047) ∨ k ≤ 383)

/-- Rule R171: the bin of a carrier is its map value modulo `T_u`, in range: the value itself, plus `T_u` where it is negative. -/
def Obligations.BinIsTheMapModuloLength : Prop :=
  ∀ (c : Config) (i : Nat) (m : Int), configLegal c = true → c.carrierMap[i]? = some m →
    carrierBin c i = some (m % (c.tU : Int)).toNat ∧ (m % (c.tU : Int)).toNat < c.tU ∧
    m % (c.tU : Int) = if m < 0 then m + c.tU else m

/-- Rules R172 and R174: for each DAB mode the default map (general knowledge of the spec, PRESUMED, log entry 29) takes each value of
`[−K/2, K/2]` but 0 once, and begins as the rule lists it in mode I. -/
def Obligations.DefaultMapIsAPermutation : Prop :=
  (∀ p, p ∈ [(2048, 1536), (512, 384), (256, 192), (1024, 768)] →
    (dabMap p.1 p.2).length = p.2 ∧ (dabMap p.1 p.2).Nodup ∧
    ∀ m : Int, m ∈ dabMap p.1 p.2 ↔ -((p.2 / 2 : Nat) : Int) ≤ m ∧ m ≤ (p.2 / 2 : Nat) ∧ m ≠ 0) ∧
  (dabMap 2048 1536).take 16 =
    [-513, -14, 329, 692, -733, 13, 680, 273, -36, 43, 85, -432, -318, 473, 516, 150] ∧
  (dabMap 2048 1536).drop 1532 = [641, 652, 606, 197]

/-! ### The host's side -/

/-- Rule R90: `INGEST` expands by its index to `INGEST_PRS`, `INGEST_FIC` or `INGEST_MSC`, and is refused with an index beyond 65535 (rule R89);
`FRAME` to the ingress commands of positions `0 … L−1` in order; `TEARDOWN` to `STOP`, the join and the release; `FFT` and `IFFT` to the two
directions of `XFORM`. -/
def Obligations.PseudoCommandsExpand : Prop :=
  (∀ (c : Config) (buf : List Byte),
    assemble c (.ingest 0 buf) = some [.cmd ([0x00#8, 0x00#8, 0x00#8, 0x01#8] ++ buf)] ∧
    assemble c (.fft buf) = some [.cmd ([0x00#8, 0x00#8, 0x00#8, 0x06#8] ++ buf)] ∧
    assemble c (.ifft buf) = some [.cmd ([0x01#8, 0x00#8, 0x00#8, 0x06#8] ++ buf)] ∧
    ∀ idx : Nat,
      (1 ≤ idx → idx ≤ c.nFic → idx ≤ 65535 →
        assemble c (.ingest idx buf) = some [.cmd (encodeBytes (.ingestFic idx) buf)]) ∧
      (c.nFic < idx → idx ≤ 65535 →
        assemble c (.ingest idx buf) = some [.cmd (encodeBytes (.ingestMsc idx) buf)]) ∧
      (65535 < idx → assemble c (.ingest idx buf) = none)) ∧
  (∀ (c : Config) (bufs : List (List Byte)), configLegal c = true → bufs.length = c.l →
    assemble c (.frame bufs) =
      some (bufs.mapIdx (fun p b => .cmd (encodeBytes (contractInstr c p) b)))) ∧
  (∀ c : Config, assemble c .teardown = some [.cmd [0x00#8, 0x00#8, 0x00#8, 0x04#8], .pollJoin, .release])

/-- Rule R91, the wire forms: a block is `pos` in two bytes, low byte first, then one byte a soft bit in index order, on either port; a report is the
4 bytes of its word (the word of an exact value: log entry 18); a flush is the 4-byte sample count, then 8 bytes a sample in order, the real part
first; and the lengths that follow. -/
def Obligations.WireFormsHaveTheirLengths : Prop :=
  (∀ (bits : List SoftVal) (pos : BitVec 16),
    recordBytes (.fic bits pos) =
      pos.extractLsb' 0 8 :: pos.extractLsb' 8 8 :: bits.map (fun b => BitVec.ofInt 8 b.value) ∧
    recordBytes (.msc bits pos) =
      pos.extractLsb' 0 8 :: pos.extractLsb' 8 8 :: bits.map (fun b => BitVec.ofInt 8 b.value) ∧
    (recordBytes (.fic bits pos)).length = 2 + bits.length ∧ (recordBytes (.msc bits pos)).length = 2 + bits.length) ∧
  (∀ v : Sys2Proof.Machine.Num,
    recordBytes (.snr v) = (List.range 4).map (fun i => v.word.value.extractLsb' (8 * i) 8) ∧
    (recordBytes (.snr v)).length = 4) ∧
  (∀ zs : Vec,
    recordBytes (.const zs) = (List.range 4).map (fun i => (BitVec.ofNat 32 zs.length).extractLsb' (8 * i) 8) ++
      zs.flatMap (fun z => (List.range 4).map (fun i => z.re.word.value.extractLsb' (8 * i) 8) ++
        (List.range 4).map (fun i => z.im.word.value.extractLsb' (8 * i) 8)) ∧
    (recordBytes (.const zs)).length = 4 + 8 * zs.length)
end

