-- ==== Sys2Proof/Laws/State.lean ====
section
/-! SUPPORT. One lemma per field per update of the state, so that no proof unfolds a record update. -/

namespace Sys2Proof.Machine

/-! `raiseFault` -/

@[simp] theorem raiseFault_cfg (f : FaultBit) (s : State) : (raiseFault f s).cfg = s.cfg := rfl
@[simp] theorem raiseFault_slots (f : FaultBit) (s : State) : (raiseFault f s).slots = s.slots := rfl
@[simp] theorem raiseFault_pending (f : FaultBit) (s : State) : (raiseFault f s).pending = s.pending := rfl
@[simp] theorem raiseFault_curblk (f : FaultBit) (s : State) : (raiseFault f s).curblk = s.curblk := rfl
@[simp] theorem raiseFault_work (f : FaultBit) (s : State) : (raiseFault f s).work = s.work := rfl
@[simp] theorem raiseFault_ref (f : FaultBit) (s : State) : (raiseFault f s).ref = s.ref := rfl
@[simp] theorem raiseFault_running (f : FaultBit) (s : State) : (raiseFault f s).running = s.running := rfl
@[simp] theorem raiseFault_wphase (f : FaultBit) (s : State) : (raiseFault f s).wphase = s.wphase := rfl
@[simp] theorem raiseFault_snr (f : FaultBit) (s : State) : (raiseFault f s).snr = s.snr := rfl
@[simp] theorem raiseFault_snrCnt (f : FaultBit) (s : State) : (raiseFault f s).snrCnt = s.snrCnt := rfl
@[simp] theorem raiseFault_cbuf (f : FaultBit) (s : State) : (raiseFault f s).cbuf = s.cbuf := rfl
@[simp] theorem raiseFault_fault (f : FaultBit) (s : State) : (raiseFault f s).fault = s.fault ||| faultMask f := rfl
@[simp] theorem raiseFault_trace (f : FaultBit) (s : State) : (raiseFault f s).trace = s.trace := rfl
@[simp] theorem raiseFault_hosts (f : FaultBit) (s : State) : (raiseFault f s).hosts = s.hosts := rfl
@[simp] theorem raiseFault_port (f : FaultBit) (s : State) : (raiseFault f s).port = s.port := rfl
@[simp] theorem raiseFault_released (f : FaultBit) (s : State) : (raiseFault f s).released = s.released := rfl
@[simp] theorem raiseFault_choices (f : FaultBit) (s : State) : (raiseFault f s).choices = s.choices := rfl
@[simp] theorem raiseFault_freeCtr (f : FaultBit) (s : State) : (raiseFault f s).freeCtr = s.freeCtr := rfl
@[simp] theorem raiseFault_snrFree (f : FaultBit) (s : State) : (raiseFault f s).snrFree = s.snrFree := rfl

/-! `writeSlot` -/

@[simp] theorem writeSlot_cfg (b : Nat) (v : Vec) (s : State) : (writeSlot b v s).cfg = s.cfg := rfl
@[simp] theorem writeSlot_slots (b : Nat) (v : Vec) (s : State) : (writeSlot b v s).slots = s.slots.set b (some v) := rfl
@[simp] theorem writeSlot_pending (b : Nat) (v : Vec) (s : State) : (writeSlot b v s).pending = s.pending := rfl
@[simp] theorem writeSlot_curblk (b : Nat) (v : Vec) (s : State) : (writeSlot b v s).curblk = s.curblk := rfl
@[simp] theorem writeSlot_work (b : Nat) (v : Vec) (s : State) : (writeSlot b v s).work = s.work := rfl
@[simp] theorem writeSlot_ref (b : Nat) (v : Vec) (s : State) : (writeSlot b v s).ref = s.ref := rfl
@[simp] theorem writeSlot_running (b : Nat) (v : Vec) (s : State) : (writeSlot b v s).running = s.running := rfl
@[simp] theorem writeSlot_wphase (b : Nat) (v : Vec) (s : State) : (writeSlot b v s).wphase = s.wphase := rfl
@[simp] theorem writeSlot_snr (b : Nat) (v : Vec) (s : State) : (writeSlot b v s).snr = s.snr := rfl
@[simp] theorem writeSlot_snrCnt (b : Nat) (v : Vec) (s : State) : (writeSlot b v s).snrCnt = s.snrCnt := rfl
@[simp] theorem writeSlot_cbuf (b : Nat) (v : Vec) (s : State) : (writeSlot b v s).cbuf = s.cbuf := rfl
@[simp] theorem writeSlot_fault (b : Nat) (v : Vec) (s : State) : (writeSlot b v s).fault = s.fault := rfl
@[simp] theorem writeSlot_trace (b : Nat) (v : Vec) (s : State) : (writeSlot b v s).trace = s.trace := rfl
@[simp] theorem writeSlot_hosts (b : Nat) (v : Vec) (s : State) : (writeSlot b v s).hosts = s.hosts := rfl
@[simp] theorem writeSlot_port (b : Nat) (v : Vec) (s : State) : (writeSlot b v s).port = s.port := rfl
@[simp] theorem writeSlot_released (b : Nat) (v : Vec) (s : State) : (writeSlot b v s).released = s.released := rfl
@[simp] theorem writeSlot_choices (b : Nat) (v : Vec) (s : State) : (writeSlot b v s).choices = s.choices := rfl
@[simp] theorem writeSlot_freeCtr (b : Nat) (v : Vec) (s : State) : (writeSlot b v s).freeCtr = s.freeCtr := rfl
@[simp] theorem writeSlot_snrFree (b : Nat) (v : Vec) (s : State) : (writeSlot b v s).snrFree = s.snrFree := rfl

/-! `observe` -/

@[simp] theorem observe_cfg (e : Event) (s : State) : (observe e s).cfg = s.cfg := rfl
@[simp] theorem observe_slots (e : Event) (s : State) : (observe e s).slots = s.slots := rfl
@[simp] theorem observe_pending (e : Event) (s : State) : (observe e s).pending = s.pending := rfl
@[simp] theorem observe_curblk (e : Event) (s : State) : (observe e s).curblk = s.curblk := rfl
@[simp] theorem observe_work (e : Event) (s : State) : (observe e s).work = s.work := rfl
@[simp] theorem observe_ref (e : Event) (s : State) : (observe e s).ref = s.ref := rfl
@[simp] theorem observe_running (e : Event) (s : State) : (observe e s).running = s.running := rfl
@[simp] theorem observe_wphase (e : Event) (s : State) : (observe e s).wphase = s.wphase := rfl
@[simp] theorem observe_snr (e : Event) (s : State) : (observe e s).snr = s.snr := rfl
@[simp] theorem observe_snrCnt (e : Event) (s : State) : (observe e s).snrCnt = s.snrCnt := rfl
@[simp] theorem observe_cbuf (e : Event) (s : State) : (observe e s).cbuf = s.cbuf := rfl
@[simp] theorem observe_fault (e : Event) (s : State) : (observe e s).fault = s.fault := rfl
@[simp] theorem observe_trace (e : Event) (s : State) : (observe e s).trace = s.trace ++ [e] := rfl
@[simp] theorem observe_hosts (e : Event) (s : State) : (observe e s).hosts = s.hosts := rfl
@[simp] theorem observe_port (e : Event) (s : State) : (observe e s).port = s.port := rfl
@[simp] theorem observe_released (e : Event) (s : State) : (observe e s).released = s.released := rfl
@[simp] theorem observe_choices (e : Event) (s : State) : (observe e s).choices = s.choices := rfl
@[simp] theorem observe_freeCtr (e : Event) (s : State) : (observe e s).freeCtr = s.freeCtr := rfl
@[simp] theorem observe_snrFree (e : Event) (s : State) : (observe e s).snrFree = s.snrFree := rfl

/-! `emit` -/

@[simp] theorem emit_cfg (r : Record) (s : State) : (emit r s).cfg = s.cfg := rfl
@[simp] theorem emit_slots (r : Record) (s : State) : (emit r s).slots = s.slots := rfl
@[simp] theorem emit_pending (r : Record) (s : State) : (emit r s).pending = s.pending := rfl
@[simp] theorem emit_curblk (r : Record) (s : State) : (emit r s).curblk = s.curblk := rfl
@[simp] theorem emit_work (r : Record) (s : State) : (emit r s).work = s.work := rfl
@[simp] theorem emit_ref (r : Record) (s : State) : (emit r s).ref = s.ref := rfl
@[simp] theorem emit_running (r : Record) (s : State) : (emit r s).running = s.running := rfl
@[simp] theorem emit_wphase (r : Record) (s : State) : (emit r s).wphase = s.wphase := rfl
@[simp] theorem emit_snr (r : Record) (s : State) : (emit r s).snr = s.snr := rfl
@[simp] theorem emit_snrCnt (r : Record) (s : State) : (emit r s).snrCnt = s.snrCnt := rfl
@[simp] theorem emit_cbuf (r : Record) (s : State) : (emit r s).cbuf = s.cbuf := rfl
@[simp] theorem emit_fault (r : Record) (s : State) : (emit r s).fault = s.fault := rfl
@[simp] theorem emit_trace (r : Record) (s : State) : (emit r s).trace = s.trace ++ [.record r] := rfl
@[simp] theorem emit_hosts (r : Record) (s : State) : (emit r s).hosts = s.hosts := rfl
@[simp] theorem emit_port (r : Record) (s : State) : (emit r s).port = s.port := rfl
@[simp] theorem emit_released (r : Record) (s : State) : (emit r s).released = s.released := rfl
@[simp] theorem emit_choices (r : Record) (s : State) : (emit r s).choices = s.choices := rfl
@[simp] theorem emit_freeCtr (r : Record) (s : State) : (emit r s).freeCtr = s.freeCtr := rfl
@[simp] theorem emit_snrFree (r : Record) (s : State) : (emit r s).snrFree = s.snrFree := rfl

/-! `respond` -/

@[simp] theorem respond_cfg (r : Response) (s : State) : (respond r s).cfg = s.cfg := rfl
@[simp] theorem respond_slots (r : Response) (s : State) : (respond r s).slots = s.slots := rfl
@[simp] theorem respond_pending (r : Response) (s : State) : (respond r s).pending = s.pending := rfl
@[simp] theorem respond_curblk (r : Response) (s : State) : (respond r s).curblk = s.curblk := rfl
@[simp] theorem respond_work (r : Response) (s : State) : (respond r s).work = s.work := rfl
@[simp] theorem respond_ref (r : Response) (s : State) : (respond r s).ref = s.ref := rfl
@[simp] theorem respond_running (r : Response) (s : State) : (respond r s).running = s.running := rfl
@[simp] theorem respond_wphase (r : Response) (s : State) : (respond r s).wphase = s.wphase := rfl
@[simp] theorem respond_snr (r : Response) (s : State) : (respond r s).snr = s.snr := rfl
@[simp] theorem respond_snrCnt (r : Response) (s : State) : (respond r s).snrCnt = s.snrCnt := rfl
@[simp] theorem respond_cbuf (r : Response) (s : State) : (respond r s).cbuf = s.cbuf := rfl
@[simp] theorem respond_fault (r : Response) (s : State) : (respond r s).fault = s.fault := rfl
@[simp] theorem respond_trace (r : Response) (s : State) : (respond r s).trace = s.trace ++ [.response s.port.host r] := rfl
@[simp] theorem respond_hosts (r : Response) (s : State) : (respond r s).hosts = s.hosts := rfl
@[simp] theorem respond_port (r : Response) (s : State) : (respond r s).port = s.port := rfl
@[simp] theorem respond_released (r : Response) (s : State) : (respond r s).released = s.released := rfl
@[simp] theorem respond_choices (r : Response) (s : State) : (respond r s).choices = s.choices := rfl
@[simp] theorem respond_freeCtr (r : Response) (s : State) : (respond r s).freeCtr = s.freeCtr := rfl
@[simp] theorem respond_snrFree (r : Response) (s : State) : (respond r s).snrFree = s.snrFree := rfl

/-! `commitIngest` -/

@[simp] theorem commitIngest_cfg (b : Nat) (v : Vec) (s : State) : (commitIngest b v s).cfg = s.cfg := rfl
@[simp] theorem commitIngest_slots (b : Nat) (v : Vec) (s : State) : (commitIngest b v s).slots = s.slots.set b (some v) := rfl
@[simp] theorem commitIngest_pending (b : Nat) (v : Vec) (s : State) : (commitIngest b v s).pending = s.pending + 1#32 := rfl
@[simp] theorem commitIngest_curblk (b : Nat) (v : Vec) (s : State) : (commitIngest b v s).curblk = s.curblk := rfl
@[simp] theorem commitIngest_work (b : Nat) (v : Vec) (s : State) : (commitIngest b v s).work = s.work := rfl
@[simp] theorem commitIngest_ref (b : Nat) (v : Vec) (s : State) : (commitIngest b v s).ref = s.ref := rfl
@[simp] theorem commitIngest_running (b : Nat) (v : Vec) (s : State) : (commitIngest b v s).running = s.running := rfl
@[simp] theorem commitIngest_wphase (b : Nat) (v : Vec) (s : State) : (commitIngest b v s).wphase = s.wphase := rfl
@[simp] theorem commitIngest_snr (b : Nat) (v : Vec) (s : State) : (commitIngest b v s).snr = s.snr := rfl
@[simp] theorem commitIngest_snrCnt (b : Nat) (v : Vec) (s : State) : (commitIngest b v s).snrCnt = s.snrCnt := rfl
@[simp] theorem commitIngest_cbuf (b : Nat) (v : Vec) (s : State) : (commitIngest b v s).cbuf = s.cbuf := rfl
@[simp] theorem commitIngest_fault (b : Nat) (v : Vec) (s : State) : (commitIngest b v s).fault = s.fault := rfl
@[simp] theorem commitIngest_trace (b : Nat) (v : Vec) (s : State) : (commitIngest b v s).trace = s.trace := rfl
@[simp] theorem commitIngest_hosts (b : Nat) (v : Vec) (s : State) : (commitIngest b v s).hosts = s.hosts := rfl
@[simp] theorem commitIngest_port (b : Nat) (v : Vec) (s : State) : (commitIngest b v s).port = s.port := rfl
@[simp] theorem commitIngest_released (b : Nat) (v : Vec) (s : State) : (commitIngest b v s).released = s.released := rfl
@[simp] theorem commitIngest_choices (b : Nat) (v : Vec) (s : State) : (commitIngest b v s).choices = s.choices := rfl
@[simp] theorem commitIngest_freeCtr (b : Nat) (v : Vec) (s : State) : (commitIngest b v s).freeCtr = s.freeCtr := rfl
@[simp] theorem commitIngest_snrFree (b : Nat) (v : Vec) (s : State) : (commitIngest b v s).snrFree = s.snrFree := rfl

/-! `writeWork` -/

@[simp] theorem writeWork_cfg (v : Vec) (s : State) : (writeWork v s).cfg = s.cfg := rfl
@[simp] theorem writeWork_slots (v : Vec) (s : State) : (writeWork v s).slots = s.slots := rfl
@[simp] theorem writeWork_pending (v : Vec) (s : State) : (writeWork v s).pending = s.pending := rfl
@[simp] theorem writeWork_curblk (v : Vec) (s : State) : (writeWork v s).curblk = s.curblk := rfl
@[simp] theorem writeWork_work (v : Vec) (s : State) : (writeWork v s).work = some v := rfl
@[simp] theorem writeWork_ref (v : Vec) (s : State) : (writeWork v s).ref = s.ref := rfl
@[simp] theorem writeWork_running (v : Vec) (s : State) : (writeWork v s).running = s.running := rfl
@[simp] theorem writeWork_wphase (v : Vec) (s : State) : (writeWork v s).wphase = s.wphase := rfl
@[simp] theorem writeWork_snr (v : Vec) (s : State) : (writeWork v s).snr = s.snr := rfl
@[simp] theorem writeWork_snrCnt (v : Vec) (s : State) : (writeWork v s).snrCnt = s.snrCnt := rfl
@[simp] theorem writeWork_cbuf (v : Vec) (s : State) : (writeWork v s).cbuf = s.cbuf := rfl
@[simp] theorem writeWork_fault (v : Vec) (s : State) : (writeWork v s).fault = s.fault := rfl
@[simp] theorem writeWork_trace (v : Vec) (s : State) : (writeWork v s).trace = s.trace := rfl
@[simp] theorem writeWork_hosts (v : Vec) (s : State) : (writeWork v s).hosts = s.hosts := rfl
@[simp] theorem writeWork_port (v : Vec) (s : State) : (writeWork v s).port = s.port := rfl
@[simp] theorem writeWork_released (v : Vec) (s : State) : (writeWork v s).released = s.released := rfl
@[simp] theorem writeWork_choices (v : Vec) (s : State) : (writeWork v s).choices = s.choices := rfl
@[simp] theorem writeWork_freeCtr (v : Vec) (s : State) : (writeWork v s).freeCtr = s.freeCtr := rfl
@[simp] theorem writeWork_snrFree (v : Vec) (s : State) : (writeWork v s).snrFree = s.snrFree := rfl

/-! `dataApply` -/

@[simp] theorem dataApply_cfg (x : Vec) (a : CarrierAcc) (s : State) : (dataApply x a s).cfg = s.cfg := rfl
@[simp] theorem dataApply_slots (x : Vec) (a : CarrierAcc) (s : State) : (dataApply x a s).slots = s.slots := rfl
@[simp] theorem dataApply_pending (x : Vec) (a : CarrierAcc) (s : State) : (dataApply x a s).pending = s.pending := rfl
@[simp] theorem dataApply_curblk (x : Vec) (a : CarrierAcc) (s : State) : (dataApply x a s).curblk = s.curblk := rfl
@[simp] theorem dataApply_work (x : Vec) (a : CarrierAcc) (s : State) : (dataApply x a s).work = some x := rfl
@[simp] theorem dataApply_ref (x : Vec) (a : CarrierAcc) (s : State) : (dataApply x a s).ref = a.ref := rfl
@[simp] theorem dataApply_running (x : Vec) (a : CarrierAcc) (s : State) : (dataApply x a s).running = s.running := rfl
@[simp] theorem dataApply_wphase (x : Vec) (a : CarrierAcc) (s : State) : (dataApply x a s).wphase = s.wphase := rfl
@[simp] theorem dataApply_snr (x : Vec) (a : CarrierAcc) (s : State) : (dataApply x a s).snr = s.snr := rfl
@[simp] theorem dataApply_snrCnt (x : Vec) (a : CarrierAcc) (s : State) : (dataApply x a s).snrCnt = s.snrCnt := rfl
@[simp] theorem dataApply_cbuf (x : Vec) (a : CarrierAcc) (s : State) : (dataApply x a s).cbuf = a.cbuf := rfl
@[simp] theorem dataApply_fault (x : Vec) (a : CarrierAcc) (s : State) : (dataApply x a s).fault = s.fault := rfl
@[simp] theorem dataApply_trace (x : Vec) (a : CarrierAcc) (s : State) : (dataApply x a s).trace = s.trace ++ [.record (blockRecord s.cfg s.curblk a.bits)] := rfl
@[simp] theorem dataApply_hosts (x : Vec) (a : CarrierAcc) (s : State) : (dataApply x a s).hosts = s.hosts := rfl
@[simp] theorem dataApply_port (x : Vec) (a : CarrierAcc) (s : State) : (dataApply x a s).port = s.port := rfl
@[simp] theorem dataApply_released (x : Vec) (a : CarrierAcc) (s : State) : (dataApply x a s).released = s.released := rfl
@[simp] theorem dataApply_choices (x : Vec) (a : CarrierAcc) (s : State) : (dataApply x a s).choices = s.choices := rfl
@[simp] theorem dataApply_freeCtr (x : Vec) (a : CarrierAcc) (s : State) : (dataApply x a s).freeCtr = s.freeCtr := rfl
@[simp] theorem dataApply_snrFree (x : Vec) (a : CarrierAcc) (s : State) : (dataApply x a s).snrFree = s.snrFree := rfl

/-! `uninitStop` -/

@[simp] theorem uninitStop_cfg (s : State) : (uninitStop s).cfg = s.cfg := rfl
@[simp] theorem uninitStop_slots (s : State) : (uninitStop s).slots = s.slots := rfl
@[simp] theorem uninitStop_pending (s : State) : (uninitStop s).pending = s.pending := rfl
@[simp] theorem uninitStop_curblk (s : State) : (uninitStop s).curblk = s.curblk := rfl
@[simp] theorem uninitStop_work (s : State) : (uninitStop s).work = s.work := rfl
@[simp] theorem uninitStop_ref (s : State) : (uninitStop s).ref = s.ref := rfl
@[simp] theorem uninitStop_running (s : State) : (uninitStop s).running = s.running := rfl
@[simp] theorem uninitStop_wphase (s : State) : (uninitStop s).wphase = .faulted := rfl
@[simp] theorem uninitStop_snr (s : State) : (uninitStop s).snr = s.snr := rfl
@[simp] theorem uninitStop_snrCnt (s : State) : (uninitStop s).snrCnt = s.snrCnt := rfl
@[simp] theorem uninitStop_cbuf (s : State) : (uninitStop s).cbuf = s.cbuf := rfl
@[simp] theorem uninitStop_fault (s : State) : (uninitStop s).fault = s.fault ||| faultMask .uninitRead := rfl
@[simp] theorem uninitStop_trace (s : State) : (uninitStop s).trace = s.trace := rfl
@[simp] theorem uninitStop_hosts (s : State) : (uninitStop s).hosts = s.hosts := rfl
@[simp] theorem uninitStop_port (s : State) : (uninitStop s).port = s.port := rfl
@[simp] theorem uninitStop_released (s : State) : (uninitStop s).released = s.released := rfl
@[simp] theorem uninitStop_choices (s : State) : (uninitStop s).choices = s.choices := rfl
@[simp] theorem uninitStop_freeCtr (s : State) : (uninitStop s).freeCtr = s.freeCtr := rfl
@[simp] theorem uninitStop_snrFree (s : State) : (uninitStop s).snrFree = s.snrFree := rfl

/-! `storeReference` -/

@[simp] theorem storeReference_cfg (x : Vec) (s : State) : (storeReference x s).cfg = s.cfg := rfl
@[simp] theorem storeReference_slots (x : Vec) (s : State) : (storeReference x s).slots = s.slots := rfl
@[simp] theorem storeReference_pending (x : Vec) (s : State) : (storeReference x s).pending = s.pending := rfl
@[simp] theorem storeReference_curblk (x : Vec) (s : State) : (storeReference x s).curblk = s.curblk := rfl
@[simp] theorem storeReference_work (x : Vec) (s : State) : (storeReference x s).work = s.work := rfl
@[simp] theorem storeReference_ref (x : Vec) (s : State) : (storeReference x s).ref = x.map some := rfl
@[simp] theorem storeReference_running (x : Vec) (s : State) : (storeReference x s).running = s.running := rfl
@[simp] theorem storeReference_wphase (x : Vec) (s : State) : (storeReference x s).wphase = s.wphase := rfl
@[simp] theorem storeReference_snr (x : Vec) (s : State) : (storeReference x s).snr = s.snr := rfl
@[simp] theorem storeReference_snrCnt (x : Vec) (s : State) : (storeReference x s).snrCnt = s.snrCnt := rfl
@[simp] theorem storeReference_cbuf (x : Vec) (s : State) : (storeReference x s).cbuf = s.cbuf := rfl
@[simp] theorem storeReference_fault (x : Vec) (s : State) : (storeReference x s).fault = s.fault := rfl
@[simp] theorem storeReference_trace (x : Vec) (s : State) : (storeReference x s).trace = s.trace := rfl
@[simp] theorem storeReference_hosts (x : Vec) (s : State) : (storeReference x s).hosts = s.hosts := rfl
@[simp] theorem storeReference_port (x : Vec) (s : State) : (storeReference x s).port = s.port := rfl
@[simp] theorem storeReference_released (x : Vec) (s : State) : (storeReference x s).released = s.released := rfl
@[simp] theorem storeReference_choices (x : Vec) (s : State) : (storeReference x s).choices = s.choices := rfl
@[simp] theorem storeReference_freeCtr (x : Vec) (s : State) : (storeReference x s).freeCtr = s.freeCtr := rfl
@[simp] theorem storeReference_snrFree (x : Vec) (s : State) : (storeReference x s).snrFree = s.snrFree := rfl

/-! `flush` -/

@[simp] theorem flush_cfg (s : State) : (flush s).cfg = s.cfg := rfl
@[simp] theorem flush_slots (s : State) : (flush s).slots = s.slots := rfl
@[simp] theorem flush_pending (s : State) : (flush s).pending = s.pending := rfl
@[simp] theorem flush_curblk (s : State) : (flush s).curblk = s.curblk := rfl
@[simp] theorem flush_work (s : State) : (flush s).work = s.work := rfl
@[simp] theorem flush_ref (s : State) : (flush s).ref = s.ref := rfl
@[simp] theorem flush_running (s : State) : (flush s).running = s.running := rfl
@[simp] theorem flush_wphase (s : State) : (flush s).wphase = s.wphase := rfl
@[simp] theorem flush_snr (s : State) : (flush s).snr = s.snr := rfl
@[simp] theorem flush_snrCnt (s : State) : (flush s).snrCnt = s.snrCnt := rfl
@[simp] theorem flush_cbuf (s : State) : (flush s).cbuf = [] := rfl
@[simp] theorem flush_fault (s : State) : (flush s).fault = s.fault := rfl
@[simp] theorem flush_trace (s : State) : (flush s).trace = s.trace ++ [.record (.const s.cbuf)] := rfl
@[simp] theorem flush_hosts (s : State) : (flush s).hosts = s.hosts := rfl
@[simp] theorem flush_port (s : State) : (flush s).port = s.port := rfl
@[simp] theorem flush_released (s : State) : (flush s).released = s.released := rfl
@[simp] theorem flush_choices (s : State) : (flush s).choices = s.choices := rfl
@[simp] theorem flush_freeCtr (s : State) : (flush s).freeCtr = s.freeCtr := rfl
@[simp] theorem flush_snrFree (s : State) : (flush s).snrFree = s.snrFree := rfl

/-! `retireCounters` -/

@[simp] theorem retireCounters_cfg (s : State) : (retireCounters s).cfg = s.cfg := rfl
@[simp] theorem retireCounters_slots (s : State) : (retireCounters s).slots = s.slots := rfl
@[simp] theorem retireCounters_pending (s : State) : (retireCounters s).pending = s.pending - 1#32 := rfl
@[simp] theorem retireCounters_curblk (s : State) : (retireCounters s).curblk = nextPosition s.cfg s.curblk := rfl
@[simp] theorem retireCounters_work (s : State) : (retireCounters s).work = s.work := rfl
@[simp] theorem retireCounters_ref (s : State) : (retireCounters s).ref = s.ref := rfl
@[simp] theorem retireCounters_running (s : State) : (retireCounters s).running = s.running := rfl
@[simp] theorem retireCounters_wphase (s : State) : (retireCounters s).wphase = s.wphase := rfl
@[simp] theorem retireCounters_snr (s : State) : (retireCounters s).snr = s.snr := rfl
@[simp] theorem retireCounters_snrCnt (s : State) : (retireCounters s).snrCnt = s.snrCnt := rfl
@[simp] theorem retireCounters_cbuf (s : State) : (retireCounters s).cbuf = s.cbuf := rfl
@[simp] theorem retireCounters_fault (s : State) : (retireCounters s).fault = s.fault := rfl
@[simp] theorem retireCounters_trace (s : State) : (retireCounters s).trace = s.trace := rfl
@[simp] theorem retireCounters_hosts (s : State) : (retireCounters s).hosts = s.hosts := rfl
@[simp] theorem retireCounters_port (s : State) : (retireCounters s).port = s.port := rfl
@[simp] theorem retireCounters_released (s : State) : (retireCounters s).released = s.released := rfl
@[simp] theorem retireCounters_choices (s : State) : (retireCounters s).choices = s.choices := rfl
@[simp] theorem retireCounters_freeCtr (s : State) : (retireCounters s).freeCtr = s.freeCtr := rfl
@[simp] theorem retireCounters_snrFree (s : State) : (retireCounters s).snrFree = s.snrFree := rfl

/-! `workerExit` -/

@[simp] theorem workerExit_cfg (s : State) : (workerExit s).cfg = s.cfg := rfl
@[simp] theorem workerExit_slots (s : State) : (workerExit s).slots = s.slots := rfl
@[simp] theorem workerExit_pending (s : State) : (workerExit s).pending = s.pending := rfl
@[simp] theorem workerExit_curblk (s : State) : (workerExit s).curblk = s.curblk := rfl
@[simp] theorem workerExit_work (s : State) : (workerExit s).work = s.work := rfl
@[simp] theorem workerExit_ref (s : State) : (workerExit s).ref = s.ref := rfl
@[simp] theorem workerExit_running (s : State) : (workerExit s).running = s.running := rfl
@[simp] theorem workerExit_wphase (s : State) : (workerExit s).wphase = .exited := rfl
@[simp] theorem workerExit_snr (s : State) : (workerExit s).snr = s.snr := rfl
@[simp] theorem workerExit_snrCnt (s : State) : (workerExit s).snrCnt = s.snrCnt := rfl
@[simp] theorem workerExit_cbuf (s : State) : (workerExit s).cbuf = s.cbuf := rfl
@[simp] theorem workerExit_fault (s : State) : (workerExit s).fault = s.fault := rfl
@[simp] theorem workerExit_trace (s : State) : (workerExit s).trace = s.trace := rfl
@[simp] theorem workerExit_hosts (s : State) : (workerExit s).hosts = s.hosts := rfl
@[simp] theorem workerExit_port (s : State) : (workerExit s).port = s.port := rfl
@[simp] theorem workerExit_released (s : State) : (workerExit s).released = s.released := rfl
@[simp] theorem workerExit_choices (s : State) : (workerExit s).choices = s.choices := rfl
@[simp] theorem workerExit_freeCtr (s : State) : (workerExit s).freeCtr = s.freeCtr := rfl
@[simp] theorem workerExit_snrFree (s : State) : (workerExit s).snrFree = s.snrFree := rfl

/-! `accept` -/

@[simp] theorem accept_cfg (h : Nat) (rest : List HostReq) (p : List Byte) (s : State) : (accept h rest p s).cfg = s.cfg := rfl
@[simp] theorem accept_slots (h : Nat) (rest : List HostReq) (p : List Byte) (s : State) : (accept h rest p s).slots = s.slots := rfl
@[simp] theorem accept_pending (h : Nat) (rest : List HostReq) (p : List Byte) (s : State) : (accept h rest p s).pending = s.pending := rfl
@[simp] theorem accept_curblk (h : Nat) (rest : List HostReq) (p : List Byte) (s : State) : (accept h rest p s).curblk = s.curblk := rfl
@[simp] theorem accept_work (h : Nat) (rest : List HostReq) (p : List Byte) (s : State) : (accept h rest p s).work = s.work := rfl
@[simp] theorem accept_ref (h : Nat) (rest : List HostReq) (p : List Byte) (s : State) : (accept h rest p s).ref = s.ref := rfl
@[simp] theorem accept_running (h : Nat) (rest : List HostReq) (p : List Byte) (s : State) : (accept h rest p s).running = s.running := rfl
@[simp] theorem accept_wphase (h : Nat) (rest : List HostReq) (p : List Byte) (s : State) : (accept h rest p s).wphase = s.wphase := rfl
@[simp] theorem accept_snr (h : Nat) (rest : List HostReq) (p : List Byte) (s : State) : (accept h rest p s).snr = s.snr := rfl
@[simp] theorem accept_snrCnt (h : Nat) (rest : List HostReq) (p : List Byte) (s : State) : (accept h rest p s).snrCnt = s.snrCnt := rfl
@[simp] theorem accept_cbuf (h : Nat) (rest : List HostReq) (p : List Byte) (s : State) : (accept h rest p s).cbuf = s.cbuf := rfl
@[simp] theorem accept_fault (h : Nat) (rest : List HostReq) (p : List Byte) (s : State) : (accept h rest p s).fault = s.fault := rfl
@[simp] theorem accept_trace (h : Nat) (rest : List HostReq) (p : List Byte) (s : State) : (accept h rest p s).trace = s.trace := rfl
@[simp] theorem accept_hosts (h : Nat) (rest : List HostReq) (p : List Byte) (s : State) : (accept h rest p s).hosts = s.hosts.set h rest := rfl
@[simp] theorem accept_port (h : Nat) (rest : List HostReq) (p : List Byte) (s : State) : (accept h rest p s).port = ⟨h, p⟩ := rfl
@[simp] theorem accept_released (h : Nat) (rest : List HostReq) (p : List Byte) (s : State) : (accept h rest p s).released = s.released := rfl
@[simp] theorem accept_choices (h : Nat) (rest : List HostReq) (p : List Byte) (s : State) : (accept h rest p s).choices = s.choices := rfl
@[simp] theorem accept_freeCtr (h : Nat) (rest : List HostReq) (p : List Byte) (s : State) : (accept h rest p s).freeCtr = s.freeCtr := rfl
@[simp] theorem accept_snrFree (h : Nat) (rest : List HostReq) (p : List Byte) (s : State) : (accept h rest p s).snrFree = s.snrFree := rfl

/-! `supply` -/

@[simp] theorem hostLists_length (n : Nat) (hosts : List (List HostReq)) : (hostLists n hosts).length = n := by simp [hostLists]

/-- What the outside supplies keeps the structural invariant. -/
theorem supply_inv {s : State} (h : s.Inv) (hosts : List (List HostReq)) (choices : List Nat) : (s.supply hosts choices).Inv :=
  ⟨h.cfgLegal, h.storage, h.position, h.count, h.working, h.inFlight, h.reference, h.taps, h.stopped, hostLists_length _ _⟩


@[simp] theorem supply_cfg (s : State) (hosts : List (List HostReq)) (choices : List Nat) : (State.supply s hosts choices).cfg = s.cfg := rfl
@[simp] theorem supply_slots (s : State) (hosts : List (List HostReq)) (choices : List Nat) : (State.supply s hosts choices).slots = s.slots := rfl
@[simp] theorem supply_pending (s : State) (hosts : List (List HostReq)) (choices : List Nat) : (State.supply s hosts choices).pending = s.pending := rfl
@[simp] theorem supply_curblk (s : State) (hosts : List (List HostReq)) (choices : List Nat) : (State.supply s hosts choices).curblk = s.curblk := rfl
@[simp] theorem supply_work (s : State) (hosts : List (List HostReq)) (choices : List Nat) : (State.supply s hosts choices).work = s.work := rfl
@[simp] theorem supply_ref (s : State) (hosts : List (List HostReq)) (choices : List Nat) : (State.supply s hosts choices).ref = s.ref := rfl
@[simp] theorem supply_running (s : State) (hosts : List (List HostReq)) (choices : List Nat) : (State.supply s hosts choices).running = s.running := rfl
@[simp] theorem supply_wphase (s : State) (hosts : List (List HostReq)) (choices : List Nat) : (State.supply s hosts choices).wphase = s.wphase := rfl
@[simp] theorem supply_snr (s : State) (hosts : List (List HostReq)) (choices : List Nat) : (State.supply s hosts choices).snr = s.snr := rfl
@[simp] theorem supply_snrCnt (s : State) (hosts : List (List HostReq)) (choices : List Nat) : (State.supply s hosts choices).snrCnt = s.snrCnt := rfl
@[simp] theorem supply_cbuf (s : State) (hosts : List (List HostReq)) (choices : List Nat) : (State.supply s hosts choices).cbuf = s.cbuf := rfl
@[simp] theorem supply_fault (s : State) (hosts : List (List HostReq)) (choices : List Nat) : (State.supply s hosts choices).fault = s.fault := rfl
@[simp] theorem supply_trace (s : State) (hosts : List (List HostReq)) (choices : List Nat) : (State.supply s hosts choices).trace = s.trace := rfl
@[simp] theorem supply_hosts (s : State) (hosts : List (List HostReq)) (choices : List Nat) : (State.supply s hosts choices).hosts = hostLists s.cfg.nHost hosts := rfl
@[simp] theorem supply_port (s : State) (hosts : List (List HostReq)) (choices : List Nat) : (State.supply s hosts choices).port = s.port := rfl
@[simp] theorem supply_released (s : State) (hosts : List (List HostReq)) (choices : List Nat) : (State.supply s hosts choices).released = s.released := rfl
@[simp] theorem supply_choices (s : State) (hosts : List (List HostReq)) (choices : List Nat) : (State.supply s hosts choices).choices = choices := rfl
@[simp] theorem supply_freeCtr (s : State) (hosts : List (List HostReq)) (choices : List Nat) : (State.supply s hosts choices).freeCtr = s.freeCtr := rfl
@[simp] theorem supply_snrFree (s : State) (hosts : List (List HostReq)) (choices : List Nat) : (State.supply s hosts choices).snrFree = s.snrFree := rfl

end Sys2Proof.Machine
end

