-- ==== Sys2Proof/Laws/Ops.lean ====
section
/-! SUPPORT. One spec lemma per shared operation: what each can do, and that the storage operations keep the canonical form. -/

namespace Sys2Proof.Machine

/-- A fault bit is set after raising it, and every other bit is as before (rules R32, R250). -/
@[simp] theorem faultSet_raiseFault (f g : FaultBit) (s : State) :
    faultSet (raiseFault f s) g = (faultSet s g || decide (f = g)) := by
  cases f <;> cases g <;> simp [faultSet, faultMask, faultIndex]

/-- Marking an overrun changes the fault word alone (rule R256). -/
theorem markOverrun_eq (s : State) :
    markOverrun s = { s with fault := if s.cfg.l ≤ s.pending.toNat then s.fault ||| faultMask .overrun else s.fault } := by
  unfold markOverrun raiseFault
  split <;> simp

/-- An ingress at the last value of the counter sets PEND_SAT and nothing else (rule R254). -/
theorem ingestTail_saturated (b : Nat) (v : Vec) {s : State} (h : s.pending = pendMax) :
    ingestTail b v s = raiseFault .pendSat s := by
  simp [ingestTail, h]

/-- Any other ingress writes its slot and counts (rule R100). -/
theorem ingestTail_commits (b : Nat) (v : Vec) {s : State} (h : s.pending ≠ pendMax) :
    ingestTail b v s = commitIngest b v (markOverrun s) := by
  simp [ingestTail, h]

@[simp] theorem readSlot_writeSlot_self {b : Nat} (v : Vec) {s : State} (h : b < s.slots.length) :
    readSlot (writeSlot b v s) b = some v := by
  simp [readSlot, List.getElem?_set_self h]

@[simp] theorem readSlot_writeSlot_other {a b : Nat} (v : Vec) (s : State) (h : b ≠ a) :
    readSlot (writeSlot b v s) a = readSlot s a := by
  simp [readSlot, List.getElem?_set_ne h]

theorem readSlot_congr {s t : State} (h : t.slots = s.slots) (b : Nat) : readSlot t b = readSlot s b := by
  simp [readSlot, h]

@[simp] theorem readRef_set_self {ref : List (Option Cplx)} {k : Nat} (z : Cplx) (h : k < ref.length) :
    readRef (ref.set k (some z)) k = some z := by
  simp [readRef, List.getElem?_set_self h]

@[simp] theorem readRef_set_other {ref : List (Option Cplx)} {j k : Nat} (z : Cplx) (h : k ≠ j) :
    readRef (ref.set k (some z)) j = readRef ref j := by
  simp [readRef, List.getElem?_set_ne h]

@[simp] theorem readRef_map_some (x : Vec) (k : Nat) : readRef (x.map some) k = x[k]? := by
  simp only [readRef, List.getElem?_map]
  cases x[k]? <;> rfl

theorem samplesOf_length : ∀ (n : Nat) (p : List Byte), p.length = 8 * n → (samplesOf p).length = n := by
  intro n
  induction n with
  | zero => intro p h; obtain rfl := List.eq_nil_of_length_eq_zero (by omega); rfl
  | succ n ih =>
    intro p h
    match p, h with
    | a0 :: a1 :: a2 :: a3 :: b0 :: b1 :: b2 :: b3 :: rest, h =>
      simp only [samplesOf, List.length_cons]
      rw [ih rest (by simp only [List.length_cons] at h; omega)]

/-- The useful part of a payload of the right length has `T_u` samples (rules R101, R102). -/
theorem usefulPart_length {c : Config} {off n : Nat} {p : List Byte} (h : p.length = 8 * n) (hn : off + c.tU ≤ n) :
    (usefulPart c off (samplesOf p)).length = c.tU := by
  simp only [usefulPart, List.length_take, List.length_drop, samplesOf_length n p h]
  omega

/-! The retire (rules R134, R135): each field once. -/

@[simp] theorem retire_pending (s : State) : (retire s).pending = s.pending - 1#32 := by
  unfold retire flushAtWrap; split <;> simp

@[simp] theorem retire_curblk (s : State) : (retire s).curblk = nextPosition s.cfg s.curblk := by
  unfold retire flushAtWrap; split <;> simp

@[simp] theorem retire_wphase (s : State) : (retire s).wphase = .wait := rfl

theorem retire_cbuf (s : State) :
    (retire s).cbuf = if nextPosition s.cfg s.curblk = 0 then [] else s.cbuf := by
  by_cases h : nextPosition s.cfg s.curblk = 0 <;> simp [retire, flushAtWrap, h]

theorem retire_trace (s : State) :
    (retire s).trace =
      if nextPosition s.cfg s.curblk = 0 then s.trace ++ [.record (.const s.cbuf)] else s.trace := by
  by_cases h : nextPosition s.cfg s.curblk = 0 <;> simp [retire, flushAtWrap, h]

@[simp] theorem retire_cfg (s : State) : (retire s).cfg = s.cfg := by unfold retire flushAtWrap; split <;> simp
@[simp] theorem retire_slots (s : State) : (retire s).slots = s.slots := by unfold retire flushAtWrap; split <;> simp
@[simp] theorem retire_work (s : State) : (retire s).work = s.work := by unfold retire flushAtWrap; split <;> simp
@[simp] theorem retire_ref (s : State) : (retire s).ref = s.ref := by unfold retire flushAtWrap; split <;> simp
@[simp] theorem retire_running (s : State) : (retire s).running = s.running := by unfold retire flushAtWrap; split <;> simp
@[simp] theorem retire_snr (s : State) : (retire s).snr = s.snr := by unfold retire flushAtWrap; split <;> simp
@[simp] theorem retire_snrCnt (s : State) : (retire s).snrCnt = s.snrCnt := by unfold retire flushAtWrap; split <;> simp
@[simp] theorem retire_fault (s : State) : (retire s).fault = s.fault := by unfold retire flushAtWrap; split <;> simp
@[simp] theorem retire_hosts (s : State) : (retire s).hosts = s.hosts := by unfold retire flushAtWrap; split <;> simp
@[simp] theorem retire_port (s : State) : (retire s).port = s.port := by unfold retire flushAtWrap; split <;> simp
@[simp] theorem retire_released (s : State) : (retire s).released = s.released := by unfold retire flushAtWrap; split <;> simp
@[simp] theorem retire_choices (s : State) : (retire s).choices = s.choices := by unfold retire flushAtWrap; split <;> simp
@[simp] theorem retire_freeCtr (s : State) : (retire s).freeCtr = s.freeCtr := by unfold retire flushAtWrap; split <;> simp
@[simp] theorem retire_snrFree (s : State) : (retire s).snrFree = s.snrFree := by unfold retire flushAtWrap; split <;> simp

theorem nextPosition_lt {c : Config} (p : Nat) (h : 0 < c.l) : nextPosition c p < c.l := Nat.mod_lt _ h

/-! Phase-reference processing (rules R190, R197, R198): everything it can do. -/

/-- The smoothing changes `snr` and the model's own free-value fields alone. -/
theorem smoothSnr_eq (x : Vec) (s : State) :
    ∃ v n b, smoothSnr x s = { s with snr := v, freeCtr := n, snrFree := b } := by
  unfold smoothSnr; split
  · exact ⟨_, _, _, rfl⟩
  · exact ⟨_, _, _, rfl⟩

/-- The report changes `snr_cnt` and the trace alone. -/
theorem reportSnr_eq (s : State) : ∃ n tr, reportSnr s = { s with snrCnt := n, trace := tr } ∧
    ((s.snrCnt + 1#4 = snrPeriod ∧ n = 0#4 ∧ tr = s.trace ++ [.record (.snr s.snr)]) ∨
     (s.snrCnt + 1#4 ≠ snrPeriod ∧ n = s.snrCnt + 1#4 ∧ tr = s.trace)) := by
  unfold reportSnr
  split
  · exact ⟨_, _, rfl, .inl ⟨‹_›, rfl, rfl⟩⟩
  · exact ⟨_, _, rfl, .inr ⟨‹_›, rfl, rfl⟩⟩

/-- Phase-reference processing writes `work`, `ref`, `snr`, `snr_cnt`, the free-value fields and the trace, and nothing else (rule
R190). -/
theorem prsApply_eq (x : Vec) (s : State) : ∃ v n b cnt tr,
    prsApply x s =
      { s with work := some x, ref := x.map some, snr := v, freeCtr := n, snrFree := b, snrCnt := cnt, trace := tr } ∧
    ((s.snrCnt + 1#4 = snrPeriod ∧ cnt = 0#4 ∧ tr = s.trace ++ [.record (.snr v)]) ∨
     (s.snrCnt + 1#4 ≠ snrPeriod ∧ cnt = s.snrCnt + 1#4 ∧ tr = s.trace)) := by
  obtain ⟨v, n, b, h1⟩ := smoothSnr_eq x (writeWork x s)
  obtain ⟨cnt, tr, h2, h3⟩ := reportSnr_eq (smoothSnr x (writeWork x s))
  refine ⟨v, n, b, cnt, tr, ?_, ?_⟩
  · rw [prsApply, snrUpdate, h2, h1]; rfl
  · rw [h1] at h3; exact h3

@[simp] theorem transform_length (c : Config) (d : Dir) (x : Vec) : (transform c d x).length = c.tU := by
  simp [transform]

theorem transform_getElem? (c : Config) (d : Dir) (x : Vec) {k : Nat} (h : k < c.tU) :
    (transform c d x)[k]? = some (transformBin c d x k) := by
  simp [transform, h]

/-! The canonical form of the storage spaces is kept by every storage operation. -/

theorem storageWf_iff (s : State) : storageWf s = true ↔
    s.slots.length = s.cfg.l ∧ (∀ e, e ∈ s.slots → entryWf s.cfg.tU e = true) ∧ s.ref.length = s.cfg.tU := by
  simp [storageWf, and_assoc]

/-- Reset's storage is in canonical form. -/
theorem initial_storageWf (c : Config) : storageWf (State.initial c) = true := by
  rw [storageWf_iff]
  refine ⟨by simp [State.initial], fun e he => ?_, by simp [State.initial]⟩
  simp only [State.initial, List.mem_replicate] at he
  rw [he.2]; rfl

/-- A write of a vector of the transform length keeps the form (rule R21). -/
theorem writeSlot_storageWf {b : Nat} {v : Vec} {s : State} (hs : storageWf s = true) (hv : v.length = s.cfg.tU) :
    storageWf (writeSlot b v s) = true := by
  rw [storageWf_iff] at hs ⊢
  refine ⟨by simpa using hs.1, fun e he => ?_, hs.2.2⟩
  rcases List.mem_or_eq_of_mem_set he with h | h
  · exact hs.2.1 e h
  · rw [h]; simp [entryWf, hv]

/-- Storing a whole reference of the transform length keeps the form (rule R190). -/
theorem storeReference_storageWf {x : Vec} {s : State} (hs : storageWf s = true) (hx : x.length = s.cfg.tU) :
    storageWf (storeReference x s) = true := by
  rw [storageWf_iff] at hs ⊢
  exact ⟨hs.1, hs.2.1, by simpa using hx⟩

/-- The form depends on the configuration, the slots and the length of the reference alone. -/
theorem storageWf_congr {s t : State} (hc : t.cfg = s.cfg) (hl : t.slots = s.slots)
    (hr : t.ref.length = s.ref.length) : storageWf t = storageWf s := by
  simp [storageWf, hc, hl, hr]

/-- A slot read in canonical form has the transform length (rule R21). -/
theorem readSlot_length {s : State} (hs : storageWf s = true) {b : Nat} {v : Vec} (h : readSlot s b = some v) :
    v.length = s.cfg.tU := by
  rw [storageWf_iff] at hs
  have hm : some v ∈ s.slots := by
    unfold readSlot at h
    cases hb : s.slots[b]? with
    | none => simp [hb] at h
    | some e =>
      rw [hb] at h
      have he : e = some v := by simpa using h
      exact he ▸ List.mem_of_getElem? hb
  simpa [entryWf] using hs.2.1 _ hm

end Sys2Proof.Machine
end

