-- ==== Sys2Proof/Laws/Carrier.lean ====
section
/-! SUPPORT. The carrier map of a legal configuration: bins in range and pairwise distinct (rule R170), and the loop over the
carriers (rule R220). -/

namespace Sys2Proof.Machine

/-- The bit-set check says: no bin seen before, and no bin twice. -/
theorem distinctFrom_iff (seen : Nat) (bs : List Nat) :
    distinctFrom seen bs = true ↔ (∀ b, b ∈ bs → seen.testBit b = false) ∧ bs.Nodup := by
  induction bs generalizing seen with
  | nil => simp [distinctFrom]
  | cons b bs ih =>
    simp only [distinctFrom, Bool.and_eq_true, ih, Bool.not_eq_true', List.nodup_cons, List.mem_cons,
      forall_eq_or_imp, Nat.testBit_or, Bool.or_eq_false_iff, Nat.testBit_two_pow]
    constructor
    · rintro ⟨h1, h2, h3⟩
      refine ⟨⟨h1, fun a ha => (h2 a ha).1⟩, fun hb => ?_, h3⟩
      have := (h2 b hb).2
      simp at this
    · rintro ⟨⟨h1, h2⟩, h3, h4⟩
      refine ⟨h1, fun a ha => ⟨h2 a ha, ?_⟩, h4⟩
      simp only [decide_eq_false_iff_not]
      rintro rfl
      exact h3 ha

theorem configLegal_ranges {c : Config} (h : configLegal c = true) :
    (c.tU % 2 = 0 ∧ 2 ≤ c.tU ∧ c.tU ≤ 65536) ∧ c.tG ≤ 65536 ∧ (1 ≤ c.k ∧ c.k ≤ c.tU) ∧ (1 ≤ c.l ∧ c.l ≤ 65536) ∧
      c.nFic ≤ c.l - 1 ∧ (1 ≤ c.constDecim ∧ c.constDecim ≤ 65535) ∧ 0 < c.dbOffset ∧ 1 ≤ c.nHost := by
  simp only [configLegal, rangesLegal, Bool.and_eq_true, decide_eq_true_eq] at h
  tauto

theorem mapLegal_of {c : Config} (h : configLegal c = true) :
    c.carrierMap.length = c.k ∧ (∀ m, m ∈ c.carrierMap → -(c.tU : Int) ≤ m ∧ m < c.tU) ∧ (carrierBins c).Nodup := by
  simp only [configLegal, mapLegal, Bool.and_eq_true, decide_eq_true_eq, List.all_eq_true, distinctFrom_iff] at h
  exact ⟨h.2.1.1, h.2.1.2, h.2.2.2⟩

theorem wrapBin_range {t : Nat} {m : Int} (h : -(t : Int) ≤ m ∧ m < t) : 0 ≤ wrapBin t m ∧ wrapBin t m < t := by
  unfold wrapBin; split <;> omega

/-- Every carrier of a legal configuration has a bin in range (rule R171). -/
theorem carrierBin_some {c : Config} (h : configLegal c = true) {i : Nat} (hi : i < c.k) :
    ∃ k, carrierBin c i = some k ∧ k < c.tU ∧ (carrierBins c)[i]? = some k := by
  obtain ⟨hlen, hr, -⟩ := mapLegal_of h
  have hi' : i < c.carrierMap.length := by omega
  have hm := hr _ (List.getElem_mem hi')
  have hw := wrapBin_range hm
  refine ⟨(wrapBin c.tU c.carrierMap[i]).toNat, ?_, by omega, ?_⟩
  · simp [carrierBin, List.getElem?_eq_getElem hi', hm]
  · simp [carrierBins, List.getElem?_eq_getElem hi']

/-- Distinct carriers of a legal configuration have distinct bins (rule R170). -/
theorem carrierBin_inj {c : Config} (h : configLegal c = true) {i j k : Nat} (hi : i < c.k) (hj : j < c.k)
    (ei : carrierBin c i = some k) (ej : carrierBin c j = some k) : i = j := by
  obtain ⟨-, -, hn⟩ := mapLegal_of h
  obtain ⟨a, ha, -, ga⟩ := carrierBin_some h hi
  obtain ⟨b, hb, -, gb⟩ := carrierBin_some h hj
  rw [ei] at ha; rw [ej] at hb
  obtain rfl := Option.some.inj ha
  obtain rfl := Option.some.inj hb
  obtain ⟨hia, ea⟩ := List.getElem?_eq_some_iff.mp ga
  obtain ⟨hjb, eb⟩ := List.getElem?_eq_some_iff.mp gb
  exact (List.Nodup.getElem_inj_iff hn).mp (ea.trans eb.symm)

/-- One carrier that has a bin and a valid reference there is demodulated (rule R220). -/
theorem carrierStep_eq {c : Config} {x : Vec} {i k : Nat} {a : CarrierAcc} {w f : Cplx}
    (hk : carrierBin c i = some k) (hw : x[k]? = some w) (hf : readRef a.ref k = some f) :
    carrierStep c x i a = some (demodCarrier c i k w f a) := by
  simp [carrierStep, hk, hw, hf]

/-- What one demodulated carrier did (rule R220). -/
theorem carrierStep_cases {c : Config} {x : Vec} {i : Nat} {a b : CarrierAcc} (h : carrierStep c x i a = some b) :
    ∃ k w f, carrierBin c i = some k ∧ x[k]? = some w ∧ readRef a.ref k = some f ∧ b = demodCarrier c i k w f a := by
  unfold carrierStep at h
  split at h
  · simp at h
  · rename_i k hk
    split at h
    · rename_i w f hw hf
      exact ⟨k, w, f, hk, hw, hf, (Option.some.inj h).symm⟩
    · simp at h

/-- An invariant of one carrier is an invariant of the loop. -/
theorem carrierLoop_induct {c : Config} {x : Vec} (P : CarrierAcc → Prop)
    (hstep : ∀ i a b, carrierStep c x i a = some b → P a → P b) :
    ∀ (is : List Nat) (a b : CarrierAcc), carrierLoop c x is a = some b → P a → P b := by
  intro is
  induction is with
  | nil => intro a b h ha; obtain rfl := Option.some.inj h; exact ha
  | cons i is ih =>
    intro a b h ha
    simp only [carrierLoop] at h
    split at h
    · rename_i m hm; exact ih m b h (hstep i a m hm ha)
    · simp at h

/-- A loop over an appended list runs the parts in order. -/
theorem carrierLoop_append (c : Config) (x : Vec) (is js : List Nat) (a : CarrierAcc) :
    carrierLoop c x (is ++ js) a = (carrierLoop c x is a).bind (carrierLoop c x js) := by
  induction is generalizing a with
  | nil => rfl
  | cons i is ih =>
    simp only [List.cons_append, carrierLoop]
    cases carrierStep c x i a with
    | none => rfl
    | some b => exact ih b

/-- The loop keeps the length of the reference. -/
theorem carrierLoop_refLength {c : Config} {x : Vec} {is : List Nat} {a b : CarrierAcc}
    (h : carrierLoop c x is a = some b) : b.ref.length = a.ref.length := by
  refine carrierLoop_induct (fun m => m.ref.length = a.ref.length) ?_ is a b h rfl
  intro i m n hm hp
  obtain ⟨k, w, f, -, -, -, rfl⟩ := carrierStep_cases hm
  simpa [demodCarrier] using hp

/-- The loop keeps every reference entry valid that was valid. -/
theorem carrierLoop_refValid {c : Config} {x : Vec} {is : List Nat} {a b : CarrierAcc} {j : Nat}
    (h : carrierLoop c x is a = some b) (hj : (readRef a.ref j).isSome = true) : (readRef b.ref j).isSome = true := by
  refine carrierLoop_induct (fun m => (readRef m.ref j).isSome = true) ?_ is a b h hj
  intro i m n hm hp
  obtain ⟨k, w, f, -, -, hf, rfl⟩ := carrierStep_cases hm
  by_cases hkj : k = j
  · subst hkj
    have hlt : k < m.ref.length := by
      by_contra hge
      simp [readRef, List.getElem?_eq_none (Nat.le_of_not_lt hge)] at hf
    simp [demodCarrier, readRef_set_self _ hlt]
  · simpa [demodCarrier, readRef_set_other _ hkj] using hp

/-- With every reference entry valid, the loop over carriers of a legal configuration does not stop. -/
theorem carrierLoop_total {c : Config} (hc : configLegal c = true) {x : Vec} (hx : x.length = c.tU) :
    ∀ (is : List Nat) (a : CarrierAcc), (∀ i, i ∈ is → i < c.k) → (∀ j, j < c.tU → (readRef a.ref j).isSome = true) →
      ∃ b, carrierLoop c x is a = some b := by
  intro is
  induction is with
  | nil => intro a _ _; exact ⟨a, rfl⟩
  | cons i is ih =>
    intro a hi hv
    obtain ⟨k, hk, hkt, -⟩ := carrierBin_some hc (hi i (by simp))
    obtain ⟨f, hf⟩ := Option.isSome_iff_exists.mp (hv k hkt)
    have hw : x[k]? = some x[k] := List.getElem?_eq_getElem (by omega)
    have hs := carrierStep_eq hk hw hf
    simp only [carrierLoop, hs]
    refine ih _ (fun j hj => hi j (by simp [hj])) (fun j hj => ?_)
    have h1 : carrierLoop c x [i] a = some (demodCarrier c i k x[k] f a) := by simp [carrierLoop, hs]
    exact carrierLoop_refValid h1 (hv j hj)

/-- How many of `k` carriers the constellation tap takes: `ceil(k / d)` (rule R227). -/
theorem tapCount (k d : Nat) (hd : 0 < d) :
    ((List.range k).filter (fun i => decide (i % d = 0))).length = (k + d - 1) / d := by
  obtain ⟨e, rfl⟩ : ∃ e, d = e + 1 := ⟨d - 1, by omega⟩
  induction k with
  | zero => simp [Nat.div_eq_of_lt (Nat.lt_succ_self e)]
  | succ k ih =>
    rw [List.range_succ, List.filter_append, List.length_append, ih]
    have e1 : k + (e + 1) - 1 = k + e := by omega
    have e2 : k + 1 + (e + 1) - 1 = k + e + 1 := by omega
    rw [e1, e2, Nat.succ_div]
    have hdvd : (e + 1 ∣ k + e + 1) ↔ k % (e + 1) = 0 := by
      rw [show k + e + 1 = k + (e + 1) by ring, Nat.dvd_add_self_right, Nat.dvd_iff_mod_eq_zero]
    by_cases h : k % (e + 1) = 0
    · simp [h, hdvd.mpr h]
    · simp [h, mt hdvd.mp h]

/-- What the loop has made after its first `n` carriers, from the reference and the constellation buffer it started with (rules R220 to R227): the
products are those of the reference before any update, because the bins are distinct. -/
theorem carrierLoop_range {c : Config} (hc : configLegal c = true) (x : Vec) (ref0 : List (Option Cplx)) (cb0 : Vec) :
    ∀ n, n ≤ c.k → ∀ b, carrierLoop c x (List.range n) ⟨ref0, [], [], cb0⟩ = some b →
      b.reBits = (List.range n).map (fun i => (softBits c (carrierProduct c x ref0 i)).1) ∧
      b.imBits = (List.range n).map (fun i => (softBits c (carrierProduct c x ref0 i)).2) ∧
      b.cbuf = cb0 ++ ((List.range n).filter (fun i => decide (i % c.constDecim = 0))).map (carrierProduct c x ref0) ∧
      (∀ i k, i < n → carrierBin c i = some k → readRef b.ref k = x[k]?) ∧
      (∀ k, (∀ i, i < n → carrierBin c i ≠ some k) → readRef b.ref k = readRef ref0 k) := by
  intro n
  induction n with
  | zero => intro _ b h; obtain rfl := Option.some.inj h; simp
  | succ n ih =>
    intro hn b h
    rw [List.range_succ, carrierLoop_append] at h
    cases hm : carrierLoop c x (List.range n) ⟨ref0, [], [], cb0⟩ with
    | none => rw [hm] at h; simp at h
    | some m =>
      rw [hm] at h
      simp only [Option.bind_some, carrierLoop] at h
      cases hs : carrierStep c x n m with
      | none => rw [hs] at h; simp at h
      | some b' =>
        rw [hs] at h
        obtain rfl := Option.some.inj h
        obtain ⟨k, w, f, hk, hw, hf, rfl⟩ := carrierStep_cases hs
        obtain ⟨i1, i2, i3, i4, i5⟩ := ih (by omega) m hm
        have hfr : readRef ref0 k = some f := by
          rw [← i5 k (fun i hi he => by have := carrierBin_inj hc (by omega) (by omega) he hk; omega)]; exact hf
        have hprod : carrierProduct c x ref0 n = diffProduct c w f := by
          simp [carrierProduct, hk, hfr, List.getD, hw]
        have hlt : k < m.ref.length := by
          by_contra hge
          simp [readRef, List.getElem?_eq_none (Nat.le_of_not_lt hge)] at hf
        refine ⟨?_, ?_, ?_, ?_, ?_⟩
        · simp [demodCarrier, List.range_succ, i1, hprod]
        · simp [demodCarrier, List.range_succ, i2, hprod]
        · simp only [demodCarrier, tapCarrier, List.range_succ, List.filter_append, List.map_append, i3]
          by_cases hd : n % c.constDecim = 0 <;> simp [hd, hprod]
        · intro i k' hi hik
          by_cases hkk : k = k'
          · subst hkk; simp [demodCarrier, readRef_set_self _ hlt, hw]
          · simp only [demodCarrier]
            rw [readRef_set_other _ hkk]
            refine i4 i k' ?_ hik
            have : i ≠ n := by rintro rfl; rw [hk] at hik; exact hkk (Option.some.inj hik)
            omega
        · intro k' hall
          have hkk : k ≠ k' := by rintro rfl; exact hall n (by omega) hk
          simp only [demodCarrier]
          rw [readRef_set_other _ hkk]
          exact i5 k' (fun i hi => hall i (by omega))

end Sys2Proof.Machine
end

