-- ==== Sys2Proof/Laws/Step.lean ====
section
/-! SUPPORT. What a step can do, said once: the choice of a move, the moves, and the commands. -/

namespace Sys2Proof.Machine

/-- Every command answers a next state: the spec's faults are next states (rule R250). -/
theorem exec_next (i : Instr) (s : State) : ∃ t, exec i s = .next t := by
  cases i <;> exact ⟨_, rfl⟩

/-- The choice takes an enabled move and changes only the model's own choice fields (rules R70, R137). -/
theorem pick_cases (s : State) :
    (enabledMoves s = [] ∧ pick s = (none, s)) ∨
    ∃ m ns n, m ∈ enabledMoves s ∧ pick s = (some m, { s with choices := ns, freeCtr := n }) := by
  have hmem : ∀ (m : Move) (ms : List Move) (n : Nat), chosen m ms n ∈ m :: ms := by
    intro m ms n
    have hlt : n % (ms.length + 1) < (m :: ms).length := Nat.mod_lt _ (by simp)
    rw [chosen, List.getD_eq_getElem _ _ hlt]
    exact List.getElem_mem hlt
  unfold pick
  split
  · rename_i h; exact .inl ⟨h, rfl⟩
  · rename_i m h; exact .inr ⟨m, s.choices, s.freeCtr, by simp [h], rfl⟩
  · rename_i m ms _ h
    split
    · rename_i n ns _
      exact .inr ⟨_, ns, s.freeCtr, by rw [h]; exact hmem m ms n, rfl⟩
    · rename_i hc
      exact .inr ⟨_, s.choices, s.freeCtr + 1, by rw [h]; exact hmem m ms _, rfl⟩

/-- A step that answers a next state waited with no enabled move, or ran one enabled move. -/
theorem step_cases {s t : State} (h : step s = .next t) : s.released = false ∧
    ((enabledMoves s = [] ∧ t = s) ∨
     ∃ m ns n, m ∈ enabledMoves s ∧ runMove m { s with choices := ns, freeCtr := n } = .next t) := by
  unfold step stepState at h
  split at h
  · simp at h
  · rename_i hr
    refine ⟨by simpa using hr, ?_⟩
    rcases pick_cases s with ⟨he, hp⟩ | ⟨m, ns, n, hm, hp⟩
    · rw [hp] at h
      exact .inl ⟨he, (Host.Outcome.next.inj h).symm⟩
    · rw [hp] at h
      exact .inr ⟨m, ns, n, hm, h⟩

theorem mem_workerMoves {s : State} {m : Move} : m ∈ workerMoves s ↔
    (dequeueEnabled s = true ∧ m = .dequeue) ∨ (processEnabled s = true ∧ m = .process) ∨
      (exitEnabled s = true ∧ m = .exit) := by
  simp only [workerMoves, movesIf, List.mem_append]
  cases dequeueEnabled s <;> cases processEnabled s <;> cases exitEnabled s <;> simp [or_assoc]

theorem mem_hostMoves {s : State} {m : Move} : m ∈ hostMoves s ↔
    ∃ h, h < s.hosts.length ∧ hostReady s (s.hosts.getD h []) = true ∧ m = .host h := by
  simp only [hostMoves, List.mem_map, List.mem_filter, List.mem_range]
  constructor
  · rintro ⟨h, ⟨h1, h2⟩, rfl⟩; exact ⟨h, h1, h2, rfl⟩
  · rintro ⟨h, h1, h2, rfl⟩; exact ⟨h, ⟨h1, h2⟩, rfl⟩

/-- All a join request does (rule R284): one response with STATUS, and the request stays exactly while the join has not succeeded. -/
theorem runPoll_eq (h : Nat) (rest : List HostReq) (s : State) : runPoll h rest s = .next { s with
    hosts := s.hosts.set h (if joined s then rest else .pollJoin :: rest)
    port := ⟨h, []⟩
    trace := s.trace ++ [.response h (.word (.bits (statusWord s)))] } := by
  have hc : csrOf (csrNumber .status) = some .status := by decide
  have he : ∀ r, emptyPayloadOk (accept h r [] s) = true := by intro r; simp [emptyPayloadOk, payloadIs, accept]
  simp only [runPoll, exec, execReadCsr, readCsr, hc, he, if_true]
  simp [respond, observe, accept, csrValue, statusWord]

/-- A host's move is a command, an illegal word, a poll, or the release. -/
theorem runHost_cases {h : Nat} {s t : State} (he : runHost h s = .next t) :
    t = s ∨
    (∃ i rest p, exec i (accept h rest p s) = .next t) ∨
    (∃ rest, t = raiseFault .illegalCmd (accept h rest [] s)) ∨
    (∃ rest, s.hosts.getD h [] = .release :: rest ∧ t = { accept h rest [] s with released := true }) := by
  unfold runHost at he
  split at he
  · exact .inl (Host.Outcome.next.inj he).symm
  · rename_i bytes rest hq
    unfold runCommand at he
    split at he
    · exact .inr (.inl ⟨_, _, _, he⟩)
    · simp at he
    · exact .inr (.inr (.inl ⟨rest, (Host.Outcome.next.inj he).symm⟩))
    · exact .inr (.inr (.inl ⟨rest, (Host.Outcome.next.inj he).symm⟩))
    · exact .inr (.inr (.inl ⟨rest, (Host.Outcome.next.inj he).symm⟩))
  · rename_i rest hq
    exact .inr (.inl ⟨_, _, _, he⟩)
  · rename_i rest hq
    exact .inr (.inr (.inr ⟨rest, hq, (Host.Outcome.next.inj he).symm⟩))

theorem dataIngest_cases (idx : Nat) (s : State) :
    (∃ f, f ≠ .overrun ∧ dataIngest idx s = raiseFault f s) ∨
    (∃ v, idx < s.cfg.l ∧ s.pending ≠ pendMax ∧ v.length = s.cfg.tU ∧
      dataIngest idx s = commitIngest idx v (markOverrun s)) := by
  unfold dataIngest
  split
  · rename_i hp
    split
    · exact .inl ⟨_, by simp, rfl⟩
    · rename_i hidx
      by_cases hs : s.pending = pendMax
      · exact .inl ⟨_, by simp, ingestTail_saturated _ _ hs⟩
      · refine .inr ⟨_, by omega, hs, ?_, ingestTail_commits _ _ hs⟩
        exact usefulPart_length (by simpa [payloadIs] using hp) (by simp [Config.tS]; omega)
  · exact .inl ⟨_, by simp, rfl⟩

theorem ingestPrs_cases (s : State) :
    (∃ f, f ≠ .overrun ∧ ingestPrs s = raiseFault f s) ∨
    (∃ v, s.pending ≠ pendMax ∧ v.length = s.cfg.tU ∧ ingestPrs s = commitIngest 0 v (markOverrun s)) := by
  unfold ingestPrs
  split
  · rename_i hp
    by_cases hs : s.pending = pendMax
    · exact .inl ⟨_, by simp, ingestTail_saturated _ _ hs⟩
    · refine .inr ⟨_, hs, ?_, ingestTail_commits _ _ hs⟩
      refine usefulPart_length (n := nPayload s.cfg .ingestPrs) (by simpa [payloadIs] using hp) ?_
      unfold prsOffset nPayload
      cases s.cfg.prsMode <;> simp [Config.tS, Nat.add_comm]
  · exact .inl ⟨_, by simp, rfl⟩

/-- What a command can do to the state (rules R101 to R107), one case a shape: an aborting fault with its default response, an ingress, the stop
request, or a response. -/
theorem exec_cases {i : Instr} {s t : State} (h : exec i s = .next t) :
    (∃ f, f ≠ .overrun ∧ (t = raiseFault f s ∨ t = respond (.word (.bits 0#32)) (raiseFault f s) ∨
      t = respond (.samples (zeroSamples s.cfg)) (raiseFault f s))) ∨
    (∃ b v, (b = 0 ∨ b < s.cfg.l) ∧ s.pending ≠ pendMax ∧ v.length = s.cfg.tU ∧
      t = commitIngest b v (markOverrun s)) ∨
    t = { s with running := false } ∨
    (∃ r, t = respond r s) := by
  cases i with
  | ingestPrs =>
    obtain rfl : ingestPrs s = t := Host.Outcome.next.inj h
    rcases ingestPrs_cases s with ⟨f, hf, he⟩ | ⟨v, h1, h2, h3⟩
    · exact .inl ⟨f, hf, .inl he⟩
    · exact .inr (.inl ⟨0, v, .inl rfl, h1, h2, h3⟩)
  | ingestFic idx =>
    obtain rfl : dataIngest idx s = t := Host.Outcome.next.inj h
    rcases dataIngest_cases idx s with ⟨f, hf, he⟩ | ⟨v, h0, h1, h2, h3⟩
    · exact .inl ⟨f, hf, .inl he⟩
    · exact .inr (.inl ⟨idx, v, .inr h0, h1, h2, h3⟩)
  | ingestMsc idx =>
    obtain rfl : dataIngest idx s = t := Host.Outcome.next.inj h
    rcases dataIngest_cases idx s with ⟨f, hf, he⟩ | ⟨v, h0, h1, h2, h3⟩
    · exact .inl ⟨f, hf, .inl he⟩
    · exact .inr (.inl ⟨idx, v, .inr h0, h1, h2, h3⟩)
  | stop =>
    obtain rfl : stopWorker s = t := Host.Outcome.next.inj h
    unfold stopWorker
    split
    · exact .inr (.inr (.inl rfl))
    · exact .inl ⟨_, by simp, .inl rfl⟩
  | readCsr n =>
    obtain rfl : readCsr n s = t := Host.Outcome.next.inj h
    unfold readCsr
    split
    · split
      · exact .inr (.inr (.inr ⟨_, rfl⟩))
      · exact .inl ⟨_, by simp, .inr (.inl rfl)⟩
    · exact .inl ⟨_, by simp, .inr (.inl rfl)⟩
  | xform d =>
    obtain rfl : xform d s = t := Host.Outcome.next.inj h
    unfold xform
    split
    · exact .inr (.inr (.inr ⟨_, rfl⟩))
    · exact .inl ⟨_, by simp, .inr (.inr rfl)⟩

/-- What the worker's process step can do (rules R133, R134, R190, R220): the reference symbol, a data block, or the stop on a reference
that is not valid; each names the state it answers. -/
theorem workerProcess_cases {s t : State} (h : workerProcess s = .next t) : ∃ w, s.work = some w ∧
    ((s.curblk = 0 ∧ t = retire (prsApply (transform s.cfg .fwd w) s)) ∨
     (s.curblk ≠ 0 ∧ ∃ a, demodulate (transform s.cfg .fwd w) s = some a ∧
        t = retire (dataApply (transform s.cfg .fwd w) a s)) ∨
     (s.curblk ≠ 0 ∧ demodulate (transform s.cfg .fwd w) s = none ∧ t = uninitStop s)) := by
  unfold workerProcess at h
  split at h
  · simp at h
  · rename_i w hw
    refine ⟨w, hw, ?_⟩
    split at h
    · rename_i h0; exact .inl ⟨h0, (Host.Outcome.next.inj h).symm⟩
    · rename_i h0
      unfold dataProcess dataProcessed at h
      cases hd : demodulate (transform s.cfg .fwd w) s with
      | none =>
        rw [hd] at h
        exact .inr (.inr ⟨h0, rfl, (Host.Outcome.next.inj h).symm⟩)
      | some a =>
        rw [hd] at h
        exact .inr (.inl ⟨h0, a, rfl, (Host.Outcome.next.inj h).symm⟩)

/-- A relation between the states before and after a step holds if it holds of every shape a step can have: waiting, a choice drawn, a request
accepted, a command, an illegal word, a release, and each step of the worker. -/
theorem step_relation {P : State → State → Prop} (wait : ∀ s, P s s)
    (choice : ∀ s t ns n, P { s with choices := ns, freeCtr := n } t → P s t)
    (request : ∀ h rest p s t, P (accept h rest p s) t → P s t)
    (command : ∀ i s t, exec i s = .next t → P s t)
    (illegal : ∀ s, P s (raiseFault .illegalCmd s)) (release : ∀ s, P s { s with released := true })
    (dequeue : ∀ s, s.wphase = .wait → s.pending ≠ 0#32 → P s (workerDequeue s))
    (leave : ∀ s, s.wphase = .wait → s.running = false → P s (workerExit s))
    (reference : ∀ s w, s.wphase = .run → s.work = some w → s.curblk = 0 →
      P s (retire (prsApply (transform s.cfg .fwd w) s)))
    (block : ∀ s w a, s.wphase = .run → s.work = some w → s.curblk ≠ 0 → demodulate (transform s.cfg .fwd w) s = some a →
      P s (retire (dataApply (transform s.cfg .fwd w) a s)))
    (unwritten : ∀ s, s.wphase = .run → P s (uninitStop s)) : ∀ s t, step s = .next t → P s t := by
  intro s t h
  obtain ⟨-, h1 | ⟨m, ns, n, hm, h1⟩⟩ := step_cases h
  · rw [h1.2]; exact wait s
  · apply choice s t ns n
    simp only [enabledMoves, List.mem_append] at hm
    rcases hm with hm | hm
    · rw [mem_hostMoves] at hm
      obtain ⟨k, -, -, rfl⟩ := hm
      rcases runHost_cases h1 with rfl | ⟨i, rest, p, he⟩ | ⟨rest, rfl⟩ | ⟨rest, hq, rfl⟩
      · exact wait _
      · exact request _ _ _ _ _ (command _ _ _ he)
      · exact request _ _ _ _ _ (illegal _)
      · exact request _ _ _ _ _ (release _)
    · rw [mem_workerMoves] at hm
      rcases hm with ⟨hen, rfl⟩ | ⟨hen, rfl⟩ | ⟨hen, rfl⟩
      · obtain rfl := Host.Outcome.next.inj h1
        simp only [dequeueEnabled, decide_eq_true_eq] at hen
        exact dequeue _ hen.1 hen.2
      · simp only [processEnabled, decide_eq_true_eq] at hen
        obtain ⟨w, hw, h2 | ⟨hc, a, hd, h2⟩ | h2⟩ := workerProcess_cases h1
        · rw [h2.2]; exact reference _ _ hen hw h2.1
        · rw [h2]; exact block _ _ _ hen hw hc hd
        · rw [h2.2.2]; exact unwritten _ hen
      · obtain rfl := Host.Outcome.next.inj h1
        simp only [exitEnabled, decide_eq_true_eq] at hen
        exact leave _ hen.1 hen.2

end Sys2Proof.Machine
end

