-- ==== Sys2Proof/Laws/Held.lean ====
section
/-! SUPPORT. Each operation of the datapath answers numbers held in `cfg.NUMERICS` when its operands are (rules R13, R21, R28): one lemma per
operation. -/

namespace Sys2Proof.Machine

/-- An interface pattern is held in every arithmetic. -/
@[simp] theorem lit_heldIn (k : Numerics) (b : Word) : (Num.lit b).heldIn k = true := by cases k <;> rfl

@[simp] theorem code_heldIn (f n : Nat) : (Num.code f n).heldIn (.format f) = true := by simp [Num.heldIn]

theorem samplesOf_held (k : Numerics) (p : List Byte) : vecHeld k (samplesOf p) = true := by
  induction p using samplesOf.induct with
  | case1 a0 a1 a2 a3 b0 b1 b2 b3 r ih =>
    simp only [samplesOf, vecHeld, List.all_cons, Bool.and_eq_true]
    exact ⟨by simp [Cplx.heldIn], ih⟩
  | case2 t h => rw [samplesOf]; rfl; exact h

theorem usefulPart_held {c : Config} {v : Vec} (h : vecHeld c.numerics v = true) (off : Nat) :
    vecHeld c.numerics (usefulPart c off v) = true := by
  simp only [vecHeld, usefulPart, List.all_eq_true] at h ⊢
  exact fun z hz => h z (List.mem_of_mem_drop (List.mem_of_mem_take hz))

theorem vecHeld_getD {k : Numerics} {x : Vec} (h : vecHeld k x = true) (n : Nat) : (x.getD n Cplx.zero).heldIn k = true := by
  simp only [vecHeld, List.all_eq_true] at h
  by_cases hn : n < x.length
  · rw [List.getD_eq_getElem _ _ hn]; exact h _ (List.getElem_mem hn)
  · rw [List.getD_eq_default _ _ (by omega)]; simp [Cplx.heldIn, Cplx.zero]

theorem Num.sum_codeFree {xs : List Num} (h : ∀ e, e ∈ xs → e.codeFree = true) : (Num.sum xs).codeFree = true := by
  induction xs with
  | nil => rfl
  | cons a as ih => simp [Num.sum, Num.codeFree] at *; exact ⟨h.1, ih h.2⟩

theorem vecHeld_real {x : Vec} (h : vecHeld .real x = true) {z : Cplx} (hz : z ∈ x) : z.re.codeFree = true ∧ z.im.codeFree = true := by
  simp only [vecHeld, List.all_eq_true] at h
  simpa [Cplx.heldIn, Num.heldIn] using h z hz

theorem transform_held {c : Config} {x : Vec} (d : Dir) (h : vecHeld c.numerics x = true) :
    vecHeld c.numerics (transform c d x) = true := by
  simp only [vecHeld, transform, List.all_map, List.all_eq_true, List.mem_range, Function.comp]
  intro k _
  unfold transformBin
  cases hc : c.numerics with
  | binary32 => rfl
  | format f => simp [Cplx.ofCodes, Cplx.heldIn]
  | real =>
    rw [hc] at h
    have hts : (transformScale c d).codeFree = true := by unfold transformScale; cases c.fftNorm <;> cases d <;> rfl
    simp only [Cplx.heldIn, exactBin, Num.heldIn, Num.codeFree, hts, Bool.true_and, Bool.and_eq_true]
    constructor <;> refine Num.sum_codeFree fun e he => ?_ <;> simp only [List.mem_mapIdx] at he <;> obtain ⟨i, hi, rfl⟩ := he <;>
      simp [twiddleRe, twiddleIm, Num.codeFree, vecHeld_real h (List.getElem_mem hi)]

theorem meanModulus_held {c : Config} {zs : Vec} (h : vecHeld c.numerics zs = true) : (meanModulus c zs).heldIn c.numerics = true := by
  unfold meanModulus
  split
  · exact lit_heldIn _ _
  · cases hc : c.numerics with
    | binary32 => rfl
    | format f => simp
    | real =>
      rw [hc] at h
      simp only [Num.heldIn, Num.codeFree, Bool.true_and]
      refine Num.sum_codeFree fun e he => ?_
      obtain ⟨z, hz, rfl⟩ := List.mem_map.mp he
      simp [modulus, Num.codeFree, vecHeld_real h hz]

theorem binsAt_held {c : Config} {x : Vec} (js : List Nat) (h : vecHeld c.numerics x = true) :
    vecHeld c.numerics (binsAt c js x) = true := by
  simp only [vecHeld, binsAt, List.all_map, List.all_eq_true, Function.comp]
  exact fun j _ => vecHeld_getD h _

theorem snrInstant_held {c : Config} {x : Vec} (h : vecHeld c.numerics x = true) : (snrInstant c x).heldIn c.numerics = true := by
  have h1 := meanModulus_held (binsAt_held (signalSet c) h)
  have h2 := meanModulus_held (binsAt_held (noiseSet c) h)
  unfold snrInstant quantise decibelDiff decibel
  cases c.snrInstQuant <;> cases hc : c.numerics <;> simp_all [Num.heldIn, Num.codeFree, Num.isLit]

theorem smooth_held {c : Config} {a b : Num} (ha : a.heldIn c.numerics = true) (hb : b.heldIn c.numerics = true) :
    (smooth c a b).heldIn c.numerics = true := by
  unfold smooth
  cases hc : c.numerics <;> simp_all [Num.heldIn, Num.codeFree, Num.isLit]

theorem diffProduct_held {c : Config} {a b : Cplx} (ha : a.heldIn c.numerics = true) (hb : b.heldIn c.numerics = true) :
    (diffProduct c a b).heldIn c.numerics = true := by
  unfold diffProduct
  cases hc : c.numerics <;> simp_all [Cplx.heldIn, Cplx.ofBits, Cplx.ofCodes, Num.heldIn, Num.codeFree, Num.isLit]

theorem readRef_held {k : Numerics} {ref : List (Option Cplx)} {j : Nat} {f : Cplx} (h : ref.all (refHeld k) = true)
    (hf : readRef ref j = some f) : f.heldIn k = true := by
  simp only [List.all_eq_true] at h
  obtain ⟨o, ho, rfl⟩ : ∃ o, ref[j]? = some o ∧ o = some f := by
    unfold readRef at hf
    cases hq : ref[j]? with
    | none => rw [hq] at hf; simp at hf
    | some o => rw [hq] at hf; exact ⟨o, rfl, by simpa using hf⟩
  exact h _ (List.mem_of_getElem? ho)

/-- The loop over the carriers keeps the reference and the constellation buffer held. -/
theorem carrierLoop_held {c : Config} {x : Vec} (hx : vecHeld c.numerics x = true) : ∀ (is : List Nat) (a b : CarrierAcc),
    carrierLoop c x is a = some b → a.ref.all (refHeld c.numerics) = true → vecHeld c.numerics a.cbuf = true →
      b.ref.all (refHeld c.numerics) = true ∧ vecHeld c.numerics b.cbuf = true := by
  intro is
  induction is with
  | nil => intro a b h h1 h2; obtain rfl := Option.some.inj h; exact ⟨h1, h2⟩
  | cons i is ih =>
    intro a b h h1 h2
    simp only [carrierLoop] at h
    cases hs : carrierStep c x i a with
    | none => rw [hs] at h; simp at h
    | some m =>
      rw [hs] at h
      obtain ⟨k, w, f, hk, hw, hf, rfl⟩ := carrierStep_cases hs
      have hwh : w.heldIn c.numerics = true := by
        simp only [vecHeld, List.all_eq_true] at hx
        exact hx w (List.mem_of_getElem? hw)
      refine ih _ b h ?_ ?_
      · simp only [demodCarrier, List.all_eq_true] at h1 ⊢
        intro o ho
        rcases List.mem_or_eq_of_mem_set ho with ho | rfl
        · exact h1 o ho
        · exact hwh
      · simp only [demodCarrier, tapCarrier]
        split
        · simp only [vecHeld, List.all_append, Bool.and_eq_true] at h2 ⊢
          exact ⟨h2, by simp [diffProduct_held hwh (readRef_held h1 hf)]⟩
        · exact h2

/-- The held numbers are those of six fields: a state that agrees with a held one on them is held. -/
theorem State.Held.congr {s t : State} (h : s.Held) (hc : t.cfg = s.cfg) (h1 : t.slots = s.slots) (h2 : t.work = s.work)
    (h3 : t.ref = s.ref) (h4 : t.cbuf = s.cbuf) (h5 : t.snr = s.snr) : t.Held := by
  obtain ⟨a, b, c, d, e⟩ := h
  constructor <;> simp_all

theorem retire_held {s : State} (h : s.Held) : (retire s).Held := by
  unfold retire flushAtWrap retireCounters flush
  dsimp only
  split
  · obtain ⟨a, b, c, d, e⟩ := h; constructor <;> simp_all [vecHeld]
  · exact h.congr rfl rfl rfl rfl rfl rfl

end Sys2Proof.Machine
end

