-- ==== Sys2Proof/Laws/Numeric.lean ====
section
/-! SUPPORT. Evaluation of exact numbers is sound: `Num.rat?`, the soft bit and the rounding commute with the embedding of the rationals
into the reals. -/

namespace Sys2Proof.Machine

theorem truncInt_cast (q : ℚ) : truncInt (q : ℝ) = truncInt q := by
  unfold truncInt
  simp only [Rat.floor_cast, Rat.ceil_cast, Rat.cast_nonneg]

theorem softBit_cast (p q : ℚ) : softBit (p : ℝ) (q : ℝ) = softBit p q := by
  have hm : |(p : ℝ)| + |(q : ℝ)| = ((|p| + |q| : ℚ) : ℝ) := by push_cast; rfl
  have hv : (-(p : ℝ) / (|(p : ℝ)| + |(q : ℝ)|)) * 127 = (((-p / (|p| + |q|)) * 127 : ℚ) : ℝ) := by
    push_cast; rfl
  unfold softBit
  simp only [hv, truncInt_cast]
  simp only [hm, Rat.cast_eq_zero]

theorem roundHalfEven_cast (q : ℚ) : roundHalfEven (q : ℝ) = roundHalfEven q := by
  have hd : (q : ℝ) - ((⌊q⌋ : ℤ) : ℝ) = ((q - (⌊q⌋ : ℤ) : ℚ) : ℝ) := by push_cast; rfl
  have h1 : ((q : ℝ) - ((⌊q⌋ : ℤ) : ℝ) < 1 / 2) ↔ (q - (⌊q⌋ : ℤ) < 1 / 2) := by
    rw [hd, show (1 / 2 : ℝ) = ((1 / 2 : ℚ) : ℝ) by norm_num, Rat.cast_lt]
  have h2 : ((1 : ℝ) / 2 < (q : ℝ) - ((⌊q⌋ : ℤ) : ℝ)) ↔ ((1 : ℚ) / 2 < q - (⌊q⌋ : ℤ)) := by
    rw [hd, show (1 / 2 : ℝ) = ((1 / 2 : ℚ) : ℝ) by norm_num, Rat.cast_lt]
  unfold roundHalfEven
  simp only [Rat.floor_cast, h1, h2]

theorem f32RoundMag_cast (q : ℚ) : f32RoundMag (q : ℝ) = f32RoundMag q := by
  have hp : (fun n : Nat => decide ((q : ℝ) < 2 ^ 24 * 2 ^ n / 2 ^ 149)) =
      (fun n : Nat => decide (q < 2 ^ 24 * 2 ^ n / 2 ^ 149)) := by
    funext n
    have h : ((2 : ℝ) ^ 24 * 2 ^ n / 2 ^ 149) = ((2 ^ 24 * 2 ^ n / 2 ^ 149 : ℚ) : ℝ) := by push_cast; rfl
    rw [h]
    exact decide_eq_decide.mpr Rat.cast_lt
  have hr : ∀ n : Nat, roundHalfEven ((q : ℝ) * 2 ^ 149 / 2 ^ n) = roundHalfEven (q * 2 ^ 149 / 2 ^ n) := by
    intro n
    rw [← roundHalfEven_cast]
    push_cast
    rfl
  unfold f32RoundMag
  simp only [hp, hr]

/-- Rounding to binary32 over the rationals is rounding over the reals. -/
theorem f32Round_cast (q : ℚ) : f32Round (q : ℝ) = f32Round q := by
  have hn : -(q : ℝ) = ((-q : ℚ) : ℝ) := by push_cast; rfl
  unfold f32Round
  simp only [hn, f32RoundMag_cast, Rat.cast_lt_zero]

theorem quarterAngle {k n r : Nat} (hn : 0 < n) (hr : k % n = r) :
    (2 * Real.pi * k / n : ℝ) = 2 * Real.pi * r / n + (k / n : Nat) * (2 * Real.pi) := by
  have h : (k : ℝ) = n * (k / n : Nat) + r := by
    have := Nat.div_add_mod k n
    rw [hr] at this
    exact_mod_cast this.symm
  have hn' : (n : ℝ) ≠ 0 := by positivity
  rw [h]
  field_simp
  ring

theorem quarterCos_sound {k n : Nat} {q : ℚ} (h : quarterCos k n = some q) :
    Real.cos (2 * Real.pi * k / n) = q := by
  unfold quarterCos at h
  by_cases h0 : n = 0
  · simp [h0] at h
  have hp : 0 < n := Nat.pos_of_ne_zero h0
  have hn' : (n : ℝ) ≠ 0 := by positivity
  rw [quarterAngle hp rfl, Real.cos_add_nat_mul_two_pi]
  simp only [h0, if_false] at h
  split at h
  · rename_i hr; obtain rfl : (1 : ℚ) = q := by simpa using h
    simp [hr]
  split at h
  · rename_i _ hr; obtain rfl : (0 : ℚ) = q := by simpa using h
    have hr' : (n : ℝ) = 4 * (k % n : Nat) := by exact_mod_cast hr.symm
    have hz : ((k % n : Nat) : ℝ) ≠ 0 := by intro hz; rw [hz] at hr'; simp at hr'; exact hn' (by exact_mod_cast hr')
    rw [show (2 * Real.pi * (k % n : Nat) / n : ℝ) = Real.pi / 2 by rw [hr']; field_simp; ring]
    simp
  split at h
  · rename_i _ _ hr; obtain rfl : (-1 : ℚ) = q := by simpa using h
    have hr' : (n : ℝ) = 2 * (k % n : Nat) := by exact_mod_cast hr.symm
    have hz : ((k % n : Nat) : ℝ) ≠ 0 := by intro hz; rw [hz] at hr'; simp at hr'; exact hn' (by exact_mod_cast hr')
    rw [show (2 * Real.pi * (k % n : Nat) / n : ℝ) = Real.pi by rw [hr']; field_simp]
    simp
  split at h
  · rename_i _ _ _ hr; obtain rfl : (0 : ℚ) = q := by simpa using h
    have hr' : 4 * ((k % n : Nat) : ℝ) = 3 * n := by exact_mod_cast hr
    rw [show (2 * Real.pi * (k % n : Nat) / n : ℝ) = Real.pi / 2 + Real.pi by
      field_simp; linear_combination hr']
    rw [Real.cos_add_pi]; simp
  · simp at h

theorem quarterSin_sound {k n : Nat} {q : ℚ} (h : quarterSin k n = some q) :
    Real.sin (2 * Real.pi * k / n) = q := by
  unfold quarterSin at h
  by_cases h0 : n = 0
  · simp [h0] at h
  have hp : 0 < n := Nat.pos_of_ne_zero h0
  have hn' : (n : ℝ) ≠ 0 := by positivity
  rw [quarterAngle hp rfl, Real.sin_add_nat_mul_two_pi]
  simp only [h0, if_false] at h
  split at h
  · rename_i hr; obtain rfl : (0 : ℚ) = q := by simpa using h
    simp [hr]
  split at h
  · rename_i _ hr; obtain rfl : (1 : ℚ) = q := by simpa using h
    have hr' : (n : ℝ) = 4 * (k % n : Nat) := by exact_mod_cast hr.symm
    have hz : ((k % n : Nat) : ℝ) ≠ 0 := by intro hz; rw [hz] at hr'; simp at hr'; exact hn' (by exact_mod_cast hr')
    rw [show (2 * Real.pi * (k % n : Nat) / n : ℝ) = Real.pi / 2 by rw [hr']; field_simp; ring]
    simp
  split at h
  · rename_i _ _ hr; obtain rfl : (0 : ℚ) = q := by simpa using h
    have hr' : (n : ℝ) = 2 * (k % n : Nat) := by exact_mod_cast hr.symm
    have hz : ((k % n : Nat) : ℝ) ≠ 0 := by intro hz; rw [hz] at hr'; simp at hr'; exact hn' (by exact_mod_cast hr')
    rw [show (2 * Real.pi * (k % n : Nat) / n : ℝ) = Real.pi by rw [hr']; field_simp]
    simp
  split at h
  · rename_i _ _ _ hr; obtain rfl : (-1 : ℚ) = q := by simpa using h
    have hr' : 4 * ((k % n : Nat) : ℝ) = 3 * n := by exact_mod_cast hr
    rw [show (2 * Real.pi * (k % n : Nat) / n : ℝ) = Real.pi / 2 + Real.pi by
      field_simp; linear_combination hr']
    rw [Real.sin_add_pi]; simp
  · simp at h

theorem ratSqrt_sound {q r : ℚ} (h : ratSqrt q = some r) : Real.sqrt (q : ℝ) = r := by
  unfold ratSqrt at h
  split at h
  · simp at h
  rename_i hq
  push Not at hq
  dsimp only at h
  split at h
  · rename_i hc
    obtain ⟨ha, hb⟩ := hc
    obtain rfl := Option.some.inj h
    have hnum : (q.num : ℚ) = ((q.num.toNat.sqrt : ℚ)) ^ 2 := by
      have h1 : ((q.num.toNat : ℕ) : ℤ) = q.num := Int.toNat_of_nonneg (Rat.num_nonneg.mpr hq)
      rw [← h1, sq]
      exact_mod_cast ha.symm
    have hden : (q.den : ℚ) = (q.den.sqrt : ℚ) ^ 2 := by rw [sq]; exact_mod_cast hb.symm
    have hq2 : q = ((q.num.toNat.sqrt : ℚ) / (q.den.sqrt : ℚ)) ^ 2 := by
      rw [div_pow, ← hnum, ← hden]; exact (Rat.num_div_den q).symm
    have hq3 : (q : ℝ) = (((q.num.toNat.sqrt : ℚ) / (q.den.sqrt : ℚ) : ℚ) : ℝ) ^ 2 := by
      rw [← Rat.cast_pow, ← hq2]
    rw [hq3, Real.sqrt_sq]
    exact_mod_cast div_nonneg (Nat.cast_nonneg _) (Nat.cast_nonneg _)
  · simp at h

theorem ratOp_some {f : ℚ → ℚ → ℚ} {a b : Option ℚ} {q : ℚ} (h : ratOp f a b = some q) :
    ∃ p r, a = some p ∧ b = some r ∧ f p r = q := by
  unfold ratOp at h
  split at h
  · exact ⟨_, _, rfl, rfl, Option.some.inj h⟩
  · simp at h

/-- An answer of `Num.rat?` is the number the expression denotes. -/
theorem Num.rat?_sound {e : Num} {q : ℚ} (h : e.rat? = some q) : e.val = q := by
  induction e generalizing q with
  | lit b =>
    simp only [Num.rat?] at h
    split at h
    · rename_i hf; simp [Num.val, hf, Option.some.inj h]
    · simp at h
  | code f n => simp [Num.rat?] at h
  | rat p => simp only [Num.rat?, Option.some.injEq] at h; simp [Num.val, h]
  | add a b iha ihb =>
    obtain ⟨p, r, ha, hb, rfl⟩ := ratOp_some h
    simp [Num.val, iha ha, ihb hb]
  | sub a b iha ihb =>
    obtain ⟨p, r, ha, hb, rfl⟩ := ratOp_some h
    simp [Num.val, iha ha, ihb hb]
  | mul a b iha ihb =>
    simp only [Num.rat?] at h
    split at h
    · unfold ratMul at h
      split at h
      · rename_i hz
        obtain rfl := Option.some.inj h
        rcases hz with hz | hz
        · simp [Num.val, iha hz]
        · simp [Num.val, ihb hz]
      · obtain ⟨p, r, ha, hb, rfl⟩ := ratOp_some h
        simp [Num.val, iha ha, ihb hb]
    · simp at h
  | div a b iha ihb =>
    obtain ⟨p, r, ha, hb, rfl⟩ := ratOp_some h
    simp [Num.val, iha ha, ihb hb]
  | sqrt a iha =>
    simp only [Num.rat?] at h
    split at h
    · rename_i p hp; rw [Num.val, iha hp]; exact ratSqrt_sound h
    · simp at h
  | log10 a iha =>
    simp only [Num.rat?] at h
    split at h
    · rename_i ha
      obtain rfl := Option.some.inj h
      simp [Num.val, iha ha]
    · simp at h
  | trunc a iha =>
    simp only [Num.rat?] at h
    split at h
    · rename_i p hp
      obtain rfl := Option.some.inj h
      rw [Num.val, iha hp, truncInt_cast]; push_cast; rfl
    · simp at h
  | cosTurn k n => exact quarterCos_sound h
  | sinTurn k n => exact quarterSin_sound h

theorem softBit_range {α : Type} [Field α] [LinearOrder α] [FloorRing α] (x y : α) :
    -127 ≤ softBit x y ∧ softBit x y ≤ 127 := by
  unfold softBit clampInt
  dsimp only
  split <;> omega

theorem int8Of_value {v : Int} (h : -128 ≤ v ∧ v ≤ 127) : (int8Of v).value = v := by
  simp only [int8Of, SoftVal.value, BitVec.toInt_ofInt]
  rw [Int.bmod_eq_of_le] <;> omega

/-- The soft bit the model writes for an exact part is the one of rule R225. -/
@[simp] theorem exactSoft_value (x y : Num) : (exactSoft x y).value = softBit x.val y.val := by
  unfold exactSoft
  split
  · rename_i p q hp hq
    have := softBit_range p q
    rw [int8Of_value (by omega), Num.rat?_sound hp, Num.rat?_sound hq, softBit_cast]
  · rfl

theorem Num.finite_of_rat? {e : Num} {q : ℚ} (h : e.rat? = some q) : e.finite = true := by
  induction e generalizing q with
  | lit b => simp only [Num.rat?] at h; split at h <;> simp_all [Num.finite]
  | code f n => simp [Num.rat?] at h
  | rat p => rfl
  | add a b iha ihb | sub a b iha ihb | div a b iha ihb =>
    obtain ⟨p, r, ha, hb, -⟩ := ratOp_some h
    simp [Num.finite, iha ha, ihb hb]
  | mul a b iha ihb =>
    simp only [Num.rat?] at h
    split at h
    · rename_i hf; exact hf
    · simp at h
  | sqrt a iha =>
    simp only [Num.rat?] at h
    split at h
    · rename_i p hp; exact iha hp
    · simp at h
  | log10 a iha =>
    simp only [Num.rat?] at h
    split at h
    · rename_i ha; exact iha ha
    · simp at h
  | trunc a iha =>
    simp only [Num.rat?] at h
    split at h
    · rename_i p hp; exact iha hp
    · simp at h
  | cosTurn k n => rfl
  | sinTurn k n => rfl

/-- The word of a finite exact expression is the binary32 nearest to it (rule R41). -/
theorem Num.word_value {e : Num} (h : e.isPattern = false) (hf : e.finite = true) : e.word.value = f32Round e.val := by
  unfold Num.word
  split
  · simp [Num.isPattern] at h
  · simp [Num.isPattern] at h
  · split
    · rename_i q hq; rw [Num.rat?_sound hq, f32Round_cast]; rfl
    · simp [Word32.value, hf]

@[simp] theorem Num.word_lit (b : Word) : (Num.lit b).word = .bits b := rfl

@[simp] theorem Num.word_code (f n : Nat) : (Num.code f n).word = .bits (Config.fmtWord f n) := rfl

theorem Num.sum_val (xs : List Num) : (Num.sum xs).val = (xs.map Num.val).sum := by
  induction xs with
  | nil => simp [Num.sum, Num.val]
  | cons x xs ih => simpa [Num.sum, Num.val] using ih

end Sys2Proof.Machine
end

