-- ==== Sys2Proof/Laws/PerInstr.lean ====
section
/-! SUPPORT. One lemma per command: the fields of its command word are those of rules R81, R83 and R84. -/

namespace Sys2Proof.Laws.EncodedFields

/-- The opcode of a command (rule R84). -/
def opcode : Instr → BitVec 8
  | .ingestPrs => 0x01#8
  | .ingestFic _ => 0x02#8
  | .ingestMsc _ => 0x03#8
  | .stop => 0x04#8
  | .readCsr _ => 0x05#8
  | .xform _ => 0x06#8

/-- The operand of a command as the number `arg` holds (rule R83). -/
def operand : Instr → Nat
  | .ingestPrs => 0
  | .ingestFic idx => idx
  | .ingestMsc idx => idx
  | .stop => 0
  | .readCsr n => n
  | .xform .fwd => 0
  | .xform .inv => 1

/-- The word of a well-formed command has its opcode, a zero `rsv`, and its operand, unscaled (rules R81, R83, R84). -/
def Statement (i : Instr) : Prop :=
  i.wellFormed = true →
    opField (encode i) = opcode i ∧ rsvField (encode i) = 0#8 ∧ (argField (encode i)).toNat = operand i

theorem mkWord_toNat (op : BitVec 8) (arg : BitVec 16) : (mkWord op arg).toNat = 2 ^ 24 * op.toNat + arg.toNat := by
  have h1 := BitVec.toNat_append (op ++ 0#8) arg
  have h2 := BitVec.toNat_append op (0#8)
  have h3 := arg.isLt
  rw [BitVec.toNat_ofNat, Nat.zero_mod, Nat.or_zero, Nat.shiftLeft_eq] at h2
  rw [← Nat.shiftLeft_add_eq_or_of_lt h3, h2, Nat.shiftLeft_eq] at h1
  show (op ++ 0#8 ++ arg).toNat = _
  omega

theorem opField_mkWord (op : BitVec 8) (arg : BitVec 16) : opField (mkWord op arg) = op := by
  apply BitVec.eq_of_toNat_eq
  have h1 := op.isLt
  have h2 := arg.isLt
  rw [opField, BitVec.extractLsb'_toNat, mkWord_toNat, Nat.shiftRight_eq_div_pow]
  omega

theorem rsvField_mkWord (op : BitVec 8) (arg : BitVec 16) : rsvField (mkWord op arg) = 0#8 := by
  apply BitVec.eq_of_toNat_eq
  have h2 := arg.isLt
  rw [rsvField, BitVec.extractLsb'_toNat, mkWord_toNat, Nat.shiftRight_eq_div_pow, BitVec.toNat_ofNat]
  omega

theorem argField_mkWord (op : BitVec 8) (arg : BitVec 16) : argField (mkWord op arg) = arg := by
  apply BitVec.eq_of_toNat_eq
  have h2 := arg.isLt
  rw [argField, BitVec.extractLsb'_toNat, mkWord_toNat, Nat.shiftRight_eq_div_pow]
  omega

theorem ingestPrs : Statement .ingestPrs := by
  intro _; decide

theorem ingestFic (idx : Nat) : Statement (.ingestFic idx) := by
  intro h
  have h' : idx < 65536 := by simpa [Instr.wellFormed] using h
  refine ⟨opField_mkWord _ _, rsvField_mkWord _ _, ?_⟩
  rw [encode, argField_mkWord, operand, BitVec.toNat_ofNat, Nat.mod_eq_of_lt h']

theorem ingestMsc (idx : Nat) : Statement (.ingestMsc idx) := by
  intro h
  have h' : idx < 65536 := by simpa [Instr.wellFormed] using h
  refine ⟨opField_mkWord _ _, rsvField_mkWord _ _, ?_⟩
  rw [encode, argField_mkWord, operand, BitVec.toNat_ofNat, Nat.mod_eq_of_lt h']

theorem stop : Statement .stop := by
  intro _; decide

theorem readCsr (n : Nat) : Statement (.readCsr n) := by
  intro h
  have h' : n < 65536 := by simpa [Instr.wellFormed] using h
  refine ⟨opField_mkWord _ _, rsvField_mkWord _ _, ?_⟩
  rw [encode, argField_mkWord, operand, BitVec.toNat_ofNat, Nat.mod_eq_of_lt h']

theorem xform (d : Dir) : Statement (.xform d) := by
  intro _; cases d <;> decide

end Sys2Proof.Laws.EncodedFields
end

