-- ==== Sys2Proof/Tests/Slice0.lean ====
section
/-! SUPPORT. Tests of the model against the vectors of 95_test_vectors.md, the words of rule R93, and a witness for every statement that has
hypotheses. Expected values come from the spec's tables, never from the model. -/

namespace Sys2Proof.Tests

open Sys2Proof.Machine

/-! ### Helpers -/

/-- Configuration P of 95_test_vectors.md. -/
def cfgP : Config := { defaultConfig 8 2 4 3 1 2 [-2, -1, 1, 2] with snrMWrap := 0, snrMEdge := 1 }
/-- Configuration Q. -/
def cfgQ : Config := { cfgP with l := 1, nFic := 0 }
/-- Configuration X. -/
def cfgX : Config := { defaultConfig 4 0 2 1 0 1 [-1, 1] with snrMWrap := 0, snrMEdge := 1 }
/-- Configuration P with `PRS_MODE = FULL`. -/
def cfgFull : Config := { cfgP with prsMode := .full }
/-- Configuration P in binary32. -/
def cfgB : Config := { cfgP with numerics := .binary32 }
/-- Configuration P in another implementation format. -/
def cfgF : Config := { cfgP with numerics := .format 7 }
/-- Configuration P without the length check of log entry 12. -/
def cfgLax : Config := { cfgP with lengthCheckAll := false }
/-- A transform of length 2. -/
def cfgTwo (sign : FftSign) : Config := { defaultConfig 2 0 1 1 0 1 [0] with fftSign := sign }

/-- Reset on configuration P. -/
def sP : State := State.initial cfgP
/-- The state with a payload on the interface. -/
def put (s : State) (p : List Byte) : State := { s with port := ⟨0, p⟩ }
/-- The state with one host that has one transaction to issue. -/
def ask (s : State) (p : List Byte) : State := { s with hosts := [[.cmd p]] }
/-- The state after an outcome. -/
def nextOf : Host.Outcome State Fault Refusal → Option State
  | .next t => some t
  | _ => none
/-- A predicate of the state after an outcome, false where there is none. -/
def after (o : Host.Outcome State Fault Refusal) (p : State → Bool) : Bool := (nextOf o).any p

theorem of_nextOf {o : Host.Outcome State Fault Refusal} {p : State → Bool} (h : after o p = true) :
    ∃ t, o = .next t ∧ p t = true := by
  cases o with
  | next t => exact ⟨t, rfl, by simpa [after, nextOf] using h⟩
  | fault r => simp [after, nextOf] at h
  | refused r => simp [after, nextOf] at h

/-- The sample `1 + 0j` on the wire. -/
def one8 : List Byte := [0x00#8, 0x00#8, 0x80#8, 0x3F#8, 0x00#8, 0x00#8, 0x00#8, 0x00#8]
/-- `n` zero samples on the wire. -/
def zeros (n : Nat) : List Byte := List.replicate (8 * n) 0#8
/-- The impulse `δ` on the wire. -/
def deltaB : List Byte := one8 ++ zeros 7
/-- `δ₂` on the wire. -/
def delta2B : List Byte := zeros 2 ++ one8 ++ zeros 5
/-- The value `1 + 0j` as patterns. -/
def oneV : Cplx := ⟨.lit 0x3F800000#32, .lit 0#32⟩
/-- `δ`. -/
def deltaV : Vec := oneV :: List.replicate 7 Cplx.zero
/-- `δ₂`. -/
def delta2V : Vec := [Cplx.zero, Cplx.zero, oneV] ++ List.replicate 5 Cplx.zero
/-- A rational complex value. -/
def rc (a b : Rat) : Cplx := ⟨.rat a, .rat b⟩
/-- The known rational parts of a vector. -/
def parts (v : Vec) : List (Option Rat × Option Rat) := v.map (fun z => (z.re.rat?, z.im.rat?))
/-- Integer parts, as known. -/
def ints (l : List (Int × Int)) : List (Option Rat × Option Rat) := l.map (fun p => (some (p.1 : Rat), some (p.2 : Rat)))
/-- Soft bits as the spec's tables list them. -/
def bits8 (l : List Int) : List SoftVal := l.map (fun v => .int8 (BitVec.ofInt 8 v))

/-- Phase `WAIT`, one symbol of `δ` ingested at position 0. -/
def sIn : State := { sP with slots := [some deltaV, none, none], pending := 1#32 }
/-- The symbol of `sIn` dequeued. -/
def sRun : State := { sIn with wphase := .run, work := some deltaV }
/-- The transform of `δ`: every bin 1. -/
def ones : List (Option Cplx) := List.replicate 8 (some oneV)
/-- Position 1 with `δ₂` dequeued and the reference all 1. -/
def sData : State :=
  { sP with
    slots := [some deltaV, some delta2V, none], pending := 1#32, curblk := 1, ref := ones, work := some delta2V, wphase := .run }
/-- The same at position 2, the last of the frame. -/
def sLast : State := { sData with curblk := 2, cbuf := [oneV, oneV] }
/-- Stopped, in phase `WAIT` with a symbol pending. -/
def sStop : State := { sIn with running := false }
/-- Stopped and exited, with a host that waits to release. -/
def sRel : State := { sP with running := false, wphase := .exited, hosts := [[.release]] }

/-! ### Well-formedness: each check refuses an ill-formed term -/

theorem test_ill_formed_fic : (Instr.ingestFic 65536).wellFormed = false := by decide
theorem test_ill_formed_msc : (Instr.ingestMsc 65536).wellFormed = false := by decide
theorem test_ill_formed_csr : (Instr.readCsr 65536).wellFormed = false := by decide
theorem test_well_formed_edges : (Instr.ingestFic 65535).wellFormed = true ∧ (Instr.readCsr 65535).wellFormed = true := by decide
theorem test_assembler_refuses_index : assemble cfgP (.ingestFic 65536 []) = none := by decide

/-! ### Decoding: words written out from rules R84 and R93 and §2.1 -/

theorem test_decode_ingest_prs : decodeTableWord 32 0b00000001000000000000000000000000 = some .ingestPrs := by decide
theorem test_decode_ingest_fic : decodeTableWord 32 0b00000010000000001111111111111111 = some (.ingestFic 65535) := by decide
theorem test_decode_ingest_msc : decodeTableWord 32 0b00000011000000000000000001001011 = some (.ingestMsc 75) := by decide
theorem test_decode_stop : decodeTableWord 32 0b00000100000000000000000000000000 = some .stop := by decide
theorem test_decode_read_csr : decodeTableWord 32 0b00000101000000000000000000010011 = some (.readCsr 0x13) := by decide
theorem test_decode_xform : decodeTableWord 32 0x06000000 = some (.xform .fwd) ∧ decodeTableWord 32 0x06000001 = some (.xform .inv) := by
  decide
theorem test_decode_illegal :
    [0x00000000, 0x07000000, 0xFF000000, 0x01000001, 0x02FF0001, 0x02010001, 0x04008000, 0x06000002, 0x06000003].map
      (decodeTableWord 32) = List.replicate 9 none := by decide
theorem test_transaction_bytes : encodeBytes .ingestPrs deltaB =
    [0x00#8, 0x00#8, 0x00#8, 0x01#8, 0x00#8, 0x00#8, 0x80#8, 0x3F#8, 0#8, 0#8, 0#8, 0#8] ++ List.replicate 56 0#8 := by decide
theorem test_parse_line :
    parseLine [("b", deltaB)] "  ingest_fic 0x1, @b ; symbol 1".toList = some [.ingestFic 1 deltaB] := by decide +kernel

/-! ### Commands: §2.7 and §2.9, one command each -/

theorem test_ingest_prs_full : after (exec .ingestPrs (put (State.initial cfgFull) (zeros 2 ++ deltaB)))
    (fun t => decide (t.slots = [some deltaV, none, none] ∧ t.pending = 1#32 ∧ t.fault = 0#6)) = true := by decide +kernel
theorem test_ingest_prs_overrun : after (exec .ingestPrs (put { sP with pending := 3#32 } delta2B))
    (fun t => decide (t.slots[0]? = some (some delta2V) ∧ t.pending = 4#32 ∧ t.fault = 0x10#6)) = true := by decide +kernel
theorem test_ingest_fic_strips_guard : after (exec (.ingestFic 1) (put sIn (one8 ++ one8 ++ deltaB)))
    (fun t => decide (t.slots = [some deltaV, some deltaV, none] ∧ t.pending = 2#32 ∧ t.fault = 0#6)) = true := by decide +kernel
theorem test_ingest_fic_priority : after (exec (.ingestFic 5) (put sP (zeros 3)))
    (fun t => decide (t.fault = 0x02#6 ∧ t.pending = 0#32 ∧ t.slots = [none, none, none])) = true := by decide +kernel
theorem test_ingest_msc_no_overrun : after (exec (.ingestMsc 2) (put { sP with pending := 2#32 } (zeros 2 ++ delta2B)))
    (fun t => decide (t.slots = [none, none, some delta2V] ∧ t.pending = 3#32 ∧ t.fault = 0#6)) = true := by decide +kernel
theorem test_ingest_msc_index_equals_length : after (exec (.ingestMsc 3) (put sP (zeros 10)))
    (fun t => decide (t.fault = 0x04#6 ∧ t.pending = 0#32)) = true := by decide +kernel
theorem test_stop_status : after (exec .stop sP) (fun t => decide (csrValue t .status = .bits 0#32)) = true := by decide +kernel
theorem test_stop_with_payload : after (exec .stop (put sP one8)) (fun t => decide (t.fault = 0x02#6 ∧ t.running = true)) = true := by
  decide +kernel
theorem test_read_csr_status : after (exec (.readCsr 0x10) sP)
    (fun t => decide (t.trace = [.response 0 (.word (.bits 0x00000001#32))])) = true := by decide +kernel
theorem test_read_csr_unassigned : after (exec (.readCsr 0x0007) sP)
    (fun t => decide (t.trace = [.response 0 (.word (.bits 0#32))] ∧ t.fault = 0x01#6)) = true := by decide +kernel
theorem test_xform_short : after (exec (.xform .fwd) (put (State.initial cfgX) (zeros 3)))
    (fun t => decide (t.trace = [.response 0 (.samples (List.replicate 4 Cplx.zero))] ∧ t.fault = 0x02#6)) = true := by
  decide +kernel
theorem test_csr_reset_values : allCsrs.map (csrValue sP) =
    [8, 2, 4, 3, 1, 2, 0, 1, 0, 0, 0, 0, 0, 0].map (fun n : Nat => Word32.bits (BitVec.ofNat 32 n)) := by decide +kernel

/-! ### The step and the host -/

theorem test_fetch_word_runs : after (step (sIn.withFetchWord 32 0x04000000))
    (fun t => decide (t.running = false ∧ t.wphase = .wait ∧ t.pending = 1#32)) = true := by decide +kernel
theorem test_illegal_word_step : after (step (ask sP [0x00#8, 0x00#8, 0x00#8, 0x07#8]))
    (fun t => decide (t.fault = 0x01#6 ∧ t.trace = [] ∧ t.hosts = [[]])) = true := by decide +kernel
theorem test_short_transaction : (match step (ask sP [0x00#8]) with | .refused r => decide (r = .truncatedWord) | _ => false) = true := by
  decide +kernel

/-! ### The worker: §2.6 and §2.8 -/

theorem test_dequeue_unwritten : after (runMove .dequeue { sP with pending := 1#32 })
    (fun t => decide (t.wphase = .faulted ∧ t.fault = 0x20#6 ∧ t.pending = 1#32)) = true := by decide +kernel
theorem test_reference_of_delta : after (runMove .process sRun)
    (fun t => decide (t.ref.map (Option.map (fun z => (z.re.rat?, z.im.rat?))) =
      (ints [(1, 0), (1, 0), (1, 0), (1, 0), (1, 0), (1, 0), (1, 0), (1, 0)]).map some ∧
      t.snrCnt = 1#4 ∧ t.curblk = 1 ∧ t.trace = [])) = true := by decide +kernel
theorem test_block_of_delta2 : after (runMove .process sData)
    (fun t => decide (t.trace = [.record (.fic (bits8 [127, 0, 0, 127, 0, -127, 127, 0]) 1#16)] ∧
      parts t.cbuf = ints [(-1, 0), (0, -1)] ∧ t.curblk = 2 ∧ t.pending = 0#32)) = true := by decide +kernel
theorem test_last_block_flushes : after (runMove .process sLast)
    (fun t => decide (t.trace.length = 2 ∧ t.trace[0]? = some (.record (.msc (bits8 [127, 0, 0, 127, 0, -127, 127, 0]) 2#16)) ∧
      t.cbuf = [] ∧ t.curblk = 0)) = true := by decide +kernel

/-! ### The transform: §2.3 -/

/-- `[1, 2, 3, 4]`. -/
def x4 : Vec := [rc 1 0, rc 2 0, rc 3 0, rc 4 0]
/-- `[10, −2+2j, −2, −2−2j]`. -/
def y4 : Vec := [rc 10 0, rc (-2) 2, rc (-2) 0, rc (-2) (-2)]

theorem test_dft_minus : parts (transform cfgX .fwd x4) = ints [(10, 0), (-2, 2), (-2, 0), (-2, -2)] := by decide +kernel
theorem test_dft_plus :
    parts (transform { cfgX with fftSign := .plus } .fwd x4) = ints [(10, 0), (-2, -2), (-2, 0), (-2, 2)] := by decide +kernel
theorem test_dft_unitary :
    parts (transform { cfgX with fftNorm := .unitary } .fwd x4) = ints [(5, 0), (-1, 1), (-1, 0), (-1, -1)] := by decide +kernel
theorem test_idft_none : parts (transform cfgX .inv y4) = ints [(4, 0), (8, 0), (12, 0), (16, 0)] := by decide +kernel
theorem test_idft_inv_n :
    parts (transform { cfgX with fftNorm := .invN } .inv y4) = ints [(1, 0), (2, 0), (3, 0), (4, 0)] := by decide +kernel

/-! ### The estimator, the mapper, the map and the wire forms: §2.1, §2.2, §2.4, §2.5 -/

theorem test_index_sets_P : noiseSet cfgP = [0, 7] ∧ signalSet cfgP = [3, 4] := by decide
theorem test_noise_set_empty_at_default_margins : noiseSet (defaultConfig 8 2 4 3 1 2 [-2, -1, 1, 2]) = [] := by decide
theorem test_flat_spectrum_snr : (snrInstant cfgP (List.replicate 8 (rc 1 0))).rat? = none ∧
    (meanModulus cfgP (binsAt cfgP (noiseSet cfgP) (List.replicate 8 (rc 3 0)))).rat? = some 3 := by decide +kernel
theorem test_soft_bits : ([(3, 4), (4, 3), (-3, -4), (1, 2), (2, -1), (1 / 2, -1 / 4), (1, 1), (2, 0), (0, 2), (0, 0)] : List (Rat × Rat)).map
    (fun p => softBit p.1 p.2) = [-54, -72, 54, -42, -84, -84, -63, -127, 0, 0] := by decide +kernel
theorem test_soft_bits_not_finite :
    softBits cfgP ⟨.lit 0x7FC00000#32, .lit 0#32⟩ = (.int8 0#8, .int8 0#8) := by decide +kernel
theorem test_map_mode_I : (dabMap 2048 1536).take 16 =
    [-513, -14, 329, 692, -733, 13, 680, 273, -36, 43, 85, -432, -318, 473, 516, 150] := by decide +kernel
theorem test_map_mode_II : (dabMap 512 384).take 8 = [-129, -14, -55, -76, 163, 141, -88, 7] ∧
    (dabMap 512 384).drop 380 = [-116, 155, 94, -187] := by decide +kernel
theorem test_map_mode_III : (dabMap 256 192).take 8 = [-65, -14, 52, -29, -58, 77, 40, 71] ∧
    (dabMap 256 192).drop 188 = [12, -37, 94, 5] := by decide +kernel
theorem test_map_mode_IV : (dabMap 1024 768).take 8 = [-257, -14, 73, 180, 198, -243, 168, 218] ∧
    (dabMap 1024 768).drop 764 = [10, 140, 27, -59] := by decide +kernel
theorem test_legal_configurations : [cfgP, cfgQ, cfgX].map configLegal = [true, true, true] := by decide +kernel
theorem test_illegal_maps : configLegal { cfgP with k := 2, carrierMap := [-2, 6] } = false ∧
    configLegal { cfgP with k := 1, carrierMap := [8] } = false := by decide +kernel
theorem test_scenario_legal : configLegal (scenarioConfig 7) = true := by decide +kernel
theorem test_wire_block : recordBytes (.fic (bits8 [-127, -127, -127, -127, 0, 0, 0, 0]) 1#16) =
    [0x01#8, 0x00#8, 0x81#8, 0x81#8, 0x81#8, 0x81#8, 0x00#8, 0x00#8, 0x00#8, 0x00#8] := by decide +kernel
theorem test_wire_flush : recordBytes (.const [rc 1 0, rc 0 (-1)]) =
    [0x02#8, 0x00#8, 0x00#8, 0x00#8, 0x00#8, 0x00#8, 0x80#8, 0x3F#8, 0x00#8, 0x00#8, 0x00#8, 0x00#8,
     0x00#8, 0x00#8, 0x00#8, 0x00#8, 0x00#8, 0x00#8, 0x80#8, 0xBF#8] := by decide +kernel
theorem test_nearest_even : f32Round ((13584516634683677 : Rat) / 10 ^ 15) = 0x41595A2E#32 ∧
    f32Round ((1 : Rat) + 1 / 2 ^ 24) = 0x3F800000#32 ∧ f32Round ((1 : Rat) + 3 / 2 ^ 24) = 0x3F800002#32 := by decide +kernel

/-! ### Witnesses: a concrete state and operands for the hypotheses of every statement that has some -/
theorem witness_DecodeOfEncodeIsIdentity : (Instr.ingestMsc 65535).wellFormed = true ∧ (Instr.xform .inv).wellFormed = true := by decide

theorem witness_EncodeOfDecodeIsIdentity :
    decode [0xFF#8, 0xFF#8, 0x00#8, 0x03#8, 0x05#8] = .ok (.ingestMsc 65535, [0x05#8]) := rfl

theorem witness_IllegalWordsOnlySetIllegalCmd :
    (∃ r, r ∈ opRows ∧ r.hits 0x06000001#32 = true) ∧ (ask sP [0x02#8, 0x00#8, 0x00#8, 0x06#8]).released = false ∧
    pick (ask sP [0x02#8, 0x00#8, 0x00#8, 0x06#8]) = (some (.host 0), ask sP [0x02#8, 0x00#8, 0x00#8, 0x06#8]) ∧
    (ask sP [0x02#8, 0x00#8, 0x00#8, 0x06#8]).hosts.getD 0 [] = .cmd (0x02#8 :: 0x00#8 :: 0x00#8 :: 0x06#8 :: []) :: [] ∧
    ∀ r, r ∈ opRows → r.hits (leWord 0x02#8 0x00#8 0x00#8 0x06#8) = false := by
  refine ⟨⟨⟨.xform, 0x06000000#32, 0xFFFFFFFE#32⟩, by decide⟩, rfl, rfl, rfl, by decide⟩

theorem witness_StepRunsTheDecodedCommand :
    (ask sIn [0x00#8, 0x00#8, 0x00#8, 0x04#8]).released = false ∧
    pick { ask sIn [0x00#8, 0x00#8, 0x00#8, 0x04#8] with choices := [0] } =
      (some (.host 0), ask sIn [0x00#8, 0x00#8, 0x00#8, 0x04#8]) ∧
    decode [0x00#8, 0x00#8, 0x00#8, 0x04#8] = .ok (.stop, []) := by
  refine ⟨rfl, rfl, rfl⟩

theorem witness_FetchWordRunsNext : sRun.released = false ∧ (Instr.readCsr 65535).wellFormed = true := by decide

theorem witness_EveryStepCompletes : (ask sRun [0x00#8, 0x00#8, 0x00#8, 0x00#8]).released = false ∧
    (∀ (h : Nat) (bytes : List Byte) (rest : List HostReq),
      (ask sRun [0x00#8, 0x00#8, 0x00#8, 0x00#8]).hosts.getD h [] = .cmd bytes :: rest → 4 ≤ bytes.length) ∧
    (ask sRun [0x00#8, 0x00#8, 0x00#8, 0x00#8]).wphase = .run ∧ (ask sRun [0x00#8, 0x00#8, 0x00#8, 0x00#8]).work ≠ none := by
  refine ⟨rfl, fun h bytes rest hq => ?_, rfl, by decide⟩
  match h with
  | 0 =>
    obtain ⟨hb, -⟩ := List.cons.inj hq
    rw [← HostReq.cmd.inj hb]; decide
  | h + 1 => simp [ask] at hq

theorem witness_BlockedWorkerHasNoMove :
    sP.wphase = .wait ∧ sP.pending = 0#32 ∧ sP.running = true ∧ (∀ q, q ∈ sP.hosts → q = []) ∧ sP.released = false := by decide

theorem witness_DrainAfterStopIsOpen :
    sStop.wphase = .wait ∧ sStop.pending ≠ 0#32 ∧ sStop.running = false ∧ sRun.wphase = .run := by decide

theorem witness_ReleaseEndsTheInstance : { sP with released := true }.released = true ∧
    after (step sRel) (fun t => decide (t.released = true)) = true ∧
    (∀ p, p ∈ [WPhase.wait, .exited, .faulted] →
      { sP with wphase := p, hosts := [[.pollJoin, .release]] }.released = false ∧
      pick { sP with wphase := p, hosts := [[.pollJoin, .release]] } =
        (some (.host 0), { sP with wphase := p, hosts := [[.pollJoin, .release]] }) ∧
      { sP with wphase := p, hosts := [[.pollJoin, .release]] }.hosts.getD 0 [] = .pollJoin :: [.release]) := by decide +kernel

theorem test_poll_waits : after (step { sP with hosts := [[.pollJoin, .release]] })
    (fun t => decide (t.hosts = [[.pollJoin, .release]] ∧ t.trace = [.response 0 (.word (.bits 0x00000001#32))])) = true := by decide +kernel
theorem test_poll_ends : after (step { sP with wphase := .exited, running := false, hosts := [[.pollJoin, .release]] })
    (fun t => decide (t.hosts = [[.release]] ∧ t.trace = [.response 0 (.word (.bits 0x00000004#32))])) = true := by decide +kernel

theorem witness_IngestPrsWritesSlotZero :
    ((put sP (zeros 9)).port.payload.length ≠ 8 * cfgP.tU ∧ (put sP (zeros 8 ++ [0#8])).port.payload.length ≠ 8 * cfgP.tU) ∧
    ((put { sP with pending := 0xFFFFFFFF#32 } deltaB).port.payload.length = 8 * cfgP.tU) ∧
    ((put { sP with pending := 0xFFFFFFFE#32 } deltaB).port.payload.length = 8 * cfgP.tU ∧ cfgP.prsMode = .useful) ∧
    ((put (State.initial cfgFull) (zeros 10)).port.payload.length = 8 * (cfgFull.tU + cfgFull.tG) ∧ cfgFull.prsMode ≠ .useful) := by
  decide

theorem witness_DataIngestWritesItsSlot :
    (put sP (zeros 9)).port.payload.length ≠ 8 * (cfgP.tU + cfgP.tG) ∧
    ((put sP (zeros 10)).port.payload.length = 8 * (cfgP.tU + cfgP.tG) ∧ cfgP.l ≤ 3 ∧ 2 < cfgP.l) ∧
    (put { sP with pending := 0xFFFFFFFF#32 } (zeros 10)).pending = 0xFFFFFFFF#32 ∧
    ((put { sP with pending := 3#32 } (zeros 10)).pending ≠ 0xFFFFFFFF#32 ∧ cfgP.l ≤ (3#32).toNat ∧ ¬ cfgP.l ≤ (2#32).toNat) := by
  decide

theorem witness_StopClearsRunning : (put sP []).port.payload = [] ∧ (put (State.initial cfgLax) [0#8]).cfg.lengthCheckAll = false := by decide

theorem witness_ReadCsrAnswersOnce : (put sP []).port.payload = [] ∧ (put (State.initial cfgLax) [0#8]).cfg.lengthCheckAll = false ∧
    ∀ r : Csr, csrNumber r ≠ 0x0016 := by
  refine ⟨rfl, rfl, fun r => by cases r <;> decide⟩

theorem witness_CheckedLengthOfEmptyCommands :
    (put sP [0#8]).port.payload ≠ [] ∧ (put sP [0#8]).cfg.lengthCheckAll = true ∧ State.reset.cfg.lengthCheckAll = true := by
  refine ⟨by decide, by decide, rfl⟩

theorem witness_XformAnswersTheTransform : (put sP deltaB).port.payload.length = 8 * cfgP.tU ∧
    (put sP (zeros 7)).port.payload.length ≠ 8 * cfgP.tU := by decide

theorem witness_CommandsLeaveWorkerState : after (exec .ingestPrs (put sRun deltaB)) (fun t => decide (t.pending = 2#32)) = true := by
  decide +kernel

theorem witness_AbortingFaultsArePrecise : FaultBit.badLength ≠ .overrun ∧ faultSet (put sIn []) .badLength = false ∧
    after (exec .ingestPrs (put sIn [])) (fun t => faultSet t .badLength) = true := by decide +kernel

theorem witness_OneFaultInPriorityOrder :
    (faultSet (put sIn []) .badLength = false ∧ after (exec .ingestPrs (put sIn [])) (fun t => faultSet t .badLength) = true) ∧
    csrOf 0xFFFF = none ∧ after (exec (.readCsr 0xFFFF) sP) (fun t => decide (t.fault = 0x01#6)) = true ∧
    after (exec (.ingestMsc 65535) (put sP (zeros 10))) (fun t => decide (t.fault = 0x04#6)) = true := by decide +kernel

theorem witness_OnlyResetUndoesThese :
    after (step { sP with wphase := .exited, running := false, fault := 0x3F#6 }) (fun _ => true) = true ∧
    after (step { sP with wphase := .faulted }) (fun _ => true) = true := by decide +kernel

theorem witness_DequeueCopiesTheSlot : sIn.slots[sIn.curblk]? = some (some deltaV) ∧ sP.slots[sP.curblk]? = some none := by decide

theorem witness_ExitStopsTheWorker : sRel.wphase = .exited := by decide

theorem witness_RetireFlushesAtTheWrap : (sLast.curblk + 1) % sLast.cfg.l = 0 ∧ (sData.curblk + 1) % sData.cfg.l ≠ 0 ∧
    ((State.initial cfgQ).curblk + 1) % cfgQ.l = 0 := by decide

/-- A reference symbol with an infinite sample. -/
def infV : Vec := ⟨.lit 0x7F800000#32, .lit 0#32⟩ :: List.replicate 7 Cplx.zero

/-- The ninth count, `L = 1`, and a symbol that is not finite, beside the plain case. -/
theorem witness_PositionZeroRefreshesTheReference : (sRun.work = some deltaV ∧ sRun.curblk = 0) ∧
    ({ sRun with snrCnt := 9#4 }.work = some deltaV ∧ { sRun with snrCnt := 9#4 }.curblk = 0 ∧ { sRun with snrCnt := 9#4 }.snrCnt = 9#4) ∧
    ({ sRun with cfg := cfgQ, snrCnt := 8#4 }.cfg.l = 1 ∧ { sRun with cfg := cfgQ, snrCnt := 8#4 }.work = some deltaV ∧
      { sRun with cfg := cfgQ, snrCnt := 8#4 }.curblk = 0) ∧
    ({ sRun with work := some infV }.work = some infV ∧ { sRun with work := some infV }.curblk = 0 ∧
      (transform cfgP .fwd infV).all Cplx.finite = false) := by decide +kernel

theorem test_ninth_count_reports_and_flushes : after (runMove .process { sRun with cfg := cfgQ, snrCnt := 9#4 })
    (fun t => decide (t.snrCnt = 0#4 ∧ t.curblk = 0 ∧ t.trace.length = 2 ∧ t.trace[1]? = some (.record (.const [])))) = true := by
  decide +kernel

theorem witness_DataPositionEmitsItsBlock : configLegal sLast.cfg = true ∧ sLast.work = some delta2V ∧ sLast.curblk ≠ 0 ∧
    sLast.curblk < sLast.cfg.l ∧ sData.curblk < sData.cfg.l ∧ sLast.ref.length = sLast.cfg.tU ∧
    (∀ k, k < sLast.cfg.tU → (readRef sLast.ref k).isSome = true) := by decide +kernel

theorem witness_EveryTenthUpdateReports : sP.snrCnt = 0#4 := by decide

theorem witness_UnwrittenStorageStopsTheWorker : sP.work = none ∧
    ({ sData with ref := List.replicate 8 none }.work = some delta2V ∧ { sData with ref := List.replicate 8 none }.curblk ≠ 0 ∧
      configLegal cfgP = true ∧ 3 < cfgP.k ∧ carrierBin cfgP 3 = some 2 ∧ readRef (List.replicate 8 none) 2 = none) := by decide +kernel

theorem witness_WorkerStepsLeaveHostState : after (runMove .process sLast) (fun _ => true) = true ∧
    after (runMove .dequeue sIn) (fun _ => true) = true := by decide +kernel

theorem witness_ConfigurationNeverChanges : after (step (sIn.withFetchWord 32 0x04000000)) (fun t => decide (t.cfg = cfgP)) = true := by
  decide +kernel

theorem witness_PositionsCycleByOne : after (step sLast) (fun t => decide (t.curblk = 0)) = true := by decide +kernel

theorem witness_TraceOnlyGrows : after (step sLast) (fun t => decide (t.trace.length = 2)) = true := by decide +kernel

theorem witness_ResetMeetsTheStructuralInvariant : State.resetWith cfgP = some sP := by decide +kernel

/-- The initial state of configuration P meets the structural invariant. -/
theorem inv_sP : sP.Inv := by
  refine ⟨by decide +kernel, by decide +kernel, by decide, by decide, ?_, by decide, ?_, by decide, by decide, by decide⟩
  · intro h; exact absurd h (by decide)
  · intro h; exact absurd rfl h

theorem witness_StepKeepsTheStructuralInvariant : sLast.Inv ∧ after (step sLast) (fun _ => true) = true := by
  refine ⟨⟨by decide +kernel, by decide +kernel, by decide, by decide, fun _ => ⟨delta2V, by decide, by decide⟩, by decide,
    fun _ => by decide, by decide, by decide, by decide⟩, by decide +kernel⟩

/-- In each of the three arithmetics; the reference of the third holds patterns of its format. -/
theorem witness_StepKeepsHeldNumbersPatterns :
    (sData.Held ∧ after (step sData) (fun _ => true) = true) ∧
    ({ sData with cfg := cfgB }.Held ∧ after (step { sIn with cfg := cfgB }) (fun _ => true) = true ∧ { sIn with cfg := cfgB }.Held) ∧
    ({ sIn with cfg := cfgF, ref := List.replicate 8 (some (Cplx.ofCodes 7 (1, 2))) }.Held ∧
      after (step { sIn with cfg := cfgF, ref := List.replicate 8 (some (Cplx.ofCodes 7 (1, 2))) }) (fun _ => true) = true) := by
  refine ⟨⟨⟨by decide, by decide, by decide, by decide, by decide⟩, by decide +kernel⟩,
    ⟨⟨by decide, by decide, by decide, by decide, by decide⟩, by decide +kernel, ⟨by decide, by decide, by decide, by decide, by decide⟩⟩,
    ⟨⟨by decide, by decide, by decide, by decide, by decide⟩, by decide +kernel⟩⟩

/-- A reachable state in phase `RUN`: reset, one ingress, one dequeue. -/
theorem witness_ReachableProcessNeverReadsUnwritten : ∃ s, Reachable s ∧ s.wphase = .run := by
  have h0 : Reachable sP := .reset cfgP sP witness_ResetMeetsTheStructuralInvariant
  obtain ⟨t, ht, hp⟩ := of_nextOf (o := step (sP.supply [[.cmd (encodeBytes .ingestPrs deltaB)]] []))
    (p := fun t => after (step (t.supply [] [])) (fun u => decide (u.wphase = .run))) (by decide +kernel)
  obtain ⟨u, hu, hr⟩ := of_nextOf hp
  exact ⟨u, .step t u [] [] (.step sP t _ _ h0 ht) hu, by simpa using hr⟩

/-- Stopped and waiting, with no request. -/
def sExit : State := { sP with running := false }

/-- The run that exits and then stays. -/
def runExit : Execution where
  st := fun n => match n with
    | 0 => sExit
    | _ + 1 => { sExit with wphase := .exited }
  hosts := fun _ => []
  choices := fun _ => []

theorem witness_TeardownEnds : runExit.Valid ∧ runExit.Fair ∧ (runExit.st 0).running = false := by
  have hn : ∀ n, 1 ≤ n → runExit.before n = { sExit with wphase := .exited } := by
    intro n h
    obtain ⟨m, rfl⟩ := Nat.exists_eq_succ_of_ne_zero (Nat.one_le_iff_ne_zero.mp h)
    rfl
  refine ⟨fun n => ?_, ⟨fun n h => ?_, fun n h => ?_, fun h => ?_⟩, rfl⟩
  · match n with
    | 0 => rfl
    | m + 1 => rfl
  · have := h (n + 1) (by omega)
    rw [hn _ (by omega)] at this
    exact absurd this (by decide)
  · have := h (n + 1) (by omega)
    rw [hn _ (by omega)] at this
    exact absurd this (by decide)
  · obtain ⟨m, hm, he⟩ := h 1
    rw [hn m hm] at he
    exact absurd he (by decide)

/-- Nothing ingested yet. -/
theorem coherent_start : Coherent sP [] 0 :=
  ⟨by decide, by decide, by decide, by decide, fun j _ h => absurd h (by simp), by decide, .inl rfl⟩

/-- One symbol ingested and not dequeued. -/
theorem coherent_sIn : Coherent sIn [deltaV] 0 := by
  refine ⟨by decide, by decide, by decide, by decide, fun j h1 h2 => ?_, by decide, .inl rfl⟩
  have : j = 0 := by simpa using h2
  subst this; decide

/-- One symbol ingested and dequeued. -/
theorem coherent_sRun : Coherent sRun [deltaV] 1 := by
  refine ⟨by decide, by decide, by decide, by decide, fun j h1 h2 => ?_, by decide, .inr rfl⟩
  have : j = 0 := by simpa using h2
  subst this; decide

theorem witness_ContractIngressKeepsCoherence :
    (Coherent (put sP deltaB) [] 0 ∧ (put sP deltaB).Inv ∧ sP.pending.toNat < sP.cfg.l ∧
      (put sP deltaB).port.payload.length = 8 * nPayload cfgP (contractInstr cfgP 0)) ∧
    (Coherent (put sIn (zeros 2 ++ delta2B)) [deltaV] 0 ∧ (put sIn (zeros 2 ++ delta2B)).Inv ∧ sIn.pending.toNat < sIn.cfg.l ∧
      (put sIn (zeros 2 ++ delta2B)).port.payload.length = 8 * nPayload cfgP (contractInstr cfgP 1)) := by
  obtain ⟨a1, a2, a3, a4, a5, a6, a7⟩ := coherent_start
  obtain ⟨b1, b2, b3, b4, b5, b6, b7⟩ := coherent_sIn
  obtain ⟨i1, i2, i3, i4, i5, i6, i7, i8, i9, i10⟩ := inv_sP
  refine ⟨⟨⟨a1, a2, a3, a4, a5, a6, a7⟩, ⟨i1, i2, i3, i4, i5, i6, i7, i8, i9, i10⟩, by decide, by decide⟩,
    ⟨⟨b1, b2, b3, b4, b5, b6, b7⟩, ⟨by decide +kernel, by decide +kernel, by decide, by decide, ?_, by decide, ?_, by decide, by decide, by decide⟩, by decide, by decide⟩⟩
  · intro h; exact absurd h (by decide)
  · intro h; exact absurd rfl h

theorem witness_DequeueReadsTheMatchingIngress :
    (Coherent sIn [deltaV] 0 ∧ sIn.wphase = .wait ∧ sIn.pending ≠ 0#32) ∧
    (Coherent sRun [deltaV] 1 ∧ sRun.wphase = .run ∧ sRun.pending ≠ 0#32 ∧
      after (runMove .process sRun) (fun t => decide (t.wphase = .wait)) = true) ∧
    after (exec (.readCsr 0x10) sIn) (fun _ => true) = true ∧ after (exec (.xform .inv) (put sIn [])) (fun _ => true) = true :=
  ⟨⟨coherent_sIn, by decide, by decide⟩, ⟨coherent_sRun, by decide, by decide, by decide +kernel⟩, by decide +kernel, by decide +kernel⟩

theorem witness_OpenSnrStaysOpen :
    (after (step { sRun with snrFree := true }) (fun _ => true) = true ∧ { sRun with snrFree := true }.snrFree = true) ∧
    [(⟨.lit 0x7F800000#32, .lit 0#32⟩ : Cplx)].all Cplx.finite = false := by decide +kernel

/-! ### Witnesses of the statements over the reals -/

theorem rc_val (a b : ℚ) : (rc a b).val = ⟨a, b⟩ := rfl

/-- Eight ones, as exact numbers. -/
def flat8 : Vec := List.replicate 8 (rc 1 0)

theorem witness_SnrWordIsNearest :
    (Machine.Num.rat (1 + 1 / 2 ^ 24)).isPattern = false ∧ (Machine.Num.rat (1 + 1 / 2 ^ 24)).finite = true ∧
    |(Machine.Num.rat (1 + 1 / 2 ^ 24)).val| < 2 ^ 128 - 2 ^ 103 ∧
    (Machine.Num.rat (1 + 1 / 2 ^ 24)).word.value = 0x3F800000#32 ∧ f32Finite 0x3F800001#32 = true ∧
    |(Machine.Num.rat (1 + 1 / 2 ^ 24)).val - ((f32ToRat 0x3F800000#32 : ℚ) : ℝ)| =
      |(Machine.Num.rat (1 + 1 / 2 ^ 24)).val - ((f32ToRat 0x3F800001#32 : ℚ) : ℝ)| ∧
    f32ToRat 0x3F800001#32 ≠ f32ToRat 0x3F800000#32 := by
  have h0 : f32ToRat 0x3F800000#32 = 1 := by decide +kernel
  have h1 : f32ToRat 0x3F800001#32 = 1 + 1 / 2 ^ 23 := by decide +kernel
  have hv : (Machine.Num.rat (1 + 1 / 2 ^ 24)).val = 1 + 1 / 2 ^ 24 := by simp [Machine.Num.val]
  have hw : (Machine.Num.rat (1 + 1 / 2 ^ 24)).word = .bits 0x3F800000#32 := by decide +kernel
  refine ⟨rfl, rfl, ?_, ?_, by decide, ?_, ?_⟩
  · rw [hv, abs_of_pos (by norm_num)]; norm_num
  · rw [hw]; rfl
  · rw [hv, h0, h1]; push_cast; norm_num [abs_of_pos, abs_of_neg]
  · rw [h0, h1]; norm_num

theorem witness_TransformIsTheSum : cfgP.numerics = .real ∧ deltaV.length = cfgP.tU ∧ deltaV.all Cplx.finite = true ∧ 7 < cfgP.tU := by decide

theorem witness_TransformRoundTrip : cfgP.numerics = .real ∧ deltaV.length = cfgP.tU ∧ deltaV.all Cplx.finite = true ∧ 0 < cfgP.tU ∧
    Dir.fwd ≠ .inv ∧ Dir.inv ≠ .fwd := by decide

theorem witness_TransformCornerCases :
    (cfgTwo .minus).numerics = .real ∧ ([rc 0 0, rc 0 0] : Vec).length = (cfgTwo .minus).tU ∧
    ([rc 0 0, rc 0 0] : Vec).all Cplx.finite = true ∧
    (∀ n, n < (cfgTwo .minus).tU → (([rc 0 0, rc 0 0] : Vec).getD n Cplx.zero).val = 0) ∧
    (∀ n, n < (cfgTwo .minus).tU → (([rc 5 0, rc 0 0] : Vec).getD n Cplx.zero).val =
      2 * (([rc 1 0, rc 0 0] : Vec).getD n Cplx.zero).val + 3 * (([rc 1 0, rc 0 0] : Vec).getD n Cplx.zero).val) ∧
    0 < (cfgTwo .minus).tU ∧
    (∀ n, n < (cfgTwo .minus).tU → (([rc 0 0, rc 1 0] : Vec).getD n Cplx.zero).val = if n = 1 then 1 else 0) := by
  have h2 : (cfgTwo .minus).tU = 2 := rfl
  refine ⟨rfl, rfl, by decide, fun n hn => ?_, fun n hn => ?_, by decide, fun n hn => ?_⟩ <;> rw [h2] at hn <;> interval_cases n <;>
    (apply Complex.ext <;> simp [rc_val]) <;> norm_num

theorem witness_ToneLandsInItsBin (sign : FftSign) :
    (cfgTwo sign).numerics = .real ∧ ([rc 1 0, rc (-1) 0] : Vec).length = (cfgTwo sign).tU ∧
    ([rc 1 0, rc (-1) 0] : Vec).all Cplx.finite = true ∧ 1 < (cfgTwo sign).tU ∧ 0 < (cfgTwo sign).tU ∧
    (∀ n, n < (cfgTwo sign).tU → (([rc 1 0, rc (-1) 0] : Vec).getD n Cplx.zero).val =
      1 * Complex.exp (Complex.I * (2 * Real.pi * (1 : ℕ) * n / (cfgTwo sign).tU))) := by
  have h2 : (cfgTwo sign).tU = 2 := rfl
  refine ⟨rfl, rfl, by decide, Nat.lt_succ_self 1, Nat.zero_lt_two, fun n hn => ?_⟩
  rw [h2] at hn ⊢
  interval_cases n
  · apply Complex.ext <;> simp [rc_val]
  · have : Complex.I * (2 * Real.pi * (1 : ℕ) * (1 : ℕ) / (2 : ℕ)) = Real.pi * Complex.I := by push_cast; ring
    rw [this, Complex.exp_pi_mul_I]
    apply Complex.ext <;> simp [rc_val]

theorem witness_DifferentialProductIsConjugateProduct :
    cfgP.numerics = .real ∧ (rc 1 2).finite = true ∧ (rc 3 4).finite = true ∧ (rc 1 2).val ≠ 0 ∧ (rc 3 4).val ≠ 0 := by
  refine ⟨rfl, rfl, rfl, ?_, ?_⟩ <;> intro h <;> simpa [rc_val] using congrArg Complex.re h

theorem witness_SoftBitsAreTheMapper : cfgP.numerics = .real ∧ (rc 3 4).finite = true ∧ (rc 0 0).finite = true ∧
    (⟨.lit 0x7FC00000#32, .lit 0#32⟩ : Cplx).finite = false := by decide

/-- The eight multiples of a quarter of π, with their soft bits from rule R230. -/
theorem witness_SoftBitRangeAndQuadrants : cfgP.numerics = .real ∧
    (∀ q ∈ ([(1, 0, -127, 0), (1, 1, -63, -63), (0, 1, 0, -127), (-1, 1, 63, -63), (-1, 0, 127, 0), (-1, -1, 63, 63), (0, -1, 0, 127),
      (1, -1, -63, 63)] : List (Rat × Rat × Int × Int)),
      (rc q.1 q.2.1).finite = true ∧ softBits cfgP (rc q.1 q.2.1) = (.int8 (BitVec.ofInt 8 q.2.2.1), .int8 (BitVec.ofInt 8 q.2.2.2))) ∧
    (rc 1 0).val ≠ 0 ∧ (rc 1 0).re.val = 1 ∧ (rc 1 0).im.val = 0 := by
  refine ⟨rfl, by decide +kernel, fun h => ?_, ?_, ?_⟩
  · simpa [rc_val] using congrArg Complex.re h
  · simp [rc, Machine.Num.val]
  · simp [rc, Machine.Num.val]

theorem witness_SoftBitsIgnoreScale : cfgP.numerics = .real ∧ (rc 1 2).finite = true ∧ (rc 2 4).finite = true ∧
    (rc 2 4).val = ((2 : ℝ) : ℂ) * (rc 1 2).val ∧ (rc 1 2).val = (rc 1 2).val ∧ (rc 0 0).val = 0 := by
  refine ⟨rfl, rfl, rfl, ?_, rfl, ?_⟩ <;> (apply Complex.ext <;> simp [rc_val]) <;> norm_num

theorem witness_InstantaneousSnrIsTheDifference : cfgP.numerics = .real ∧ flat8.length = cfgP.tU ∧ flat8.all Cplx.finite = true ∧
    cfgP.snrInstQuant = .none ∧ { cfgP with snrInstQuant := .truncInt }.snrInstQuant = .truncInt := by decide

theorem witness_SmoothingIsTheMovingAverage : sP.snrFree = false ∧ flat8.all Cplx.finite = true ∧ sP.cfg.numerics = .real ∧
    (State.initial cfgB).snrFree = false ∧ (State.initial cfgB).cfg.numerics = .binary32 ∧
    (State.initial cfgF).snrFree = false ∧ (State.initial cfgF).cfg.numerics = .format 7 := by decide

theorem witness_SnrCornerCases :
    cfgP.numerics = .real ∧ cfgP.snrInstQuant = .none ∧ flat8.length = cfgP.tU ∧ flat8.all Cplx.finite = true ∧ 0 < cfgP.tU ∧
    (∀ k, k < cfgP.tU → ((List.replicate 8 (rc 0 0)).getD k Cplx.zero).val = 0) ∧
    noiseSet cfgP ≠ [] ∧ signalSet cfgP ≠ [] ∧ (∀ k, k < cfgP.tU → ‖(flat8.getD k Cplx.zero).val‖ = 1) ∧ cfgP.dbOffset = 1 ∧
    (∀ j, j ∈ noiseSet cfgP → ((rc 8 0 :: List.replicate 7 (rc 0 0)).getD (centredBin cfgP j) Cplx.zero).val = 0) ∧
    noiseSet (defaultConfig 8 2 4 3 1 2 [-2, -1, 1, 2]) = [] ∧ cfgX.k < 4 ∧ 4 ≤ cfgP.k ∧ cfgP.k ≤ cfgP.tU ∧ cfgP.tU % 2 = 0 := by
  have h8 : cfgP.tU = 8 := rfl
  have hz : (rc 0 0).val = 0 := by apply Complex.ext <;> simp [rc_val]
  have h1 : ‖(rc 1 0).val‖ = 1 := by
    have : (rc 1 0).val = 1 := by apply Complex.ext <;> simp [rc_val]
    rw [this]; simp
  refine ⟨rfl, rfl, rfl, by decide, by decide, fun k hk => ?_, by decide, by decide, fun k hk => ?_, by decide, fun j hj => ?_, by decide,
    by decide, by decide, by decide, by decide⟩
  · rw [h8] at hk; interval_cases k <;> exact hz
  · rw [h8] at hk; interval_cases k <;> exact h1
  · have hn : noiseSet cfgP = [0, 7] := by decide
    rw [hn] at hj
    rcases List.mem_cons.mp hj with rfl | hj
    · exact hz
    · obtain rfl := List.mem_singleton.mp hj; exact hz

theorem witness_BinIsTheMapModuloLength : configLegal { cfgP with carrierMap := [-8, -1, 7 - 6, 6] } = true ∧
    [-8, -1, 7 - 6, (6 : Int)][0]? = some (-8) ∧ carrierBin { cfgP with carrierMap := [-8, -1, 7 - 6, 6] } 0 = some 0 ∧
    carrierBin { cfgP with carrierMap := [-8, -1, 7 - 6, 6] } 1 = some 7 ∧
    carrierBin { cfgP with carrierMap := [-8, -1, 7 - 6, 6] } 3 = some 6 := by decide +kernel

theorem witness_PseudoCommandsExpand : (configLegal cfgP = true ∧ [deltaB, zeros 10, zeros 10].length = cfgP.l) ∧
    (1 ≤ 1 ∧ 1 ≤ cfgP.nFic ∧ 1 ≤ 65535) ∧ (cfgP.nFic < 2 ∧ 2 ≤ 65535) ∧ (cfgP.nFic < 65535 ∧ 65535 ≤ 65535) ∧ 65535 < 65536 := by
  decide +kernel

theorem test_supply_has_n_host : (sP.supply [] []).hosts = [[]] ∧
    ({ sP with cfg := { cfgP with nHost := 2 } }.supply [[.release], [.pollJoin], [.release]] []).hosts = [[.release], [.pollJoin]] := by decide

end Sys2Proof.Tests
end

section
/-! PROOF. The legality check of reset says exactly rules R8 and R170 (O37). -/

namespace Sys2Proof.Machine

/-- One wraparound of a signed bin in range is its residue modulo `T_u` (rules R170, R171). -/
theorem wrapBin_eq_emod {t : Nat} {m : Int} (h : -(t : Int) ≤ m ∧ m < t) : wrapBin t m = m % t := by
  have hw := wrapBin_range h
  rw [← Int.emod_eq_of_lt hw.1 hw.2]
  unfold wrapBin
  split
  · exact Int.add_emod_right m t
  · rfl

/-- The bins of a map in range are the residues of its values, held as natural numbers. -/
theorem carrierBins_map_cast {c : Config} (h : ∀ m, m ∈ c.carrierMap → -(c.tU : Int) ≤ m ∧ m < c.tU) :
    (carrierBins c).map (Nat.cast : Nat → Int) = c.carrierMap.map (fun m => m % (c.tU : Int)) := by
  rw [carrierBins, List.map_map]
  refine List.map_congr_left fun m hm => ?_
  rw [Function.comp, Int.toNat_of_nonneg (wrapBin_range (h m hm)).1, wrapBin_eq_emod (h m hm)]

/-- For a map in range, pairwise distinct bins are pairwise distinct residues (rule R170). -/
theorem carrierBins_nodup_iff {c : Config} (h : ∀ m, m ∈ c.carrierMap → -(c.tU : Int) ≤ m ∧ m < c.tU) :
    (carrierBins c).Nodup ↔ (c.carrierMap.map (fun m => m % (c.tU : Int))).Nodup := by
  rw [← carrierBins_map_cast h, List.nodup_map_iff Nat.cast_injective]

theorem rangesLegal_iff (c : Config) : rangesLegal c = true ↔
    (c.tU % 2 = 0 ∧ 2 ≤ c.tU ∧ c.tU ≤ 65536) ∧ c.tG ≤ 65536 ∧ (1 ≤ c.k ∧ c.k ≤ c.tU) ∧ (1 ≤ c.l ∧ c.l ≤ 65536) ∧
      c.nFic ≤ c.l - 1 ∧ (1 ≤ c.constDecim ∧ c.constDecim ≤ 65535) ∧ 0 < c.dbOffset ∧ 1 ≤ c.nHost := by
  simp only [rangesLegal, Bool.and_eq_true, decide_eq_true_eq, and_assoc]

theorem mapLegal_iff (c : Config) : mapLegal c = true ↔
    c.carrierMap.length = c.k ∧ (∀ m, m ∈ c.carrierMap → -(c.tU : Int) ≤ m ∧ m < c.tU) ∧
      (c.carrierMap.map (fun m => m % (c.tU : Int))).Nodup := by
  have hd : distinctFrom 0 (carrierBins c) = true ↔ (carrierBins c).Nodup := by simp [distinctFrom_iff]
  simp only [mapLegal, Bool.and_eq_true, decide_eq_true_eq, List.all_eq_true, hd, and_assoc]
  exact and_congr_right fun _ => and_congr_right carrierBins_nodup_iff

theorem resetWith_eq_none_iff (c : Config) : State.resetWith c = none ↔ ¬ configLegal c = true := by
  simp [State.resetWith]

/-- Settles O37: reset refuses exactly what the check rejects, and the check's two parts are rules R8 and R170. -/
theorem resetRefusesIllegalConfigurations : Obligations.ResetRefusesIllegalConfigurations := by
  intro c
  rw [resetWith_eq_none_iff, configLegal, Bool.and_eq_true, rangesLegal_iff, mapLegal_iff]
  simp only [and_assoc]

end Sys2Proof.Machine
end

section
/-! PROOF. No step changes the configuration (O33). -/

namespace Sys2Proof.Machine

@[simp] theorem markOverrun_cfg (s : State) : (markOverrun s).cfg = s.cfg := by rw [markOverrun_eq]

/-- No command changes the configuration (rules R8, R101 to R107). -/
theorem exec_cfg {i : Instr} {s t : State} (h : exec i s = .next t) : t.cfg = s.cfg := by
  rcases exec_cases h with ⟨f, -, rfl | rfl | rfl⟩ | ⟨b, v, -, -, -, rfl⟩ | rfl | ⟨r, rfl⟩
  all_goals simp

@[simp] theorem workerDequeue_cfg (s : State) : (workerDequeue s).cfg = s.cfg := by
  unfold workerDequeue
  split <;> rfl

@[simp] theorem smoothSnr_cfg (x : Vec) (s : State) : (smoothSnr x s).cfg = s.cfg := by
  obtain ⟨v, n, b, h⟩ := smoothSnr_eq x s
  rw [h]

@[simp] theorem reportSnr_cfg (s : State) : (reportSnr s).cfg = s.cfg := by
  obtain ⟨n, tr, h, -⟩ := reportSnr_eq s
  rw [h]

@[simp] theorem prsApply_cfg (x : Vec) (s : State) : (prsApply x s).cfg = s.cfg := by
  simp [prsApply, snrUpdate]

/-- Settles O33, over every shape a step can have. -/
theorem configurationNeverChanges : Obligations.ConfigurationNeverChanges := by
  refine step_relation (P := fun s t => t.cfg = s.cfg) ?wait ?choice ?request ?command ?illegal ?release
    ?dequeue ?leave ?reference ?block ?unwritten
  case wait | illegal | release | leave | unwritten => intros; rfl
  case choice => exact fun _ _ _ _ h => h
  case request => exact fun _ _ _ _ _ h => h
  case command => exact fun _ _ _ => exec_cfg
  case dequeue => exact fun s _ _ => workerDequeue_cfg s
  case reference | block => intros; simp

end Sys2Proof.Machine
end

section
/-! PROOF. Every step keeps every held number in `cfg.NUMERICS` (O39): one lemma per operation that writes a held number. -/

namespace Sys2Proof.Machine

/-- A vector read from a slot of a held state is held (rule R21). -/
theorem readSlot_held {s : State} (h : s.Held) {b : Nat} {v : Vec} (hv : readSlot s b = some v) :
    vecHeld s.cfg.numerics v = true := by
  have hm : some v ∈ s.slots := List.mem_of_getElem? (Option.join_eq_some_iff.mp hv)
  exact List.all_eq_true.mp h.slots _ hm

theorem raiseFault_held (f : FaultBit) {s : State} (h : s.Held) : (raiseFault f s).Held :=
  h.congr rfl rfl rfl rfl rfl rfl

theorem respond_held (r : Response) {s : State} (h : s.Held) : (respond r s).Held :=
  h.congr rfl rfl rfl rfl rfl rfl

theorem writeWork_held {v : Vec} {s : State} (h : s.Held) (hv : vecHeld s.cfg.numerics v = true) : (writeWork v s).Held :=
  ⟨h.slots, hv, h.ref, h.cbuf, h.snr⟩

theorem storeReference_held {x : Vec} {s : State} (h : s.Held) (hx : vecHeld s.cfg.numerics x = true) :
    (storeReference x s).Held := by
  refine ⟨h.slots, h.work, ?_, h.cbuf, h.snr⟩
  rw [storeReference_ref, List.all_map]
  exact hx

theorem commitIngest_held (b : Nat) {v : Vec} {s : State} (h : s.Held) (hv : vecHeld s.cfg.numerics v = true) :
    (commitIngest b v s).Held := by
  refine ⟨List.all_eq_true.mpr fun e he => ?_, h.work, h.ref, h.cbuf, h.snr⟩
  rcases List.mem_or_eq_of_mem_set he with he | rfl
  · exact List.all_eq_true.mp h.slots e he
  · exact hv

theorem markOverrun_held {s : State} (h : s.Held) : (markOverrun s).Held := by
  rw [markOverrun_eq]
  exact h.congr rfl rfl rfl rfl rfl rfl

theorem ingestTail_held (b : Nat) {v : Vec} {s : State} (h : s.Held) (hv : vecHeld s.cfg.numerics v = true) :
    (ingestTail b v s).Held := by
  by_cases hp : s.pending = pendMax
  · rw [ingestTail_saturated b v hp]; exact raiseFault_held _ h
  · rw [ingestTail_commits b v hp]
    exact commitIngest_held b (markOverrun_held h) (by rwa [markOverrun_cfg])

/-- What an ingress writes is held: the useful part of a payload is interface patterns (rules R61, R101, R102). -/
theorem payload_held (s : State) (off : Nat) :
    vecHeld s.cfg.numerics (usefulPart s.cfg off (samplesOf s.port.payload)) = true :=
  usefulPart_held (samplesOf_held _ _) off

theorem ingestPrs_held {s : State} (h : s.Held) : (ingestPrs s).Held := by
  unfold ingestPrs
  split
  · exact ingestTail_held 0 h (payload_held s _)
  · exact raiseFault_held _ h

theorem dataIngest_held (idx : Nat) {s : State} (h : s.Held) : (dataIngest idx s).Held := by
  unfold dataIngest
  split
  · split
    · exact raiseFault_held _ h
    · exact ingestTail_held idx h (payload_held s _)
  · exact raiseFault_held _ h

/-- Every command keeps the held numbers: the ingresses write interface patterns, the others write no number. -/
theorem exec_held {i : Instr} {s t : State} (he : exec i s = .next t) (h : s.Held) : t.Held := by
  cases i with
  | ingestPrs => obtain rfl : ingestPrs s = t := Host.Outcome.next.inj he; exact ingestPrs_held h
  | ingestFic idx => obtain rfl : dataIngest idx s = t := Host.Outcome.next.inj he; exact dataIngest_held idx h
  | ingestMsc idx => obtain rfl : dataIngest idx s = t := Host.Outcome.next.inj he; exact dataIngest_held idx h
  | stop =>
    obtain rfl : stopWorker s = t := Host.Outcome.next.inj he
    unfold stopWorker
    split
    · exact h.congr rfl rfl rfl rfl rfl rfl
    · exact raiseFault_held _ h
  | readCsr n =>
    obtain rfl : readCsr n s = t := Host.Outcome.next.inj he
    unfold readCsr
    split
    · split
      · exact respond_held _ h
      · exact respond_held _ (raiseFault_held _ h)
    · exact respond_held _ (raiseFault_held _ h)
  | xform d =>
    obtain rfl : xform d s = t := Host.Outcome.next.inj he
    unfold xform
    split
    · exact respond_held _ h
    · exact respond_held _ (raiseFault_held _ h)

theorem uninitStop_held {s : State} (h : s.Held) : (uninitStop s).Held := h.congr rfl rfl rfl rfl rfl rfl

theorem workerDequeue_held {s : State} (h : s.Held) : (workerDequeue s).Held := by
  unfold workerDequeue
  split
  · rename_i v hv
    exact (writeWork_held h (readSlot_held h hv)).congr rfl rfl rfl rfl rfl rfl
  · exact uninitStop_held h

/-- The new `snr` is a free pattern, or the smoothing of two held numbers (rule R197; log entry 7). -/
theorem smoothSnr_held {x : Vec} {s : State} (h : s.Held) (hx : vecHeld s.cfg.numerics x = true) : (smoothSnr x s).Held := by
  unfold smoothSnr
  split
  · exact ⟨h.slots, h.work, h.ref, h.cbuf, lit_heldIn _ _⟩
  · exact ⟨h.slots, h.work, h.ref, h.cbuf, smooth_held h.snr (snrInstant_held hx)⟩

theorem reportSnr_held {s : State} (h : s.Held) : (reportSnr s).Held := by
  obtain ⟨n, tr, he, -⟩ := reportSnr_eq s
  rw [he]
  exact h.congr rfl rfl rfl rfl rfl rfl

/-- Phase-reference processing keeps the held numbers (rules R190, R197). -/
theorem prsApply_held {x : Vec} {s : State} (h : s.Held) (hx : vecHeld s.cfg.numerics x = true) : (prsApply x s).Held :=
  storeReference_held (reportSnr_held (smoothSnr_held (writeWork_held h hx) hx)) (by simpa [snrUpdate] using hx)

/-- Data-block processing keeps the held numbers (rules R220, R227). -/
theorem dataApply_held {x : Vec} {a : CarrierAcc} {s : State} (h : s.Held) (hx : vecHeld s.cfg.numerics x = true)
    (hd : demodulate x s = some a) : (dataApply x a s).Held := by
  obtain ⟨href, hcbuf⟩ := carrierLoop_held hx _ _ _ hd h.ref h.cbuf
  exact ⟨h.slots, hx, href, hcbuf, h.snr⟩

/-- The transform of the held working buffer is held (rules R160, R163). -/
theorem transform_work_held {s : State} (h : s.Held) {w : Vec} (hw : s.work = some w) :
    vecHeld s.cfg.numerics (transform s.cfg .fwd w) = true := by
  have hv : entryHeld s.cfg.numerics (some w) = true := hw ▸ h.work
  exact transform_held .fwd hv

/-- Settles O39, over every shape a step can have. -/
theorem stepKeepsHeldNumbersPatterns : Obligations.StepKeepsHeldNumbersPatterns := by
  refine fun s t h hs => step_relation (P := fun s t => s.Held → t.Held) ?wait ?choice ?request ?command ?illegal ?release
    ?dequeue ?leave ?reference ?block ?unwritten s t hs h
  case wait => exact fun _ h => h
  case choice => exact fun _ _ _ _ hP h => hP (h.congr rfl rfl rfl rfl rfl rfl)
  case request => exact fun _ _ _ _ _ hP h => hP (h.congr rfl rfl rfl rfl rfl rfl)
  case command => exact fun _ _ _ => exec_held
  case illegal => exact fun _ => raiseFault_held _
  case release => exact fun _ h => h.congr rfl rfl rfl rfl rfl rfl
  case dequeue => exact fun _ _ _ => workerDequeue_held
  case leave => exact fun _ _ _ h => h.congr rfl rfl rfl rfl rfl rfl
  case reference => exact fun s w _ hw _ h => retire_held (prsApply_held h (transform_work_held h hw))
  case block => exact fun s w a _ hw _ hd h => retire_held (dataApply_held h (transform_work_held h hw) hd)
  case unwritten => exact fun _ _ => uninitStop_held

end Sys2Proof.Machine
end

section
/-! PROOF. Every step keeps the structural invariant (O38). The process step is split at its retire: `State.Processed` is what the processing of a
symbol leaves, and what the retire turns into the invariant of the next position. -/

namespace Sys2Proof.Machine

theorem raiseFault_inv (f : FaultBit) {s : State} (h : s.Inv) : (raiseFault f s).Inv := { h with }

theorem respond_inv (r : Response) {s : State} (h : s.Inv) : (respond r s).Inv := { h with }

theorem markOverrun_inv {s : State} (h : s.Inv) : (markOverrun s).Inv := by
  rw [markOverrun_eq]
  exact { h with }

theorem markOverrun_pending (s : State) : (markOverrun s).pending = s.pending := by rw [markOverrun_eq]

/-- An ingress below the last value of the counter keeps the invariant: the counter does not wrap to 0 (rules R100, R254). -/
theorem commitIngest_inv (b : Nat) {v : Vec} {s : State} (h : s.Inv) (hp : s.pending ≠ pendMax) (hv : v.length = s.cfg.tU) :
    (commitIngest b v s).Inv :=
  { h with
    storage := writeSlot_storageWf h.storage hv
    inFlight := fun _ => by
      have hp' : s.pending ≠ 0xFFFFFFFF#32 := hp
      rw [commitIngest_pending]
      bv_omega }

/-- Every command keeps the invariant (rules R101 to R107). -/
theorem exec_inv {i : Instr} {s t : State} (he : exec i s = .next t) (h : s.Inv) : t.Inv := by
  rcases exec_cases he with ⟨f, -, rfl | rfl | rfl⟩ | ⟨b, v, -, hp, hv, rfl⟩ | rfl | ⟨r, rfl⟩
  · exact raiseFault_inv f h
  · exact respond_inv _ (raiseFault_inv f h)
  · exact respond_inv _ (raiseFault_inv f h)
  · exact commitIngest_inv b (markOverrun_inv h) (by rwa [markOverrun_pending]) (by rwa [markOverrun_cfg])
  · exact { h with stopped := fun _ => rfl }
  · exact respond_inv r h

/-- A host whose request is taken off its list stays one of the `N_HOST` agents (rule R264). -/
theorem accept_inv (n : Nat) (rest : List HostReq) (p : List Byte) {s : State} (h : s.Inv) : (accept n rest p s).Inv :=
  { h with agents := by rw [accept_hosts, List.length_set, accept_cfg]; exact h.agents }

/-- The UNINIT_READ entry leaves phase `RUN` for good, so what holds in phase `RUN` alone asks nothing (rule R255). -/
theorem uninitStop_inv {s : State} (h : s.Inv) : (uninitStop s).Inv :=
  { h with
    working := fun hr => absurd hr (by simp)
    inFlight := fun hr => absurd hr (by simp)
    stopped := fun hr => absurd hr (by simp) }

/-- The dequeue fills `work` with a vector of the transform length, and a symbol is pending (rule R132). -/
theorem workerDequeue_inv {s : State} (h : s.Inv) (hp : s.pending ≠ 0#32) : (workerDequeue s).Inv := by
  unfold workerDequeue
  split
  case h_1 v hv =>
    exact { h with
      working := fun _ => ⟨v, rfl, readSlot_length h.storage hv⟩
      inFlight := fun _ => hp
      stopped := fun hr => absurd hr (by simp) }
  case h_2 => exact uninitStop_inv h

theorem workerExit_inv {s : State} (h : s.Inv) (hs : s.running = false) : (workerExit s).Inv :=
  { h with
    working := fun hr => absurd hr (by simp)
    inFlight := fun hr => absurd hr (by simp)
    stopped := fun _ => hs }

/-- What the processing of the symbol at position `curblk` leaves before its retire (rules R190, R220): the invariant, with every reference entry
valid and with the taps of this position already in the constellation buffer. -/
structure State.Processed (s : State) : Prop where
  cfgLegal : configLegal s.cfg = true
  storage : storageWf s = true
  position : s.curblk < s.cfg.l
  count : s.snrCnt.toNat < 10
  reference : ∀ k, k < s.cfg.tU → (readRef s.ref k).isSome = true
  taps : s.cbuf.length = s.curblk * tapsPerSymbol s.cfg
  agents : s.hosts.length = s.cfg.nHost

/-- The position after the last one is 0, after any other the next number (rule R134). -/
theorem nextPosition_eq {c : Config} {p : Nat} (h : p < c.l) : nextPosition c p = 0 ∨ nextPosition c p = p + 1 := by
  unfold nextPosition
  rcases Nat.lt_or_ge (p + 1) c.l with hlt | hge
  · exact .inr (Nat.mod_eq_of_lt hlt)
  · have hl : c.l = p + 1 := by omega
    exact .inl (by rw [hl, Nat.mod_self])

/-- The retire of a processed symbol gives the invariant of the next position; at the wrap the flush empties the constellation buffer (rules R134,
R135). -/
theorem retire_inv {s : State} (h : s.Processed) : (retire s).Inv where
  cfgLegal := by simpa using h.cfgLegal
  storage := (storageWf_congr (retire_cfg s) (retire_slots s) (by rw [retire_ref])).trans h.storage
  position := by simpa using nextPosition_lt s.curblk (Nat.zero_lt_of_lt h.position)
  count := by simpa using h.count
  working := fun hr => absurd hr (by simp)
  inFlight := fun hr => absurd hr (by simp)
  reference := fun _ => by simpa using h.reference
  taps := by
    rw [retire_cbuf, retire_curblk, retire_cfg]
    rcases nextPosition_eq h.position with h0 | h1
    · simp [h0]
    · simpa [h1] using h.taps
  stopped := fun hr => absurd hr (by simp)
  agents := by simpa using h.agents

/-- The count of a reported update restarts at 0, so it stays below 10 (rules R29, R198). -/
theorem prsApply_count {x : Vec} {s : State} (h : s.snrCnt.toNat < 10) : (prsApply x s).snrCnt.toNat < 10 := by
  obtain ⟨v, n, b, cnt, tr, he, ⟨-, rfl, -⟩ | ⟨hne, rfl, -⟩⟩ := prsApply_eq x s
  · rw [he]; simp
  · have hne' : s.snrCnt + 1#4 ≠ 10#4 := hne
    rw [he]
    change (s.snrCnt + 1#4).toNat < 10
    bv_omega

theorem prsApply_processed {x : Vec} {s : State} (h : s.Inv) (h0 : s.curblk = 0) (hx : x.length = s.cfg.tU) :
    (prsApply x s).Processed := by
  have hcount := prsApply_count (x := x) h.count
  obtain ⟨v, n, b, cnt, tr, he, -⟩ := prsApply_eq x s
  rw [he] at hcount ⊢
  exact {
    cfgLegal := h.cfgLegal
    storage := storeReference_storageWf h.storage hx
    position := h.position
    count := hcount
    reference := fun k hk => by simp [hx, hk]
    taps := by simpa [h0] using h.taps
    agents := h.agents }

theorem demodulate_refLength {x : Vec} {s : State} {a : CarrierAcc} (hd : demodulate x s = some a) :
    a.ref.length = s.ref.length :=
  carrierLoop_refLength (a := ⟨s.ref, [], [], s.cbuf⟩) hd

/-- A demodulated symbol adds `ceil(K / CONST_DECIM)` taps (rule R227). -/
theorem demodulate_taps {x : Vec} {s : State} {a : CarrierAcc} (hc : configLegal s.cfg = true) (hd : demodulate x s = some a) :
    a.cbuf.length = s.cbuf.length + tapsPerSymbol s.cfg := by
  obtain ⟨-, -, -, -, -, ⟨hdecim, -⟩, -, -⟩ := configLegal_ranges hc
  obtain ⟨-, -, hbuf, -, -⟩ := carrierLoop_range hc x s.ref s.cbuf s.cfg.k le_rfl a hd
  rw [hbuf, List.length_append, List.length_map, tapCount s.cfg.k s.cfg.constDecim hdecim, tapsPerSymbol]

theorem dataApply_processed {x : Vec} {a : CarrierAcc} {s : State} (h : s.Inv) (h0 : s.curblk ≠ 0)
    (hd : demodulate x s = some a) : (dataApply x a s).Processed where
  cfgLegal := h.cfgLegal
  storage := (storageWf_congr (dataApply_cfg x a s) (dataApply_slots x a s) (demodulate_refLength hd)).trans h.storage
  position := h.position
  count := h.count
  reference := fun k hk => carrierLoop_refValid hd (h.reference h0 k hk)
  taps := by
    rw [dataApply_cbuf, dataApply_curblk, dataApply_cfg, demodulate_taps h.cfgLegal hd, h.taps, ← Nat.add_one_mul,
      Nat.sub_add_cancel (Nat.pos_of_ne_zero h0)]
  agents := h.agents

/-- Settles O38, over every shape a step can have. -/
theorem stepKeepsTheStructuralInvariant : Obligations.StepKeepsTheStructuralInvariant := by
  refine fun s t h hs => step_relation (P := fun s t => s.Inv → t.Inv) ?wait ?choice ?request ?command ?illegal ?release
    ?dequeue ?leave ?reference ?block ?unwritten s t hs h
  case wait => exact fun _ h => h
  case choice => exact fun _ _ _ _ hP h => hP { h with }
  case request => exact fun _ _ _ _ _ hP h => hP (accept_inv _ _ _ h)
  case command => exact fun _ _ _ => exec_inv
  case illegal => exact fun _ => raiseFault_inv _
  case release => exact fun _ h => { h with }
  case dequeue => exact fun _ _ hp h => workerDequeue_inv h hp
  case leave => exact fun _ _ hr h => workerExit_inv h hr
  case reference => exact fun _ _ _ _ h0 h => retire_inv (prsApply_processed h h0 (transform_length _ _ _))
  case block => exact fun _ _ _ _ _ h0 hd h => retire_inv (dataApply_processed h h0 hd)
  case unwritten => exact fun _ _ => uninitStop_inv

end Sys2Proof.Machine
end

section
/-! PROOF. Reset meets the structural invariant, so every reachable state does, and there the process step completes (O36, O40). -/

namespace Sys2Proof.Machine

/-- The state an accepted configuration is latched into meets the invariant: nothing is in flight and the position is 0 (rule R43). -/
theorem initial_inv {c : Config} (h : configLegal c = true) : (State.initial c).Inv := by
  obtain ⟨-, -, -, ⟨hl, -⟩, -⟩ := configLegal_ranges h
  exact {
    cfgLegal := h
    storage := initial_storageWf c
    position := hl
    count := Nat.zero_lt_succ 9
    working := nofun
    inFlight := nofun
    reference := fun h0 => absurd rfl h0
    taps := (Nat.zero_mul _).symm
    stopped := nofun
    agents := List.length_replicate }

theorem resetWith_eq_some_iff {c : Config} {s : State} :
    State.resetWith c = some s ↔ configLegal c = true ∧ s = State.initial c := by
  unfold State.resetWith
  split
  · simp [*, eq_comm]
  · simp [*]

/-- Settles O36: an accepted reset is the initial state of a legal configuration. -/
theorem resetMeetsTheStructuralInvariant : Obligations.ResetMeetsTheStructuralInvariant := by
  intro c s hs
  obtain ⟨hc, rfl⟩ := resetWith_eq_some_iff.mp hs
  exact ⟨initial_inv hc, rfl, rfl, rfl, rfl, rfl, rfl, rfl, rfl, rfl, rfl,
    fun _ hb => List.getElem?_replicate_of_lt hb, fun _ hk => List.getElem?_replicate_of_lt hk⟩

/-- Every reachable state meets the structural invariant, whatever the outside supplies before each step. -/
theorem Reachable.inv {s : State} (h : Reachable s) : s.Inv := by
  induction h with
  | reset c s hs => exact (resetMeetsTheStructuralInvariant c s hs).1
  | step s t hosts choices _ ht ih => exact stepKeepsTheStructuralInvariant _ t (supply_inv ih hosts choices) ht

/-- The process step at position 0 refreshes the reference and retires (rules R133, R190). -/
theorem workerProcess_reference {s : State} {w : Vec} (hw : s.work = some w) (h0 : s.curblk = 0) :
    workerProcess s = .next (retire (prsApply (transform s.cfg .fwd w) s)) := by
  simp [workerProcess, hw, h0, prsProcess]

/-- The process step at a data position whose references are valid emits its block and retires (rules R133, R220). -/
theorem workerProcess_block {s : State} {w : Vec} {a : CarrierAcc} (hw : s.work = some w) (h0 : s.curblk ≠ 0)
    (hd : demodulate (transform s.cfg .fwd w) s = some a) :
    workerProcess s = .next (retire (dataApply (transform s.cfg .fwd w) a s)) := by
  simp [workerProcess, hw, h0, dataProcess, dataProcessed, hd]

@[simp] theorem prsApply_fault (x : Vec) (s : State) : (prsApply x s).fault = s.fault := by
  obtain ⟨v, n, b, cnt, tr, h, -⟩ := prsApply_eq x s
  rw [h]

/-- Past position 0 every reference is valid, so no data symbol stops on one (rule R44). -/
theorem demodulate_total {s : State} {x : Vec} (h : s.Inv) (h0 : s.curblk ≠ 0) (hx : x.length = s.cfg.tU) :
    ∃ a, demodulate x s = some a :=
  carrierLoop_total h.cfgLegal hx _ _ (fun _ => List.mem_range.mp) (h.reference h0)

/-- From the invariant, the process step completes back in `WAIT` and sets no fault bit (rules R44, R133). -/
theorem workerProcess_completes {s : State} (h : s.Inv) (hr : s.wphase = .run) :
    ∃ t, workerProcess s = .next t ∧ t.wphase = .wait ∧ t.fault = s.fault := by
  obtain ⟨w, hw, -⟩ := h.working hr
  by_cases h0 : s.curblk = 0
  · exact ⟨_, workerProcess_reference hw h0, by simp, by simp⟩
  · obtain ⟨a, ha⟩ := demodulate_total h h0 (transform_length s.cfg .fwd w)
    exact ⟨_, workerProcess_block hw h0 ha, by simp, by simp⟩

/-- Settles O40: reachable states meet the invariant, and from it the process step completes. -/
theorem reachableProcessNeverReadsUnwritten : Obligations.ReachableProcessNeverReadsUnwritten :=
  fun _ h hr => workerProcess_completes h.inv hr

end Sys2Proof.Machine
end

section
/-! PROOF. What the worker leaves to the hosts, and how positions advance (O32, O34). -/

namespace Sys2Proof.Machine

/-- What a worker step leaves unchanged: the configuration, the slots, `running`, what the hosts hold, and `pending` but for one retire (rules R21,
R30, R264). -/
def WorkerFrame (s t : State) : Prop :=
  t.cfg = s.cfg ∧ t.slots = s.slots ∧ t.running = s.running ∧ t.hosts = s.hosts ∧ t.port = s.port ∧
    t.released = s.released ∧ t.choices = s.choices ∧ (t.pending = s.pending ∨ t.pending = s.pending - 1#32)

theorem uninitStop_workerFrame (s : State) : WorkerFrame s (uninitStop s) :=
  ⟨rfl, rfl, rfl, rfl, rfl, rfl, rfl, .inl rfl⟩

theorem workerDequeue_workerFrame (s : State) : WorkerFrame s (workerDequeue s) := by
  unfold workerDequeue
  split
  · exact ⟨rfl, rfl, rfl, rfl, rfl, rfl, rfl, .inl rfl⟩
  · exact uninitStop_workerFrame s

theorem workerExit_workerFrame (s : State) : WorkerFrame s (workerExit s) :=
  ⟨rfl, rfl, rfl, rfl, rfl, rfl, rfl, .inl rfl⟩

/-- A retire counts one symbol down (rule R134). -/
theorem retire_workerFrame (s : State) : WorkerFrame s (retire s) := by simp [WorkerFrame]

/-- Processing a symbol before its retire changes nothing of the hosts' state, so what the retire leaves is what the whole step leaves. -/
theorem retire_prsApply_workerFrame (x : Vec) (s : State) : WorkerFrame s (retire (prsApply x s)) := by
  obtain ⟨v, n, b, cnt, tr, h, -⟩ := prsApply_eq x s
  rw [h]
  exact retire_workerFrame _

theorem retire_dataApply_workerFrame (x : Vec) (a : CarrierAcc) (s : State) : WorkerFrame s (retire (dataApply x a s)) :=
  retire_workerFrame (dataApply x a s)

theorem workerProcess_workerFrame {s t : State} (h : workerProcess s = .next t) : WorkerFrame s t := by
  obtain ⟨w, -, ⟨-, rfl⟩ | ⟨-, a, -, rfl⟩ | ⟨-, -, rfl⟩⟩ := workerProcess_cases h
  · exact retire_prsApply_workerFrame _ s
  · exact retire_dataApply_workerFrame _ a s
  · exact uninitStop_workerFrame s

/-- Settles O32, one worker step at a time. -/
theorem workerStepsLeaveHostState : Obligations.WorkerStepsLeaveHostState := by
  rintro m s t (rfl | rfl | rfl) h
  · obtain rfl : workerDequeue s = t := Host.Outcome.next.inj h
    exact workerDequeue_workerFrame s
  · exact workerProcess_workerFrame h
  · obtain rfl : workerExit s = t := Host.Outcome.next.inj h
    exact workerExit_workerFrame s

/-- The two ways a step can treat the position: leave it, or advance it with the retire of a symbol (rules R24, R35, R140). -/
def PositionStep (s t : State) : Prop :=
  t.curblk = s.curblk ∨
    (s.wphase = .run ∧ t.wphase = .wait ∧ t.curblk = (s.curblk + 1) % s.cfg.l ∧ t.pending = s.pending - 1#32)

@[simp] theorem markOverrun_curblk (s : State) : (markOverrun s).curblk = s.curblk := by rw [markOverrun_eq]

theorem exec_curblk {i : Instr} {s t : State} (h : exec i s = .next t) : t.curblk = s.curblk := by
  rcases exec_cases h with ⟨f, -, rfl | rfl | rfl⟩ | ⟨b, v, -, -, -, rfl⟩ | rfl | ⟨r, rfl⟩
  all_goals simp

@[simp] theorem workerDequeue_curblk (s : State) : (workerDequeue s).curblk = s.curblk := by
  unfold workerDequeue
  split <;> rfl

/-- A retire in phase `RUN` advances the position by one modulo `L` (rule R134). -/
theorem retire_positionStep {s : State} (h : s.wphase = .run) : PositionStep s (retire s) :=
  .inr ⟨h, retire_wphase s, retire_curblk s, retire_pending s⟩

/-- Settles O34, over every shape a step can have: only the two that retire a symbol move the position. -/
theorem positionsCycleByOne : Obligations.PositionsCycleByOne := by
  refine step_relation (P := PositionStep) ?wait ?choice ?request ?command ?illegal ?release
    ?dequeue ?leave ?reference ?block ?unwritten
  case wait | illegal | release | leave | unwritten => intros; exact .inl rfl
  case choice => exact fun _ _ _ _ h => h
  case request => exact fun _ _ _ _ _ h => h
  case command => exact fun _ _ _ h => .inl (exec_curblk h)
  case dequeue => exact fun s _ _ => .inl (workerDequeue_curblk s)
  case reference =>
    intro s w hr _ _
    obtain ⟨v, n, b, cnt, tr, h, -⟩ := prsApply_eq (transform s.cfg .fwd w) s
    rw [h]
    exact retire_positionStep hr
  case block => exact fun s w a hr _ _ _ => retire_positionStep (s := dataApply _ a s) hr

end Sys2Proof.Machine
end

section
/-! PROOF. The CSR map and the fields of its words (O18, O19). -/

namespace Sys2Proof.Machine

theorem csrOf_csrNumber (r : Csr) : csrOf (csrNumber r) = some r := by cases r <;> decide

/-- A number that no register has is unassigned (rules R37, R38). -/
theorem csrOf_eq_none {n : Nat} (h : ∀ r : Csr, csrNumber r ≠ n) : csrOf n = none :=
  List.find?_eq_none.mpr fun r _ => by simpa using h r

/-- A field of 0 bits above a word is the word's zero extension. -/
theorem zero_append_eq_setWidth {v w : Nat} (x : BitVec w) : 0#v ++ x = x.setWidth (v + w) := by
  refine BitVec.eq_of_getLsbD_eq fun i hi => ?_
  rw [BitVec.getLsbD_append, BitVec.getLsbD_setWidth, BitVec.getLsbD_zero]
  split
  · simp [hi]
  · simp [BitVec.getLsbD_of_ge x i (by omega)]

theorem faultWord_eq_setWidth (s : State) : faultWord s = s.fault.setWidth 32 := zero_append_eq_setWidth s.fault

theorem snrCntWord_eq_setWidth (s : State) : (0#28 ++ s.snrCnt : Word) = s.snrCnt.setWidth 32 := zero_append_eq_setWidth s.snrCnt

/-- After reset the worker waits and `running` is set (rules R38, R43). -/
theorem statusWord_initial (c : Config) : statusWord (State.initial c) = 0x00000001#32 :=
  (by decide : (0#29 ++ wphaseCode .wait ++ BitVec.ofBool true : Word) = 0x00000001#32)

/-- Settles O18: the numbers by the registers, the words with reserved bits as zero extensions. -/
theorem csrMapIsTheTable : Obligations.CsrMapIsTheTable := by
  refine ⟨csrOf_csrNumber, fun _ => csrOf_eq_none, by decide, fun s => ?_, fun c => ?_⟩
  · exact ⟨rfl, rfl, rfl, rfl, rfl, rfl, rfl, rfl, rfl, rfl, rfl, congrArg Word32.bits (snrCntWord_eq_setWidth s), rfl,
      congrArg Word32.bits (faultWord_eq_setWidth s)⟩
  · exact ⟨congrArg Word32.bits (statusWord_initial c), rfl, rfl, rfl, congrArg Word32.bits (snrCntWord_eq_setWidth _), rfl,
      congrArg Word32.bits (faultWord_eq_setWidth _)⟩

/-- STATUS is made of its three fields (rule R40). -/
theorem statusWord_fields (s : State) : (statusWord s).getLsbD 0 = s.running ∧
    (statusWord s).extractLsb' 1 2 = wphaseCode s.wphase ∧ (statusWord s).extractLsb' 3 29 = 0#29 := by
  refine ⟨?_, ?_, ?_⟩
  · exact BitVec.getLsbD_append.trans (by simp)
  · exact (BitVec.extractLsb'_append_eq_of_le (by decide)).trans BitVec.extractLsb'_append_eq_right
  · exact (BitVec.extractLsb'_append_eq_of_le (by decide)).trans BitVec.extractLsb'_append_eq_left

/-- CFG_MODE is made of its five fields (rule R39). -/
theorem cfgModeWord_fields (c : Config) : (cfgModeWord c).extractLsb' 0 1 = prsCode c.prsMode ∧
    (cfgModeWord c).extractLsb' 1 1 = signCode c.fftSign ∧ (cfgModeWord c).extractLsb' 2 2 = normCode c.fftNorm ∧
    (cfgModeWord c).extractLsb' 4 1 = quantCode c.snrInstQuant ∧ (cfgModeWord c).extractLsb' 5 27 = 0#27 := by
  refine ⟨?_, ?_, ?_, ?_, ?_⟩
  · exact BitVec.extractLsb'_append_eq_right
  · exact (BitVec.extractLsb'_append_eq_of_le (by decide)).trans BitVec.extractLsb'_append_eq_right
  · exact (BitVec.extractLsb'_append_eq_of_le (by decide)).trans <|
      (BitVec.extractLsb'_append_eq_of_le (by decide)).trans BitVec.extractLsb'_append_eq_right
  · exact (BitVec.extractLsb'_append_eq_of_le (by decide)).trans <|
      (BitVec.extractLsb'_append_eq_of_le (by decide)).trans <|
      (BitVec.extractLsb'_append_eq_of_le (by decide)).trans BitVec.extractLsb'_append_eq_right
  · exact (BitVec.extractLsb'_append_eq_of_le (by decide)).trans <|
      (BitVec.extractLsb'_append_eq_of_le (by decide)).trans <|
      (BitVec.extractLsb'_append_eq_of_le (by decide)).trans BitVec.extractLsb'_append_eq_left

/-- The bit of a fault in FAULT is the sticky bit (rule R42). -/
theorem faultWord_getLsbD (s : State) (f : FaultBit) : (faultWord s).getLsbD (faultIndex f) = faultSet s f := by
  have h : faultIndex f < 32 := by cases f <;> decide
  rw [faultWord_eq_setWidth, BitVec.getLsbD_setWidth, faultSet, decide_eq_true h, Bool.true_and]

theorem faultWord_reserved (s : State) : (faultWord s).extractLsb' 6 26 = 0#26 := BitVec.extractLsb'_append_eq_left

/-- Settles O19, one word at a time. -/
theorem statusFieldsAreTheTables : Obligations.StatusFieldsAreTheTables := by
  intro s
  refine ⟨?_, ?_, ?_⟩
  · obtain ⟨hrun, hphase, hrest⟩ := statusWord_fields s
    exact ⟨hrun, by rw [hphase]; rfl, hrest⟩
  · obtain ⟨hprs, hsign, hnorm, hquant, hrest⟩ := cfgModeWord_fields s.cfg
    simp only [BitVec.getLsbD_eq_extractLsb', hprs, hsign, hnorm, hquant]
    refine ⟨by cases s.cfg.prsMode <;> rfl, by cases s.cfg.fftSign <;> rfl, rfl, by cases s.cfg.snrInstQuant <;> rfl, hrest⟩
  · exact ⟨faultWord_getLsbD s .illegalCmd, faultWord_getLsbD s .badLength, faultWord_getLsbD s .badIndex,
      faultWord_getLsbD s .pendSat, faultWord_getLsbD s .overrun, faultWord_getLsbD s .uninitRead, faultWord_reserved s⟩

end Sys2Proof.Machine
end

section
/-! PROOF. The rounding to binary32 is to the nearest, ties to even (O20). In the binade `n` that holds `x`, binary32 has the multiples of
`2^n / 2^149`: scaled by that unit the rounding is one to an integer, and every finite pattern is an integer or lies below the binade. -/

namespace Sys2Proof.Machine

/-! The rounding to an integer. -/

/-- The rounded number is within one half, and exactly one half away only when it is even. -/
theorem roundHalfEven_dist (y : ℝ) :
    |y - roundHalfEven y| ≤ 1 / 2 ∧ (|y - roundHalfEven y| = 1 / 2 → roundHalfEven y % 2 = 0) := by
  have h0 := Int.floor_le y
  have h1 := Int.lt_floor_add_one y
  unfold roundHalfEven
  dsimp only
  split
  · rename_i hlt
    rw [abs_of_nonneg (by linarith)]
    exact ⟨hlt.le, fun h => absurd h hlt.ne⟩
  split
  · rename_i _ hgt
    push_cast
    rw [abs_of_neg (by linarith)]
    exact ⟨by linarith, fun h => by linarith⟩
  have hhalf : y - ⌊y⌋ = 1 / 2 := by linarith
  split
  · rename_i heven
    rw [hhalf]
    exact ⟨by norm_num, fun _ => heven⟩
  · rename_i hodd
    push_cast
    rw [show y - (⌊y⌋ + 1) = -(1 / 2) by linarith]
    exact ⟨by norm_num, fun _ => by omega⟩

/-- No integer is nearer, and where another one is as near the rounded number is even. -/
theorem roundHalfEven_nearest (y : ℝ) (z : ℤ) : |y - roundHalfEven y| ≤ |y - z| ∧
    (|y - roundHalfEven y| = |y - z| → z ≠ roundHalfEven y → roundHalfEven y % 2 = 0) := by
  obtain ⟨hd, heven⟩ := roundHalfEven_dist y
  by_cases hz : z = roundHalfEven y
  · exact ⟨by rw [hz], fun _ h => absurd hz h⟩
  have hone : (1 : ℝ) ≤ |(roundHalfEven y : ℝ) - z| := by exact_mod_cast Int.one_le_abs (sub_ne_zero.mpr (Ne.symm hz))
  have htri : |(roundHalfEven y : ℝ) - z| ≤ |y - roundHalfEven y| + |y - z| := by
    rw [abs_sub_comm y]; exact abs_sub_le _ _ _
  exact ⟨by linarith, fun h _ => heven (by linarith)⟩

theorem le_roundHalfEven {y : ℝ} {z : ℤ} (h : z ≤ y) : z ≤ roundHalfEven y := by
  have hd := (abs_le.mp (roundHalfEven_dist y).1).2
  have hlt : (z : ℝ) < (roundHalfEven y : ℝ) + 1 := by linarith
  exact Int.lt_add_one_iff.mp (by exact_mod_cast hlt)

theorem roundHalfEven_le {y : ℝ} {z : ℤ} (h : y < z + 1 / 2) : roundHalfEven y ≤ z := by
  have hd := (abs_le.mp (roundHalfEven_dist y).1).1
  have hlt : (roundHalfEven y : ℝ) < z + 1 := by linarith
  exact Int.lt_add_one_iff.mp (by exact_mod_cast hlt)

/-! The numbers of binary32. -/

/-- A number that a significand of 24 bits and a sign denote at some exponent: every finite pattern's value is one. -/
def F32Grid (m : ℝ) : Prop := ∃ (s : ℤ) (k : ℕ), |s| < 2 ^ 24 ∧ m = s * 2 ^ k / 2 ^ 149

theorem F32Grid.neg {m : ℝ} (h : F32Grid m) : F32Grid (-m) := by
  obtain ⟨s, k, hs, rfl⟩ := h
  exact ⟨-s, k, by rwa [abs_neg], by push_cast; ring⟩

/-- The fraction field (rule R61). -/
def f32Fraction (b : Word) : Nat := (b.extractLsb' 0 23).toNat

/-- The significand: the implied bit is set but in the lowest binade (rule R61). -/
def f32Significand (b : Word) : Nat := if f32Exponent b = 0 then f32Fraction b else 2 ^ 23 + f32Fraction b

/-- The magnitude of a finite pattern (rule R61). -/
theorem f32ToRat_eq (b : Word) :
    f32ToRat b = (if b.msb then -1 else 1) * (f32Significand b * 2 ^ (max (f32Exponent b) 1 - 1) / 2 ^ 149) := by
  obtain ⟨k, hk⟩ : ∃ k, max (f32Exponent b) 1 = k + 1 := ⟨max (f32Exponent b) 1 - 1, by omega⟩
  unfold f32ToRat f32Significand f32Fraction
  dsimp only
  rw [hk, Nat.add_sub_cancel]
  generalize (if f32Exponent b = 0 then _ else _ : ℕ) = s
  have hmag : ((s * 2 ^ (k + 1) : ℕ) : ℚ) / (2 ^ 150 : ℕ) = s * 2 ^ k / 2 ^ 149 := by
    push_cast
    ring
  rw [hmag]
  split <;> ring

theorem f32Significand_lt (b : Word) : f32Significand b < 2 ^ 24 := by
  have hf : f32Fraction b < 2 ^ 23 := (b.extractLsb' 0 23).isLt
  unfold f32Significand
  split <;> omega

theorem f32ToRat_grid (b : Word) : F32Grid ((f32ToRat b : ℚ) : ℝ) := by
  have hlt : |(f32Significand b : ℤ)| < 2 ^ 24 := by
    rw [Nat.abs_cast]
    exact_mod_cast f32Significand_lt b
  have hg : F32Grid (f32Significand b * 2 ^ (max (f32Exponent b) 1 - 1) / 2 ^ 149) := ⟨_, _, hlt, by push_cast; rfl⟩
  rw [f32ToRat_eq]
  split
  · push_cast
    simpa using hg.neg
  · push_cast
    simpa using hg

/-! The fields of a pattern written as a number. -/

theorem f32Exponent_ofNat (p : Nat) : f32Exponent (BitVec.ofNat 32 p) = p / 2 ^ 23 % 2 ^ 8 := by
  simp only [f32Exponent, BitVec.extractLsb'_toNat, BitVec.toNat_ofNat, Nat.shiftRight_eq_div_pow]
  omega

theorem f32Fraction_ofNat (p : Nat) : f32Fraction (BitVec.ofNat 32 p) = p % 2 ^ 23 := by
  simp only [f32Fraction, BitVec.extractLsb'_toNat, BitVec.toNat_ofNat, Nat.shiftRight_eq_div_pow]
  omega

theorem msb_ofNat_low {p : Nat} (h : p < 2 ^ 31) : (BitVec.ofNat 32 p).msb = false := by
  rw [BitVec.msb_eq_false_iff_two_mul_lt, BitVec.toNat_ofNat]
  omega

theorem msb_ofNat_high {p : Nat} (h : p < 2 ^ 31) : (BitVec.ofNat 32 (0x80000000 + p)).msb = true := by
  rw [BitVec.msb_eq_true_iff_two_mul_ge, BitVec.toNat_ofNat]
  omega

theorem f32Exponent_high (p : Nat) : f32Exponent (BitVec.ofNat 32 (0x80000000 + p)) = f32Exponent (BitVec.ofNat 32 p) := by
  rw [f32Exponent_ofNat, f32Exponent_ofNat]
  omega

theorem f32Significand_high (p : Nat) :
    f32Significand (BitVec.ofNat 32 (0x80000000 + p)) = f32Significand (BitVec.ofNat 32 p) := by
  have hf : (0x80000000 + p) % 2 ^ 23 = p % 2 ^ 23 := by omega
  rw [f32Significand, f32Significand, f32Exponent_high, f32Fraction_ofNat, f32Fraction_ofNat, hf]

/-- The sign bit negates the number (rule R61). -/
theorem f32ToRat_high {p : Nat} (h : p < 2 ^ 31) :
    f32ToRat (BitVec.ofNat 32 (0x80000000 + p)) = -f32ToRat (BitVec.ofNat 32 p) := by
  rw [f32ToRat_eq, f32ToRat_eq, msb_ofNat_high h, msb_ofNat_low h, f32Exponent_high, f32Significand_high]
  simp

/-- The pattern `n · 2^23 + r` denotes `r` units of binade `n`: `r` below the binade's lower end only in the lowest one, and `r` at its upper
end is the first number of the next. -/
theorem f32ToRat_binade {n r : Nat} (hr : r ≤ 2 ^ 24) (hn : n = 0 ∨ 2 ^ 23 ≤ r) (hp : n * 2 ^ 23 + r < 0x7F800000) :
    f32ToRat (BitVec.ofNat 32 (n * 2 ^ 23 + r)) = r * 2 ^ n / 2 ^ 149 := by
  rw [f32ToRat_eq, msb_ofNat_low (by omega), f32Significand, f32Exponent_ofNat, f32Fraction_ofNat]
  obtain hlow | hmid | htop : r < 2 ^ 23 ∨ (2 ^ 23 ≤ r ∧ r < 2 ^ 24) ∨ r = 2 ^ 24 := by omega
  · obtain rfl : n = 0 := by omega
    have he : (0 * 2 ^ 23 + r) / 2 ^ 23 % 2 ^ 8 = 0 := by omega
    have hf : (0 * 2 ^ 23 + r) % 2 ^ 23 = r := by omega
    rw [he, hf]
    simp
  · have he : (n * 2 ^ 23 + r) / 2 ^ 23 % 2 ^ 8 = n + 1 := by omega
    have hf : 2 ^ 23 + (n * 2 ^ 23 + r) % 2 ^ 23 = r := by omega
    rw [he, hf]
    simp
  · have he : (n * 2 ^ 23 + r) / 2 ^ 23 % 2 ^ 8 = n + 2 := by omega
    have hf : 2 ^ 23 + (n * 2 ^ 23 + r) % 2 ^ 23 = 2 ^ 23 := by omega
    rw [he, hf, htop]
    simp
    ring

theorem f32Finite_ofNat {p : Nat} (h : p < 0x7F800000) : f32Finite (BitVec.ofNat 32 p) = true := by
  rw [f32Finite, f32Exponent_ofNat, decide_eq_true_eq]
  omega

theorem f32Finite_high (p : Nat) : f32Finite (BitVec.ofNat 32 (0x80000000 + p)) = f32Finite (BitVec.ofNat 32 p) := by
  rw [f32Finite, f32Finite, f32Exponent_high]

theorem getLsbD_zero_ofNat (p : Nat) : (BitVec.ofNat 32 p).getLsbD 0 = decide (p % 2 = 1) := by
  rw [BitVec.getLsbD_ofNat, Nat.testBit_zero, decide_eq_true (by norm_num), Bool.true_and]

/-! The binade of a number below the overflow bound, and the rounding in it. -/

/-- The binade the rounding takes is the one that holds `x`, and in it the rounding is one to an integer. -/
theorem f32RoundMag_binade {x : ℝ} (h0 : 0 ≤ x) (hx : x < 2 ^ 128) : ∃ n y, n < 254 ∧ x = y * (2 ^ n / 2 ^ 149) ∧ 0 ≤ y ∧
    y < 2 ^ 24 ∧ (n = 0 ∨ 2 ^ 23 ≤ y) ∧ f32RoundMag x = n * 2 ^ 23 + (roundHalfEven y).toNat := by
  unfold f32RoundMag
  split
  · rename_i n hn
    rw [List.find?_range_eq_some] at hn
    obtain ⟨hlt, hmem, hleast⟩ := hn
    have hu : (0 : ℝ) < 2 ^ n / 2 ^ 149 := by positivity
    have hy : x * 2 ^ 149 / 2 ^ n * (2 ^ n / 2 ^ 149) = x := by field_simp
    refine ⟨n, x * 2 ^ 149 / 2 ^ n, List.mem_range.mp hmem, hy.symm, by positivity, ?_, ?_, rfl⟩
    · rw [decide_eq_true_eq] at hlt
      rw [← mul_lt_mul_iff_left₀ hu, hy, ← mul_div_assoc]
      exact hlt
    · cases n with
      | zero => exact .inl rfl
      | succ n =>
        have hge := hleast n (Nat.lt_succ_self n)
        simp only [Bool.not_eq_true', decide_eq_false_iff_not, not_lt] at hge
        refine .inr ?_
        rw [← mul_le_mul_iff_left₀ hu, hy, ← mul_div_assoc]
        calc (2 : ℝ) ^ 23 * 2 ^ (n + 1) / 2 ^ 149 = 2 ^ 24 * 2 ^ n / 2 ^ 149 := by ring
          _ ≤ x := hge
  · rename_i hn
    rw [List.find?_range_eq_none] at hn
    have hge := hn 253 (by norm_num)
    simp only [Bool.not_eq_true', decide_eq_false_iff_not, not_lt] at hge
    norm_num at hge hx
    linarith

/-- In units of a binade that holds the number, every number of binary32 is an integer, or lies below the binade. -/
theorem F32Grid.unit_cases {m : ℝ} (h : F32Grid m) (n : ℕ) :
    ∃ q : ℝ, m = q * (2 ^ n / 2 ^ 149) ∧ ((∃ z : ℤ, q = z) ∨ (n ≠ 0 ∧ q < 2 ^ 23)) := by
  obtain ⟨s, k, hs, rfl⟩ := h
  rcases Nat.lt_or_ge k n with hlt | hge
  · obtain ⟨d, rfl⟩ := Nat.exists_eq_add_of_lt hlt
    refine ⟨s / 2 ^ (d + 1), ?_, .inr ⟨by omega, ?_⟩⟩
    · rw [pow_add, pow_add, pow_add]
      field_simp
    · have hs' : (s : ℝ) < 2 ^ 24 := by exact_mod_cast (abs_lt.mp hs).2
      have hd : (2 : ℝ) ≤ 2 ^ (d + 1) := by
        calc (2 : ℝ) = 2 ^ 1 := (pow_one 2).symm
          _ ≤ 2 ^ (d + 1) := pow_le_pow_right₀ (by norm_num) (by omega)
      rw [div_lt_iff₀ (by positivity)]
      nlinarith
  · obtain ⟨d, rfl⟩ := Nat.exists_eq_add_of_le hge
    refine ⟨(s * 2 ^ d : ℤ), ?_, .inl ⟨_, rfl⟩⟩
    push_cast
    rw [pow_add]
    ring

/-- The rounding in a binade: no integer and no number below the binade is nearer, and where another one is as near the rounded number is even. -/
theorem roundHalfEven_nearest_unit {y q : ℝ} (h : (∃ z : ℤ, q = z) ∨ (2 ^ 23 ≤ y ∧ q < 2 ^ 23)) :
    |y - roundHalfEven y| ≤ |y - q| ∧ (|y - roundHalfEven y| = |y - q| → q ≠ roundHalfEven y → roundHalfEven y % 2 = 0) := by
  rcases h with ⟨z, rfl⟩ | ⟨hy, hq⟩
  · obtain ⟨hle, heven⟩ := roundHalfEven_nearest y z
    exact ⟨hle, fun h hne => heven h (by exact_mod_cast hne)⟩
  · have hlow := (roundHalfEven_nearest y (2 ^ 23)).1
    rw [Int.cast_pow, Int.cast_ofNat, abs_of_nonneg (a := y - 2 ^ 23) (by linarith)] at hlow
    have hfar : y - 2 ^ 23 < |y - q| := lt_of_lt_of_le (by linarith) (le_abs_self _)
    exact ⟨by linarith, fun h => by linarith⟩

/-- The pattern `v` is the binary32 nearest to `x`, ties to even. -/
def NearestEven (x : ℝ) (v : Word) : Prop :=
  f32Finite v = true ∧ ∀ m : ℝ, F32Grid m → |x - ((f32ToRat v : ℚ) : ℝ)| ≤ |x - m| ∧
    (|x - ((f32ToRat v : ℚ) : ℝ)| = |x - m| → m ≠ ((f32ToRat v : ℚ) : ℝ) → v.getLsbD 0 = false)

/-- What the rounding below the overflow bound makes: `x` is `y` units of binade `n`, and the pattern holds `y` rounded to the integer `r`, which
stays within the binade and its upper end, and below infinity. -/
theorem f32RoundMag_pattern {x : ℝ} (h0 : 0 ≤ x) (hx : x < 2 ^ 128 - 2 ^ 103) : ∃ n r y, x = y * (2 ^ n / 2 ^ 149) ∧
    (n = 0 ∨ 2 ^ 23 ≤ y) ∧ roundHalfEven y = (r : ℕ) ∧ f32RoundMag x = n * 2 ^ 23 + r ∧ r ≤ 2 ^ 24 ∧ (n = 0 ∨ 2 ^ 23 ≤ r) ∧
    n * 2 ^ 23 + r < 0x7F800000 := by
  obtain ⟨n, y, hn, hxy, hy0, hy, hlow, hmag⟩ := f32RoundMag_binade h0 (by linarith)
  obtain ⟨r, hr⟩ : ∃ r : ℕ, roundHalfEven y = r := Int.eq_ofNat_of_zero_le (le_roundHalfEven (by exact_mod_cast hy0))
  rw [hr, Int.toNat_natCast] at hmag
  have htop : roundHalfEven y ≤ 2 ^ 24 := roundHalfEven_le (by push_cast; linarith)
  refine ⟨n, r, y, hxy, hlow, hr, hmag, by omega, hlow.imp_right fun h => ?_, ?_⟩
  · have hbottom : 2 ^ 23 ≤ roundHalfEven y := le_roundHalfEven (by exact_mod_cast h)
    omega
  · obtain hn' | rfl : n ≤ 252 ∨ n = 253 := by omega
    · omega
    · have hlast : roundHalfEven y ≤ 2 ^ 24 - 1 := roundHalfEven_le (by rw [hxy] at hx; norm_num at hx ⊢; linarith)
      omega

/-- Below the overflow bound the rounded magnitude is a finite pattern, and the nearest one. -/
theorem f32RoundMag_nearest {x : ℝ} (h0 : 0 ≤ x) (hx : x < 2 ^ 128 - 2 ^ 103) :
    f32RoundMag x < 0x7F800000 ∧ NearestEven x (BitVec.ofNat 32 (f32RoundMag x)) := by
  obtain ⟨n, r, y, hxy, hlow, hr, hmag, htop, hbottom, hfin⟩ := f32RoundMag_pattern h0 hx
  rw [hmag]
  refine ⟨hfin, f32Finite_ofNat hfin, fun m hm => ?_⟩
  obtain ⟨q, rfl, hq⟩ := hm.unit_cases n
  obtain ⟨hle, heven⟩ := roundHalfEven_nearest_unit (y := y) (q := q)
    (hq.imp_right fun ⟨hn0, hlt⟩ => ⟨hlow.resolve_left hn0, hlt⟩)
  rw [hr, Int.cast_natCast] at hle heven
  have hu : (0 : ℝ) < 2 ^ n / 2 ^ 149 := by positivity
  have hscale : ∀ a : ℝ, |x - a * (2 ^ n / 2 ^ 149)| = |y - a| * (2 ^ n / 2 ^ 149) := fun a => by
    rw [hxy, ← sub_mul, abs_mul, abs_of_pos hu]
  have hval : ((f32ToRat (BitVec.ofNat 32 (n * 2 ^ 23 + r)) : ℚ) : ℝ) = r * (2 ^ n / 2 ^ 149) := by
    rw [f32ToRat_binade htop hbottom hfin]
    push_cast
    ring
  rw [hval, hscale, hscale]
  refine ⟨mul_le_mul_of_nonneg_right hle hu.le, fun h hne => ?_⟩
  have hr2 := heven (mul_right_cancel₀ hu.ne' h) fun h => hne (by rw [h])
  rw [getLsbD_zero_ofNat, decide_eq_false_iff_not]
  omega

/-- The pattern with the sign bit is the nearest to the negated number. -/
theorem NearestEven.neg {x : ℝ} {p : Nat} (hp : p < 2 ^ 31) (h : NearestEven x (BitVec.ofNat 32 p)) :
    NearestEven (-x) (BitVec.ofNat 32 (0x80000000 + p)) := by
  obtain ⟨hfin, hnear⟩ := h
  refine ⟨by rw [f32Finite_high, hfin], fun m hm => ?_⟩
  obtain ⟨hle, heven⟩ := hnear (-m) hm.neg
  have hflip : ∀ a b : ℝ, |-a - -b| = |a - b| := fun a b => by rw [neg_sub_neg, abs_sub_comm]
  have hbit : (BitVec.ofNat 32 (0x80000000 + p)).getLsbD 0 = (BitVec.ofNat 32 p).getLsbD 0 := by
    rw [getLsbD_zero_ofNat, getLsbD_zero_ofNat]
    exact decide_eq_decide.mpr (by omega)
  have hm' : |-x - m| = |x - -m| := by rw [← hflip, neg_neg]
  rw [f32ToRat_high hp, Rat.cast_neg, hflip, hm', hbit]
  exact ⟨hle, fun h hne => heven h fun hv => hne (by rw [← hv, neg_neg])⟩

/-- The rounding to binary32 is to the nearest, ties to even, below the overflow bound (rule R41). -/
theorem f32Round_nearest {x : ℝ} (hx : |x| < 2 ^ 128 - 2 ^ 103) : NearestEven x (f32Round x) := by
  obtain ⟨hlo, hhi⟩ := abs_lt.mp hx
  unfold f32Round
  split
  · rename_i hneg
    obtain ⟨hp, hnear⟩ := f32RoundMag_nearest (x := -x) (by linarith) (by linarith)
    simpa using hnear.neg (by omega)
  · exact (f32RoundMag_nearest (by linarith) hhi).2

/-- Settles O20: an exact value goes out as its rounding, and every finite pattern denotes a number of binary32. -/
theorem snrWordIsNearest : Obligations.SnrWordIsNearest := by
  refine ⟨fun b => rfl, fun e v w hexact hfin hbound hv _ => ?_⟩
  obtain ⟨hvfin, hnear⟩ := f32Round_nearest hbound
  rw [← Num.word_value hexact hfin, hv] at hvfin hnear
  obtain ⟨hle, heven⟩ := hnear _ (f32ToRat_grid w)
  exact ⟨hvfin, hle, fun h hne => heven h (by exact_mod_cast hne)⟩

end Sys2Proof.Machine
end

section
/-! PROOF. A step runs exactly the decoded command of the host it picks (O6): one equation for each stage from the step to the command. -/

namespace Sys2Proof.Machine

/-- Before release a step runs the move it picks, on the state after the choice is drawn (rules R70, R137). -/
theorem step_of_pick {s t : State} {m : Move} (hr : s.released = false) (hp : pick s = (some m, t)) : step s = runMove m t := by
  simp [step, stepState, hr, hp]

/-- A host whose first request is a command runs that transaction (rule R80). -/
theorem runMove_host_of_cmd {t : State} {h : Nat} {bytes : List Byte} {rest : List HostReq}
    (hq : t.hosts.getD h [] = .cmd bytes :: rest) : runMove (.host h) t = runCommand h bytes rest t := by
  simp only [runMove, runHost, hq]

/-- A transaction that decodes runs its command on the state that took the request (rules R80, R82). -/
theorem runCommand_of_decode {h : Nat} {bytes payload : List Byte} {rest : List HostReq} {i : Instr} {t : State}
    (hd : decode bytes = .ok (i, payload)) : runCommand h bytes rest t = exec i (accept h rest payload t) := by
  simp only [runCommand, hd]

/-- Settles O6: the picked move is the host's, the host's move is its transaction, and the transaction is the decoded command. -/
theorem stepRunsTheDecodedCommand : Obligations.StepRunsTheDecodedCommand := by
  intro s t h bytes payload rest i hr hp hq hd
  calc step s = runMove (.host h) t := step_of_pick hr hp
    _ = runCommand h bytes rest t := runMove_host_of_cmd hq
    _ = exec i (accept h rest payload t) := runCommand_of_decode hd

end Sys2Proof.Machine
end

section
/-! PROOF. The decoder and the encoder are inverse to each other (O2, O3). The table of rule R84 is read by its three fields: a row fixes `op`,
wants `rsv = 0`, and wants `arg` to vanish under a mask. -/

namespace Sys2Proof

open Sys2Proof.Laws.EncodedFields (opField_mkWord rsvField_mkWord argField_mkWord)

/-! ### Words by their fields (rule R81) -/

/-- Two concatenations of the same widths agree exactly when both parts do. -/
theorem append_eq_append_iff {m n : Nat} {a b : BitVec m} {c d : BitVec n} : a ++ c = b ++ d ↔ a = b ∧ c = d := by
  refine ⟨fun h => ⟨?_, ?_⟩, fun ⟨hab, hcd⟩ => hab ▸ hcd ▸ rfl⟩
  · rw [← BitVec.extractLsb'_append_eq_left (a := a) (b := c), h, BitVec.extractLsb'_append_eq_left]
  · rw [← BitVec.extractLsb'_append_eq_right (a := a) (b := c), h, BitVec.extractLsb'_append_eq_right]

theorem fields_append (w : Word) : opField w ++ rsvField w ++ argField w = w := by
  have hhigh : opField w ++ rsvField w = w.extractLsb' 16 16 := BitVec.extractLsb'_append_extractLsb'_eq_extractLsb' rfl
  have hall : w.extractLsb' 16 16 ++ argField w = w.extractLsb' 0 32 := BitVec.extractLsb'_append_extractLsb'_eq_extractLsb' rfl
  rw [hhigh, hall, BitVec.extractLsb'_eq_self]

theorem word_eq_of_fields {v w : Word} (hop : opField v = opField w) (hrsv : rsvField v = rsvField w)
    (harg : argField v = argField w) : v = w := by
  rw [← fields_append v, hop, hrsv, harg, fields_append]

/-- A mask that keeps all of `op` and `rsv` acts on `arg` alone. -/
theorem and_argMask (w : Word) (m : BitVec 16) :
    w &&& (BitVec.allOnes 8 ++ BitVec.allOnes 8 ++ m) = opField w ++ rsvField w ++ (argField w &&& m) := by
  have happ : (opField w ++ rsvField w ++ argField w) &&& (BitVec.allOnes 8 ++ BitVec.allOnes 8 ++ m) =
      opField w ++ rsvField w ++ (argField w &&& m) := by
    simp only [BitVec.and_append, BitVec.and_allOnes]
  rwa [fields_append] at happ

/-! ### The table by its fields (rule R84) -/

/-- The opcode of a row. -/
def OpKind.code : OpKind → BitVec 8
  | .ingestPrs => 0x01#8
  | .ingestFic => 0x02#8
  | .ingestMsc => 0x03#8
  | .stop => 0x04#8
  | .readCsr => 0x05#8
  | .xform => 0x06#8

/-- The bits of `arg` that a row wants to be 0. -/
def OpKind.argMask : OpKind → BitVec 16
  | .ingestPrs => 0xFFFF#16
  | .ingestFic => 0x0000#16
  | .ingestMsc => 0x0000#16
  | .stop => 0xFFFF#16
  | .readCsr => 0x0000#16
  | .xform => 0xFFFE#16

/-- The row of a kind; `mem_opRows` says that the table has these rows and no others. -/
def OpKind.row (k : OpKind) : OpRow := ⟨k, mkWord k.code 0#16, BitVec.allOnes 8 ++ BitVec.allOnes 8 ++ k.argMask⟩

theorem opRows_eq_map_row :
    opRows = [OpKind.ingestPrs, .ingestFic, .ingestMsc, .stop, .readCsr, .xform].map OpKind.row := by decide

theorem mem_opRows {r : OpRow} : r ∈ opRows ↔ ∃ k : OpKind, k.row = r := by
  rw [opRows_eq_map_row, List.mem_map]
  exact exists_congr fun k => and_iff_right (by cases k <;> decide)

theorem OpKind.code_injective : Function.Injective OpKind.code := by
  intro k q
  cases k <;> cases q <;> decide

/-- A word matches a row exactly when its fields do (rules R81, R82). -/
theorem OpKind.row_hits_iff {k : OpKind} {w : Word} : k.row.hits w = true ↔
    opField w = k.code ∧ rsvField w = 0#8 ∧ argField w &&& k.argMask = 0#16 := by
  rw [OpRow.hits, beq_iff_eq, OpKind.row, and_argMask, mkWord, append_eq_append_iff, append_eq_append_iff, and_assoc]

/-- No word matches two rows (rule R82). -/
theorem OpKind.eq_of_row_hits {k q : OpKind} {w : Word} (hk : k.row.hits w = true) (hq : q.row.hits w = true) : k = q :=
  OpKind.code_injective ((row_hits_iff.mp hk).1.symm.trans (row_hits_iff.mp hq).1)

theorem decodeWord_of_hits {k : OpKind} {w : Word} (h : k.row.hits w = true) : decodeWord w = .ok (k.build w) := by
  unfold decodeWord
  split
  case h_1 r hr =>
    obtain ⟨q, rfl⟩ := mem_opRows.mp (List.mem_of_find?_eq_some hr)
    obtain rfl := OpKind.eq_of_row_hits h (List.find?_some (p := fun r : OpRow => r.hits w) hr)
    rfl
  case h_2 hr => exact absurd h (List.find?_eq_none.mp hr _ (mem_opRows.mpr ⟨k, rfl⟩))

theorem decodeWord_of_no_hit {w : Word} (h : ∀ r, r ∈ opRows → r.hits w = false) : decodeWord w = .error (illegalReason w) := by
  have hnone : opRows.find? (fun r => r.hits w) = none := List.find?_eq_none.mpr fun r hr => by simp [h r hr]
  simp only [decodeWord, hnone]

/-- A word decodes to what the row it matches builds from it, and to nothing else. -/
theorem decodeWord_eq_ok_iff {w : Word} {i : Instr} :
    decodeWord w = .ok i ↔ ∃ k : OpKind, k.row.hits w = true ∧ k.build w = i := by
  constructor
  · intro h
    by_cases hk : ∃ k : OpKind, k.row.hits w = true
    · obtain ⟨k, hk⟩ := hk
      exact ⟨k, hk, Except.ok.inj ((decodeWord_of_hits hk).symm.trans h)⟩
    · rw [decodeWord_of_no_hit] at h
      · cases h
      · intro r hr
        obtain ⟨k, rfl⟩ := mem_opRows.mp hr
        exact Bool.eq_false_iff.mpr fun hit => hk ⟨k, hit⟩
  · rintro ⟨k, hk, rfl⟩
    exact decodeWord_of_hits hk

/-! ### Commands by their fields (rule R83) -/

/-- The row of a command. -/
def Instr.kind : Instr → OpKind
  | .ingestPrs => .ingestPrs
  | .ingestFic _ => .ingestFic
  | .ingestMsc _ => .ingestMsc
  | .stop => .stop
  | .readCsr _ => .readCsr
  | .xform _ => .xform

/-- The field `arg` of a command. -/
def Instr.arg : Instr → BitVec 16
  | .ingestPrs => 0#16
  | .ingestFic idx => BitVec.ofNat 16 idx
  | .ingestMsc idx => BitVec.ofNat 16 idx
  | .stop => 0#16
  | .readCsr n => BitVec.ofNat 16 n
  | .xform d => dirBit d

theorem encode_eq_mkWord (i : Instr) : encode i = mkWord i.kind.code i.arg := by cases i <;> rfl

theorem extract_append_bit (a : BitVec 16) : a.extractLsb' 1 15 ++ a.extractLsb' 0 1 = a := by
  have hall : a.extractLsb' 1 15 ++ a.extractLsb' 0 1 = a.extractLsb' 0 16 := BitVec.extractLsb'_append_extractLsb'_eq_extractLsb' rfl
  rw [hall, BitVec.extractLsb'_eq_self]

/-- Bits 15:1 of `arg` are what the row of `XFORM` masks. -/
theorem and_xformMask_eq_zero_iff (a : BitVec 16) : a &&& 0xFFFE#16 = 0#16 ↔ a.extractLsb' 1 15 = 0#15 := by
  have hmask : a &&& 0xFFFE#16 = a.extractLsb' 1 15 ++ 0#1 := by
    conv_lhs => rw [← extract_append_bit a, show (0xFFFE#16 : BitVec 16) = BitVec.allOnes 15 ++ 0#1 by decide]
    rw [BitVec.and_append, BitVec.and_allOnes, BitVec.and_zero]
  rw [hmask, show (0#16 : BitVec 16) = 0#15 ++ 0#1 by decide, BitVec.append_left_inj]

/-- `arg` of `XFORM` is its bit 0 where the row matches. -/
theorem dirBit_dirOfBit {a : BitVec 16} (h : a &&& 0xFFFE#16 = 0#16) : dirBit (dirOfBit (a.getLsbD 0)) = a := by
  have hlow : a.extractLsb' 0 1 = BitVec.ofBool (a.getLsbD 0) := by
    apply BitVec.eq_of_getLsbD_eq
    intro i hi
    obtain rfl : i = 0 := by omega
    simp
  have hbit : a = 0#15 ++ BitVec.ofBool (a.getLsbD 0) := by
    rw [← hlow, ← (and_xformMask_eq_zero_iff a).mp h, extract_append_bit]
  rw [hbit]
  cases a.getLsbD 0 <;> decide

/-- A word that matches a row keeps its `arg` in the command built from it (rules R83, R84). -/
theorem OpKind.arg_build {k : OpKind} {w : Word} (h : argField w &&& k.argMask = 0#16) : (k.build w).arg = argField w := by
  cases k
  case ingestPrs | stop => exact (BitVec.and_allOnes (x := argField w)).symm.trans h |>.symm
  case ingestFic | ingestMsc | readCsr => exact (BitVec.ofNat_toNat 16 (argField w)).trans (BitVec.setWidth_eq _)
  case xform =>
    have hbit : w.getLsbD 0 = (argField w).getLsbD 0 := by simp [argField]
    rw [OpKind.build, Instr.arg, hbit, dirBit_dirOfBit h]

theorem OpKind.kind_build (k : OpKind) (w : Word) : (k.build w).kind = k := by cases k <;> rfl

theorem OpKind.wellFormed_build (k : OpKind) (w : Word) : (k.build w).wellFormed = true := by
  cases k
  case ingestPrs | stop | xform => rfl
  case ingestFic | ingestMsc | readCsr => exact decide_eq_true (argField w).isLt

theorem OpKind.encode_build {k : OpKind} {w : Word} (h : k.row.hits w = true) : encode (k.build w) = w := by
  obtain ⟨hop, hrsv, harg⟩ := row_hits_iff.mp h
  rw [encode_eq_mkWord, kind_build, arg_build harg]
  apply word_eq_of_fields
  · rw [opField_mkWord, hop]
  · rw [rsvField_mkWord, hrsv]
  · rw [argField_mkWord]

/-- The `arg` of a command vanishes under the mask of its row. -/
theorem Instr.arg_and_argMask (i : Instr) : i.arg &&& i.kind.argMask = 0#16 := by
  cases i
  case ingestPrs | stop => decide
  case ingestFic | ingestMsc | readCsr => exact BitVec.and_zero
  case xform d => cases d <;> decide

theorem row_hits_encode (i : Instr) : i.kind.row.hits (encode i) = true := by
  rw [OpKind.row_hits_iff, encode_eq_mkWord, opField_mkWord, rsvField_mkWord, argField_mkWord]
  exact ⟨rfl, rfl, i.arg_and_argMask⟩

/-- The row of a command builds it again from its word, where the word can hold the operand (rule R83). -/
theorem build_encode {i : Instr} (h : i.wellFormed = true) : i.kind.build (encode i) = i := by
  have harg : argField (encode i) = i.arg := by rw [encode_eq_mkWord, argField_mkWord]
  cases i
  case ingestPrs | stop => rfl
  case ingestFic n | ingestMsc n | readCsr n =>
    have hn : n < 65536 := of_decide_eq_true h
    rw [Instr.kind, OpKind.build, harg, Instr.arg, BitVec.toNat_ofNat, Nat.mod_eq_of_lt hn]
  case xform d => cases d <;> decide

/-- A word decodes to a command exactly when it is the word of that well-formed command. -/
theorem decodeWord_eq_ok_iff_encode {w : Word} {i : Instr} : decodeWord w = .ok i ↔ i.wellFormed = true ∧ encode i = w := by
  rw [decodeWord_eq_ok_iff]
  constructor
  · rintro ⟨k, hk, rfl⟩
    exact ⟨k.wellFormed_build w, OpKind.encode_build hk⟩
  · rintro ⟨hi, rfl⟩
    exact ⟨i.kind, row_hits_encode i, build_encode hi⟩

/-! ### Transactions (rules R62, R80) -/

theorem leWord_extract (w : Word) :
    leWord (w.extractLsb' 0 8) (w.extractLsb' 8 8) (w.extractLsb' 16 8) (w.extractLsb' 24 8) = w := by
  have harg : w.extractLsb' 8 8 ++ w.extractLsb' 0 8 = argField w := BitVec.extractLsb'_append_extractLsb'_eq_extractLsb' rfl
  calc leWord _ _ _ _ = opField w ++ rsvField w ++ (w.extractLsb' 8 8 ++ w.extractLsb' 0 8) := by
        rw [leWord, BitVec.append_assoc]; rfl
    _ = w := by rw [harg, fields_append]

theorem leWord_eq_iff {a0 a1 a2 a3 b0 b1 b2 b3 : Byte} :
    leWord a0 a1 a2 a3 = leWord b0 b1 b2 b3 ↔ ((a3 = b3 ∧ a2 = b2) ∧ a1 = b1) ∧ a0 = b0 := by
  unfold leWord
  rw [append_eq_append_iff, append_eq_append_iff, append_eq_append_iff]

theorem leBytes_leWord (b0 b1 b2 b3 : Byte) : leBytes (leWord b0 b1 b2 b3) = [b0, b1, b2, b3] := by
  obtain ⟨⟨⟨h3, h2⟩, h1⟩, h0⟩ := leWord_eq_iff.mp (leWord_extract (leWord b0 b1 b2 b3))
  rw [leBytes, h0, h1, h2, h3]

/-- A transaction decodes to a command exactly when its first four bytes are a word that does, and the payload is the rest. -/
theorem decode_eq_ok_iff {bytes payload : List Byte} {i : Instr} :
    decode bytes = .ok (i, payload) ↔ ∃ w, decodeWord w = .ok i ∧ bytes = leBytes w ++ payload := by
  constructor
  · intro h
    unfold decode at h
    split at h
    case h_1 b0 b1 b2 b3 rest =>
      split at h
      case h_1 j hw =>
        cases h
        exact ⟨_, hw, by rw [leBytes_leWord]; rfl⟩
      case h_2 => cases h
    case h_2 => cases h
  · rintro ⟨w, hw, rfl⟩
    simp only [leBytes, List.cons_append, List.nil_append, decode, leWord_extract, hw]

/-- Settles O2: the word of a well-formed command decodes to it, and its four bytes are that word. -/
theorem decodeOfEncodeIsIdentity : Obligations.DecodeOfEncodeIsIdentity := fun i _ hi =>
  decode_eq_ok_iff.mpr ⟨encode i, decodeWord_eq_ok_iff_encode.mpr ⟨hi, rfl⟩, rfl⟩

/-- Settles O3: the first four bytes are the word of the decoded command. -/
theorem encodeOfDecodeIsIdentity : Obligations.EncodeOfDecodeIsIdentity := by
  intro bytes i payload h
  obtain ⟨w, hw, rfl⟩ := decode_eq_ok_iff.mp h
  obtain ⟨hi, rfl⟩ := decodeWord_eq_ok_iff_encode.mp hw
  exact ⟨hi, rfl⟩

end Sys2Proof
end

section
/-! PROOF. The legal words are those that match a row, the illegal ones those of rule R87 (O4, O5), and the worked encodings of rule R93 are read
as written (O1). -/

namespace Sys2Proof

/-- A word is legal exactly when it matches a row (rule R82). -/
theorem decodeWord_ok_iff_row_hits (w : Word) : (∃ i, decodeWord w = .ok i) ↔ ∃ k : OpKind, k.row.hits w = true := by
  simp only [decodeWord_eq_ok_iff]
  exact ⟨fun ⟨_, k, hk, _⟩ => ⟨k, hk⟩, fun ⟨k, hk⟩ => ⟨_, k, hk, rfl⟩⟩

theorem decodeWord_error_iff (w : Word) : (∃ e, decodeWord w = .error e) ↔ ¬ ∃ i, decodeWord w = .ok i := by
  cases decodeWord w <;> simp

/-- An opcode of no row is 0x00 or at least 0x07 (rule R84). -/
theorem code_ne_iff (op : BitVec 8) : (¬ ∃ k : OpKind, op = k.code) ↔ op = 0x00#8 ∨ 0x07#8 ≤ op := by
  constructor
  · intro h
    by_contra hdef
    have hrows : ∀ v : BitVec 8, ¬ (v = 0x00#8 ∨ 0x07#8 ≤ v) →
        v = 0x01#8 ∨ v = 0x02#8 ∨ v = 0x03#8 ∨ v = 0x04#8 ∨ v = 0x05#8 ∨ v = 0x06#8 := by decide
    rcases hrows op hdef with hop | hop | hop | hop | hop | hop
    · exact h ⟨.ingestPrs, hop⟩
    · exact h ⟨.ingestFic, hop⟩
    · exact h ⟨.ingestMsc, hop⟩
    · exact h ⟨.stop, hop⟩
    · exact h ⟨.readCsr, hop⟩
    · exact h ⟨.xform, hop⟩
  · rintro hdef ⟨k, rfl⟩
    revert hdef
    cases k <;> decide

/-- What the row of a defined opcode leaves illegal (rule R87). -/
theorem OpKind.row_not_hits_iff (k : OpKind) {w : Word} (hop : opField w = k.code) : ¬ k.row.hits w = true ↔
    rsvField w ≠ 0#8 ∨ ((opField w = 0x01#8 ∨ opField w = 0x04#8) ∧ argField w ≠ 0#16) ∨
      (opField w = 0x06#8 ∧ (argField w).extractLsb' 1 15 ≠ 0#15) := by
  rw [row_hits_iff, hop, ne_eq (BitVec.extractLsb' 1 15 _), ← and_xformMask_eq_zero_iff,
    eq_self_iff_true, true_and, not_and_or]
  apply or_congr Iff.rfl
  cases k
  case ingestPrs | stop =>
    have hall : argField w &&& 0xFFFF#16 = argField w := BitVec.and_allOnes
    simp [code, argMask, hall]
  case ingestFic | ingestMsc | readCsr => simp [code, argMask]
  case xform => simp [code, argMask]

/-- Settles O5: a word of an undefined opcode matches no row, and one of a defined opcode can match the row of that opcode alone. -/
theorem illegalWordsAreExactlyThese : Obligations.IllegalWordsAreExactlyThese := by
  intro w
  rw [decodeWord_error_iff, decodeWord_ok_iff_row_hits, ← or_assoc (a := opField w = 0x00#8), ← code_ne_iff]
  by_cases hop : ∃ k : OpKind, opField w = k.code
  · obtain ⟨k, hk⟩ := hop
    have hrow : (∃ q : OpKind, q.row.hits w = true) ↔ k.row.hits w = true :=
      ⟨fun ⟨q, hq⟩ => by rwa [← OpKind.code_injective ((OpKind.row_hits_iff.mp hq).1.symm.trans hk)], fun h => ⟨k, h⟩⟩
    have hdef : ¬ ¬ ∃ q : OpKind, opField w = q.code := not_not_intro ⟨k, hk⟩
    rw [hrow, OpKind.row_not_hits_iff k hk, or_iff_right hdef]
  · exact iff_of_true (fun ⟨k, hk⟩ => hop ⟨k, (OpKind.row_hits_iff.mp hk).1⟩) (.inl hop)

namespace Machine

/-- A transaction with an illegal word sets ILLEGAL_CMD on the state that took the request, without its payload (rule R82). -/
theorem runCommand_of_illegal {h : Nat} {b0 b1 b2 b3 : Byte} {payload : List Byte} {rest : List HostReq} {t : State}
    (hw : ∀ r, r ∈ opRows → r.hits (leWord b0 b1 b2 b3) = false) :
    runCommand h (b0 :: b1 :: b2 :: b3 :: payload) rest t = .next (raiseFault .illegalCmd (accept h rest [] t)) := by
  simp only [runCommand, decode, decodeWord_of_no_hit hw, illegalReason]
  split_ifs <;> rfl

/-- Settles O4: legality is a match, a match fixes the opcode and so the row, and an illegal word takes the fault path of its transaction. -/
theorem illegalWordsOnlySetIllegalCmd : Obligations.IllegalWordsOnlySetIllegalCmd := by
  refine ⟨fun w => ?_, fun w r q hr hq hrw hqw => ?_, fun s t h b0 b1 b2 b3 payload rest hrel hp hhost hw => ?_⟩
  · rw [decodeWord_ok_iff_row_hits]
    simp only [mem_opRows, exists_exists_eq_and]
  · obtain ⟨k, rfl⟩ := mem_opRows.mp hr
    obtain ⟨l, rfl⟩ := mem_opRows.mp hq
    rw [OpKind.eq_of_row_hits hrw hqw]
  · calc step s = runMove (.host h) t := step_of_pick hrel hp
      _ = runCommand h _ rest t := runMove_host_of_cmd hhost
      _ = .next (raiseFault .illegalCmd (accept h rest [] t)) := runCommand_of_illegal hw

/-- Settles O1: the legal words are those of their commands, and a command's bytes decode to it. -/
theorem workedEncodingsAreRead : Obligations.WorkedEncodingsAreRead := by
  have reads : ∀ {i : Instr} {bytes : List Byte}, i.wellFormed = true → encodeBytes i [] = bytes → decode bytes = .ok (i, []) :=
    fun hi hb => hb ▸ decodeOfEncodeIsIdentity _ [] hi
  refine ⟨by decide, reads rfl (by decide), by decide, reads rfl (by decide), by decide, reads rfl (by decide),
    by decide, reads rfl (by decide), by decide, reads rfl (by decide), by decide, reads rfl (by decide),
    by decide, reads rfl (by decide), by decide, reads rfl (by decide), by decide, reads rfl (by decide), ?_⟩
  refine ⟨rfl, rfl, rfl, by decide, ?_, ?_⟩
  · decide +kernel
  · decide +kernel

end Machine

end Sys2Proof
end

section
/-! PROOF. What a step may append to the trace (O35), and the length check of the two commands without a payload (O16). -/

namespace Sys2Proof.Machine

/-- The trace after is the trace before with at most `n` events appended (rule R92). -/
def TraceExtends (n : Nat) (s t : State) : Prop := ∃ es : List Event, es.length ≤ n ∧ t.trace = s.trace ++ es

theorem TraceExtends.of_eq {s t : State} (h : t.trace = s.trace) (n : Nat) : TraceExtends n s t :=
  ⟨[], Nat.zero_le n, by rw [h, List.append_nil]⟩

theorem TraceExtends.of_event {s t : State} {e : Event} (h : t.trace = s.trace ++ [e]) : TraceExtends 1 s t :=
  ⟨[e], le_rfl, h⟩

theorem TraceExtends.mono {m n : Nat} {s t : State} (hmn : m ≤ n) : TraceExtends m s t → TraceExtends n s t :=
  fun ⟨es, hes, ht⟩ => ⟨es, hes.trans hmn, ht⟩

theorem TraceExtends.trans {m n : Nat} {s t u : State} :
    TraceExtends m s t → TraceExtends n t u → TraceExtends (m + n) s u :=
  fun ⟨es, hes, ht⟩ ⟨fs, hfs, hu⟩ =>
    ⟨es ++ fs, by rw [List.length_append]; exact Nat.add_le_add hes hfs, by rw [hu, ht, List.append_assoc]⟩

@[simp] theorem markOverrun_trace (s : State) : (markOverrun s).trace = s.trace := by rw [markOverrun_eq]

@[simp] theorem workerDequeue_trace (s : State) : (workerDequeue s).trace = s.trace := by
  unfold workerDequeue
  split <;> rfl

/-- A command appends its response or nothing (rule R86). -/
theorem exec_traceExtends {i : Instr} {s t : State} (h : exec i s = .next t) : TraceExtends 1 s t := by
  rcases exec_cases h with ⟨f, -, rfl | rfl | rfl⟩ | ⟨b, v, -, -, -, rfl⟩ | rfl | ⟨r, rfl⟩
  · exact .of_eq rfl 1
  · exact .of_event rfl
  · exact .of_event rfl
  · exact .of_eq (markOverrun_trace s) 1
  · exact .of_eq rfl 1
  · exact .of_event rfl

/-- A retire appends the flush or nothing (rules R134, R135). -/
theorem retire_traceExtends (s : State) : TraceExtends 1 s (retire s) := by
  by_cases h : nextPosition s.cfg s.curblk = 0
  · exact .of_event (by rw [retire_trace, if_pos h])
  · exact .of_eq (by rw [retire_trace, if_neg h]) 1

/-- The reference symbol appends a report or nothing (rule R198). -/
theorem prsApply_traceExtends (x : Vec) (s : State) : TraceExtends 1 s (prsApply x s) := by
  obtain ⟨v, n, b, cnt, tr, he, ⟨-, -, ht⟩ | ⟨-, -, ht⟩⟩ := prsApply_eq x s
  · exact .of_event (by rw [he, ht])
  · exact .of_eq (by rw [he, ht]) 1

/-- Settles O35, over every shape a step can have: a command responds at most once, and a processed symbol has its record and its flush. -/
theorem traceOnlyGrows : Obligations.TraceOnlyGrows := by
  refine step_relation (P := TraceExtends 2) ?wait ?choice ?request ?command ?illegal ?release ?dequeue ?leave ?reference
    ?block ?unwritten
  case wait => exact fun s => .of_eq rfl 2
  case choice => exact fun _ _ _ _ h => h
  case request => exact fun _ _ _ _ _ h => h
  case command => exact fun _ _ _ h => (exec_traceExtends h).mono (by omega)
  case illegal => exact fun s => .of_eq rfl 2
  case release => exact fun s => .of_eq rfl 2
  case dequeue => exact fun s _ _ => .of_eq (workerDequeue_trace s) 2
  case leave => exact fun s _ _ => .of_eq rfl 2
  case reference => exact fun s _ _ _ _ => (prsApply_traceExtends _ s).trans (retire_traceExtends _)
  case block => exact fun s _ _ _ _ _ _ => (TraceExtends.of_event (dataApply_trace _ _ s)).trans (retire_traceExtends _)
  case unwritten => exact fun s _ => .of_eq rfl 2

/-- The check of the empty payload, where the configuration asks for it (rules R64, R85). -/
theorem emptyPayloadOk_iff {s : State} (h : s.cfg.lengthCheckAll = true) : emptyPayloadOk s = true ↔ s.port.payload = [] := by
  simp [emptyPayloadOk, payloadIs, h]

/-- Settles O16: the check fails on a nonempty payload, and both commands then take their BAD_LENGTH branch. -/
theorem checkedLengthOfEmptyCommands : Obligations.CheckedLengthOfEmptyCommands := by
  intro s hp hc
  have hbad : ¬ emptyPayloadOk s = true := fun h => hp ((emptyPayloadOk_iff hc).mp h)
  refine ⟨?_, fun r => ?_⟩
  · rw [exec, execStop, stopWorker, if_neg hbad]
    rfl
  · rw [exec, execReadCsr, readCsr, csrOf_csrNumber]
    simp only [if_neg hbad]
    rfl

end Sys2Proof.Machine
end

section
/-! PROOF. The host's side: the expansion of the pseudo-commands (O59) and the wire forms of the output records (O60). -/

namespace Sys2Proof.Machine

/-- The command word holds an index up to 65535 (rule R89). -/
theorem ingestFic_wellFormed_iff (idx : Nat) : (Instr.ingestFic idx).wellFormed = true ↔ idx ≤ 65535 :=
  decide_eq_true_iff.trans Nat.lt_succ_iff

theorem ingestMsc_wellFormed_iff (idx : Nat) : (Instr.ingestMsc idx).wellFormed = true ↔ idx ≤ 65535 :=
  decide_eq_true_iff.trans Nat.lt_succ_iff

theorem assembleInstr_of_wellFormed {i : Instr} (h : i.wellFormed = true) (buf : List Byte) :
    assembleInstr i buf = some [.cmd (encodeBytes i buf)] := by
  rw [assembleInstr, if_pos h]

theorem expandIngest_zero (c : Config) (buf : List Byte) :
    expandIngest c 0 buf = some [.cmd (encodeBytes .ingestPrs buf)] := rfl

theorem expandIngest_fic {c : Config} {idx : Nat} (h1 : 1 ≤ idx) (hn : idx ≤ c.nFic) (hw : idx ≤ 65535) (buf : List Byte) :
    expandIngest c idx buf = some [.cmd (encodeBytes (.ingestFic idx) buf)] := by
  rw [expandIngest, if_neg (by omega), if_pos hn, assembleInstr_of_wellFormed ((ingestFic_wellFormed_iff idx).mpr hw)]

theorem expandIngest_msc {c : Config} {idx : Nat} (hn : c.nFic < idx) (hw : idx ≤ 65535) (buf : List Byte) :
    expandIngest c idx buf = some [.cmd (encodeBytes (.ingestMsc idx) buf)] := by
  rw [expandIngest, if_neg (by omega), if_neg (by omega), assembleInstr_of_wellFormed ((ingestMsc_wellFormed_iff idx).mpr hw)]

/-- An index that `arg` cannot hold is refused (rule R89). -/
theorem expandIngest_refused {c : Config} {idx : Nat} (h : 65535 < idx) (buf : List Byte) : expandIngest c idx buf = none := by
  have hfic := mt (ingestFic_wellFormed_iff idx).mp (Nat.not_le.mpr h)
  have hmsc := mt (ingestMsc_wellFormed_iff idx).mp (Nat.not_le.mpr h)
  rw [expandIngest, if_neg (by omega), assembleInstr, assembleInstr, if_neg hfic, if_neg hmsc, ite_self]

/-- Within a frame `INGEST` expands to the contract's ingress of its position (rules R90, R108). -/
theorem expandIngest_contract {c : Config} {p : Nat} (hp : p < c.l) (hw : p ≤ 65535) (buf : List Byte) :
    expandIngest c p buf = some [.cmd (encodeBytes (contractInstr c p) buf)] := by
  rw [contractInstr, Nat.mod_eq_of_lt hp]
  split_ifs with h0 hn
  · rw [h0, expandIngest_zero]
  · exact expandIngest_fic (by omega) hn hw buf
  · exact expandIngest_msc (by omega) hw buf

theorem expandFrom_contract {c : Config} (hl : c.l ≤ 65536) : ∀ (bufs : List (List Byte)) (p : Nat), p + bufs.length ≤ c.l →
    expandFrom c p bufs = some (bufs.mapIdx fun n b => .cmd (encodeBytes (contractInstr c (p + n)) b))
  | [], _, _ => rfl
  | b :: bs, p, h => by
    rw [List.length_cons] at h
    have htail := expandFrom_contract hl bs (p + 1) (by omega)
    simp only [expandFrom, expandIngest_contract (show p < c.l by omega) (by omega), htail, List.mapIdx_cons,
      List.singleton_append, Nat.add_zero, Nat.add_assoc, Nat.add_comm 1]

/-- Settles O59: `INGEST` by its index, `FRAME` by induction over its buffers from the position on, and the others by their definition. -/
theorem pseudoCommandsExpand : Obligations.PseudoCommandsExpand := by
  refine ⟨fun c buf => ⟨?_, ?_, ?_, fun idx => ⟨?_, ?_, ?_⟩⟩, fun c bufs hc hlen => ?_, fun c => ?_⟩
  · rfl
  · rfl
  · rfl
  · exact fun h1 hn hw => expandIngest_fic h1 hn hw buf
  · exact fun hn hw => expandIngest_msc hn hw buf
  · exact fun h => expandIngest_refused h buf
  · obtain ⟨-, -, -, ⟨-, hl⟩, -⟩ := (rangesLegal_iff c).mp ((Bool.and_eq_true_iff.mp hc).1)
    rw [assemble, if_pos hlen, expandFrom_contract hl bufs 0 (by omega)]
    simp only [Nat.zero_add]
  · rw [assemble, show encodeBytes .stop [] = [0x00#8, 0x00#8, 0x00#8, 0x04#8] by decide]

/-! ### The wire forms (rule R91) -/

theorem leBytes_eq_map (w : Word) : leBytes w = (List.range 4).map fun i => w.extractLsb' (8 * i) 8 := rfl

@[simp] theorem leBytes_length (w : Word) : (leBytes w).length = 4 := rfl

theorem softFields_bytes (bits : List SoftVal) :
    (bits.map WireField.soft).flatMap WireField.bytes = bits.map fun b => BitVec.ofInt 8 b.value := by
  rw [List.flatMap_map]
  exact List.map_eq_flatMap.symm

theorem recordBytes_fic (bits : List SoftVal) (pos : BitVec 16) : recordBytes (.fic bits pos) =
    pos.extractLsb' 0 8 :: pos.extractLsb' 8 8 :: bits.map fun b => BitVec.ofInt 8 b.value := by
  rw [← softFields_bytes]; rfl

theorem recordBytes_msc (bits : List SoftVal) (pos : BitVec 16) : recordBytes (.msc bits pos) =
    pos.extractLsb' 0 8 :: pos.extractLsb' 8 8 :: bits.map fun b => BitVec.ofInt 8 b.value := by
  rw [← softFields_bytes]; rfl

theorem recordBytes_snr (v : Num) : recordBytes (.snr v) = leBytes v.word.value := by
  simp [recordBytes, recordFields, WireField.bytes]

theorem recordBytes_const (zs : Vec) : recordBytes (.const zs) = leBytes (BitVec.ofNat 32 zs.length) ++
    zs.flatMap fun z => leBytes z.re.word.value ++ leBytes z.im.word.value := by
  simp [recordBytes, recordFields, sampleFields, WireField.bytes, Word32.value, List.flatMap_assoc]

theorem recordBytes_const_length (zs : Vec) : (recordBytes (.const zs)).length = 4 + 8 * zs.length := by
  rw [recordBytes_const, List.length_append, List.length_flatMap]
  simp [Nat.mul_comm]

/-- Settles O60: each record's bytes by its fields, and the lengths from them. -/
theorem wireFormsHaveTheirLengths : Obligations.WireFormsHaveTheirLengths := by
  refine ⟨fun bits pos => ⟨recordBytes_fic bits pos, recordBytes_msc bits pos, ?_, ?_⟩, fun v => ⟨?_, ?_⟩,
    fun zs => ⟨?_, recordBytes_const_length zs⟩⟩
  · rw [recordBytes_fic, List.length_cons, List.length_cons, List.length_map, Nat.add_comm 2]
  · rw [recordBytes_msc, List.length_cons, List.length_cons, List.length_map, Nat.add_comm 2]
  · rw [recordBytes_snr, leBytes_eq_map]
  · rw [recordBytes_snr, leBytes_length]
  · simp only [recordBytes_const, leBytes_eq_map]

end Sys2Proof.Machine
end

section
/-! PROOF. The ingress commands (O12, O13): one equation for the tail in each of its cases, then each command as its checks before the tail. -/

namespace Sys2Proof.Machine

/-- The length check of a command (rule R64). -/
theorem payloadIs_iff {p : List Byte} {n : Nat} : payloadIs p n = true ↔ p.length = 8 * n := decide_eq_true_iff

theorem nPayload_ingestPrs (c : Config) :
    nPayload c .ingestPrs = if c.prsMode = .useful then c.tU else c.tU + c.tG := by
  unfold nPayload
  cases c.prsMode <;> rfl

theorem prsOffset_eq (c : Config) : prsOffset c = if c.prsMode = .useful then 0 else c.tG := by
  unfold prsOffset
  cases c.prsMode <;> rfl

/-- All an ingress does once the counter is not at its last value: the slot, the counter and the fault word (rule R100). -/
theorem ingestTail_writes (b : Nat) (v : Vec) {s : State} (h : s.pending ≠ pendMax) : ingestTail b v s = { s with
    slots := s.slots.set b (some v)
    pending := s.pending + 1#32
    fault := if s.cfg.l ≤ s.pending.toNat then s.fault ||| faultMask .overrun else s.fault } := by
  rw [ingestTail_commits b v h, markOverrun_eq]
  rfl

theorem ingestPrs_badLength {s : State} (h : s.port.payload.length ≠ 8 * nPayload s.cfg .ingestPrs) :
    ingestPrs s = raiseFault .badLength s :=
  if_neg (mt payloadIs_iff.mp h)

/-- `INGEST_PRS` past its length check is the tail at slot 0 (rule R101). -/
theorem ingestPrs_accepted {s : State} (h : s.port.payload.length = 8 * nPayload s.cfg .ingestPrs) :
    ingestPrs s = ingestTail 0 (usefulPart s.cfg (prsOffset s.cfg) (samplesOf s.port.payload)) s :=
  if_pos (payloadIs_iff.mpr h)

/-- Settles O12: the length check, then the tail's two cases at slot 0. -/
theorem ingestPrsWritesSlotZero : Obligations.IngestPrsWritesSlotZero := by
  refine ⟨by decide, fun s => ?_⟩
  rw [← nPayload_ingestPrs, ← prsOffset_eq]
  refine ⟨fun hlen => ?_, fun hlen hsat => ?_, fun hlen hsat => ?_⟩
  · rw [exec, execIngestPrs, ingestPrs_badLength hlen]
    rfl
  · rw [exec, execIngestPrs, ingestPrs_accepted hlen, ingestTail_saturated _ _ hsat]
    rfl
  · rw [exec, execIngestPrs, ingestPrs_accepted hlen, ingestTail_writes _ _ hsat]
    rfl

theorem dataIngest_badLength {idx : Nat} {s : State} (h : s.port.payload.length ≠ 8 * s.cfg.tS) :
    dataIngest idx s = raiseFault .badLength s :=
  if_neg (mt payloadIs_iff.mp h)

/-- The index is checked after the length (rule R258). -/
theorem dataIngest_badIndex {idx : Nat} {s : State} (h : s.port.payload.length = 8 * s.cfg.tS) (hidx : s.cfg.l ≤ idx) :
    dataIngest idx s = raiseFault .badIndex s := by
  rw [dataIngest, if_pos (payloadIs_iff.mpr h), if_pos hidx]

/-- A data ingress past its two checks is the tail at its slot (rule R102). -/
theorem dataIngest_accepted {idx : Nat} {s : State} (h : s.port.payload.length = 8 * s.cfg.tS) (hidx : idx < s.cfg.l) :
    dataIngest idx s = ingestTail idx (usefulPart s.cfg s.cfg.tG (samplesOf s.port.payload)) s := by
  rw [dataIngest, if_pos (payloadIs_iff.mpr h), if_neg (Nat.not_le.mpr hidx)]

/-- Settles O13: both commands are the same data ingress, which is its checks in order and then the tail's two cases. -/
theorem dataIngestWritesItsSlot : Obligations.DataIngestWritesItsSlot := by
  intro s idx i hi
  have hexec : exec i s = .next (dataIngest idx s) := by
    rcases hi with rfl | rfl <;> rfl
  rw [hexec]
  refine ⟨fun hlen => ?_, fun hlen hidx => ?_, fun hlen hidx hsat => ?_, fun hlen hidx hsat => ?_⟩
  · rw [dataIngest_badLength hlen]
    rfl
  · rw [dataIngest_badIndex hlen hidx]
    rfl
  · rw [dataIngest_accepted hlen hidx, ingestTail_saturated _ _ hsat]
    rfl
  · rw [dataIngest_accepted hlen hidx, ingestTail_writes _ _ hsat]
    rfl

end Sys2Proof.Machine
end

section
/-! PROOF. `XFORM` answers on both sides of its length check (O17). -/

namespace Sys2Proof.Machine

theorem xform_accepted (d : Dir) {s : State} (h : s.port.payload.length = 8 * s.cfg.tU) :
    xform d s = respond (.samples (transform s.cfg d (samplesOf s.port.payload))) s :=
  if_pos (payloadIs_iff.mpr h)

theorem xform_badLength (d : Dir) {s : State} (h : s.port.payload.length ≠ 8 * s.cfg.tU) :
    xform d s = respond (.samples (zeroSamples s.cfg)) (raiseFault .badLength s) :=
  if_neg (mt payloadIs_iff.mp h)

/-- Settles O17: the two sides of the length check. -/
theorem xformAnswersTheTransform : Obligations.XformAnswersTheTransform := by
  refine ⟨by decide, by decide, fun s d => ⟨fun hlen => ?_, fun hlen => ?_⟩⟩
  · rw [exec, execXform, xform_accepted d hlen]
    rfl
  · rw [exec, execXform, xform_badLength d hlen]
    rfl

end Sys2Proof.Machine
end

section
/-! PROOF. Before release every step answers a next state (O8): one lemma for each agent's move, then the choice of a move. -/

namespace Sys2Proof.Machine

/-- A transaction that holds a command word is a legal command or an illegal word, and both answer a next state (rules R82, R250). -/
theorem runCommand_next {bytes : List Byte} (hlen : 4 ≤ bytes.length) (h : Nat) (rest : List HostReq) (s : State) :
    ∃ t, runCommand h bytes rest s = .next t := by
  match bytes, hlen with
  | b0 :: b1 :: b2 :: b3 :: payload, _ =>
    by_cases hw : ∀ r, r ∈ opRows → r.hits (leWord b0 b1 b2 b3) = false
    · exact ⟨_, runCommand_of_illegal hw⟩
    · obtain ⟨r, hr, hit⟩ : ∃ r ∈ opRows, r.hits (leWord b0 b1 b2 b3) = true := by simpa using hw
      obtain ⟨k, rfl⟩ := mem_opRows.mp hr
      have hd : decode (b0 :: b1 :: b2 :: b3 :: payload) = .ok (k.build (leWord b0 b1 b2 b3), payload) := by
        simp only [decode, decodeWord_of_hits hit]
      rw [runCommand_of_decode hd]
      exact exec_next _ _

/-- A host's move answers a next state unless its first request is a transaction without a command word (log entry 13). -/
theorem runHost_next {h : Nat} {s : State}
    (hcmd : ∀ bytes rest, s.hosts.getD h [] = .cmd bytes :: rest → 4 ≤ bytes.length) : ∃ t, runHost h s = .next t := by
  unfold runHost
  split
  case h_1 => exact ⟨_, rfl⟩
  case h_2 bytes rest hq => exact runCommand_next (hcmd bytes rest hq) h rest s
  case h_3 rest _ => exact ⟨_, runPoll_eq h rest s⟩
  case h_4 => exact ⟨_, rfl⟩

/-- A data position that would read a reference that is not valid stops the worker (rules R44, R255). -/
theorem workerProcess_stops {s : State} {w : Vec} (hw : s.work = some w) (h0 : s.curblk ≠ 0)
    (hd : demodulate (transform s.cfg .fwd w) s = none) : workerProcess s = .next (uninitStop s) := by
  simp [workerProcess, hw, h0, dataProcess, dataProcessed, hd]

/-- The process step answers a next state once `work` is written (log entry 9). -/
theorem workerProcess_next {s : State} (h : s.work ≠ none) : ∃ t, workerProcess s = .next t := by
  obtain ⟨w, hw⟩ := Option.ne_none_iff_exists'.mp h
  by_cases h0 : s.curblk = 0
  · exact ⟨_, workerProcess_reference hw h0⟩
  · cases hd : demodulate (transform s.cfg .fwd w) s with
    | some a => exact ⟨_, workerProcess_block hw h0 hd⟩
    | none => exact ⟨_, workerProcess_stops hw h0 hd⟩

theorem runMove_next {m : Move} {s : State}
    (hcmd : ∀ h bytes rest, s.hosts.getD h [] = .cmd bytes :: rest → 4 ≤ bytes.length)
    (hwork : m = .process → s.work ≠ none) : ∃ t, runMove m s = .next t := by
  cases m with
  | host h => exact runHost_next (hcmd h)
  | dequeue => exact ⟨_, rfl⟩
  | process => exact workerProcess_next (hwork rfl)
  | exit => exact ⟨_, rfl⟩

/-- The process step is enabled in `RUN` alone (rule R133). -/
theorem wphase_of_process_enabled {s : State} (h : .process ∈ enabledMoves s) : s.wphase = .run := by
  rw [enabledMoves, List.mem_append, mem_hostMoves, mem_workerMoves] at h
  simpa [processEnabled] using h

/-- Settles O8: the step waits, or runs an enabled move on a state that differs in the model's choice fields alone. -/
theorem everyStepCompletes : Obligations.EveryStepCompletes := by
  intro s hr hcmd hwork
  rcases pick_cases s with ⟨-, hp⟩ | ⟨m, ns, n, hm, hp⟩
  · exact ⟨s, by simp [step, stepState, hr, hp]⟩
  · rw [step_of_pick hr hp]
    exact runMove_next hcmd fun hproc => hwork (wphase_of_process_enabled (hproc ▸ hm))

end Sys2Proof.Machine
end

section
/-! PROOF. The worker's moves: when dequeue and exit are enabled and what they do, the retire, and the drain after STOP (O10, O25, O26, O27). -/

namespace Sys2Proof.Machine

/-- A move of the worker is no host's, so it is enabled exactly when the worker offers it (rules R66, R130). -/
theorem mem_enabledMoves_of_worker {s : State} {m : Move} (h : ∀ k, m ≠ .host k) : m ∈ enabledMoves s ↔ m ∈ workerMoves s := by
  rw [enabledMoves, List.mem_append, or_iff_right]
  rw [mem_hostMoves]
  rintro ⟨k, -, -, hk⟩
  exact h k hk

theorem dequeue_mem_enabledMoves {s : State} : .dequeue ∈ enabledMoves s ↔ s.wphase = .wait ∧ s.pending ≠ 0#32 := by
  rw [mem_enabledMoves_of_worker (by simp), mem_workerMoves]
  simp [dequeueEnabled]

theorem exit_mem_enabledMoves {s : State} : .exit ∈ enabledMoves s ↔ s.wphase = .wait ∧ s.running = false := by
  rw [mem_enabledMoves_of_worker (by simp), mem_workerMoves]
  simp [exitEnabled]

/-- The process step is the only move of the worker in `RUN` (rule R133). -/
theorem workerMoves_of_run {s : State} (h : s.wphase = .run) : workerMoves s = [.process] := by
  simp [workerMoves, movesIf, dequeueEnabled, processEnabled, exitEnabled, h]

/-- An exited worker has no move (rule R136). -/
theorem workerMoves_of_exited {s : State} (h : s.wphase = .exited) : workerMoves s = [] := by
  simp [workerMoves, movesIf, dequeueEnabled, processEnabled, exitEnabled, h]

/-- Some choice number names each move of the list: its place. -/
theorem exists_chosen_eq {m a : Move} {ms : List Move} (h : m ∈ a :: ms) : ∃ n, chosen a ms n = m := by
  obtain ⟨n, hn, rfl⟩ := List.getElem_of_mem h
  refine ⟨n, ?_⟩
  rw [chosen, Nat.mod_eq_of_lt (by simpa using hn), List.getD_eq_getElem _ _ hn]

/-- Every enabled move can be the one taken (rules R70, R137). -/
theorem exists_choice_picks {s : State} {m : Move} (h : m ∈ enabledMoves s) :
    ∃ n, (pick { s with choices := [n] }).1 = some m := by
  have hmoves : ∀ n, enabledMoves { s with choices := [n] } = enabledMoves s := fun _ => rfl
  match he : enabledMoves s, h with
  | [_], h => exact ⟨0, by simp [pick, hmoves, he, List.mem_singleton.mp h]⟩
  | a :: b :: ms, h =>
    obtain ⟨n, hn⟩ := exists_chosen_eq h
    exact ⟨n, by simp [pick, hmoves, he, hn]⟩

/-- Settles O10: both moves are enabled, and every enabled move has a choice that takes it. -/
theorem drainAfterStopIsOpen : Obligations.DrainAfterStopIsOpen := by
  refine ⟨fun s hw hp hr => ?_, fun s => workerMoves_of_run⟩
  have hd : .dequeue ∈ enabledMoves s := dequeue_mem_enabledMoves.mpr ⟨hw, hp⟩
  have he : .exit ∈ enabledMoves s := exit_mem_enabledMoves.mpr ⟨hw, hr⟩
  exact ⟨hd, he, exists_choice_picks hd, exists_choice_picks he⟩

/-- The slot's vector becomes the working buffer (rule R132). -/
theorem workerDequeue_of_written {s : State} {v : Vec} (h : s.slots[s.curblk]? = some (some v)) :
    workerDequeue s = { s with work := some v, wphase := .run } := by
  simp [workerDequeue, readSlot, h, writeWork]

/-- An unwritten slot stops the worker (rules R132, R255). -/
theorem workerDequeue_of_unwritten {s : State} (h : s.slots[s.curblk]? = some none) : workerDequeue s = uninitStop s := by
  simp [workerDequeue, readSlot, h]

/-- Settles O25, by the slot at the position: written, or not. -/
theorem dequeueCopiesTheSlot : Obligations.DequeueCopiesTheSlot := by
  refine fun s => ⟨dequeue_mem_enabledMoves, fun v hv => ?_, fun hn => ?_⟩
  · rw [runMove, workerDequeue_of_written hv]
  · rw [runMove, workerDequeue_of_unwritten hn]
    rfl

/-- Settles O26: the exit enabled, its effect by definition, and no move left after it. -/
theorem exitStopsTheWorker : Obligations.ExitStopsTheWorker :=
  fun _ => ⟨exit_mem_enabledMoves, rfl, workerMoves_of_exited⟩

/-- At the wrap the retire flushes (rules R134, R135). -/
theorem retire_of_wrap {s : State} (h : nextPosition s.cfg s.curblk = 0) :
    retire s = { flush (retireCounters s) with wphase := .wait } := by
  simp [retire, flushAtWrap, h]

/-- Off the wrap the retire moves the counters alone (rule R134). -/
theorem retire_of_noWrap {s : State} (h : nextPosition s.cfg s.curblk ≠ 0) :
    retire s = { retireCounters s with wphase := .wait } := by
  simp [retire, flushAtWrap, h]

/-- Settles O27: the position after this one is 0, or not. -/
theorem retireFlushesAtTheWrap : Obligations.RetireFlushesAtTheWrap := by
  refine fun s => ⟨fun hwrap => ?_, fun hwrap => ?_⟩
  · have hpos : nextPosition s.cfg s.curblk = 0 := hwrap
    rw [retire_of_wrap hpos, retireCounters, hpos]
    rfl
  · rw [retire_of_noWrap hwrap]
    rfl

end Sys2Proof.Machine
end

section
/-! PROOF. The bin of a carrier is its map value modulo `T_u` (O57). -/

namespace Sys2Proof.Machine

/-- The bin of a map value in range is its residue modulo `T_u` (rules R170, R171). -/
theorem carrierBin_eq_emod {c : Config} {i : Nat} {m : Int} (hi : c.carrierMap[i]? = some m)
    (hm : -(c.tU : Int) ≤ m ∧ m < c.tU) : carrierBin c i = some (m % (c.tU : Int)).toNat := by
  simp [carrierBin, hi, hm, wrapBin_eq_emod]

/-- Settles O57: a legal map value lies in range, where one wraparound gives the residue. -/
theorem binIsTheMapModuloLength : Obligations.BinIsTheMapModuloLength := by
  intro c i m hc hi
  obtain ⟨-, hrange, -⟩ := mapLegal_of hc
  have hm := hrange m (List.mem_of_getElem? hi)
  have hwrap := wrapBin_eq_emod hm
  have hbin := wrapBin_range hm
  exact ⟨carrierBin_eq_emod hi hm, by omega, hwrap.symm⟩

end Sys2Proof.Machine
end

section
/-! PROOF. Under `REAL` the transform is the sum of rules R160 and R161 (O45): the value and the finiteness of each expression that makes up a
bin. Every factor `exp(±j·2π·k·n/N)` is a power of one root of unity, `turnExp N`, whose laws carry the later proofs. -/

namespace Sys2Proof.Machine

open Finset (range)

/-- `exp(j·2π·m/N)`: `m` steps of the `N`-th part of a turn. -/
noncomputable def turnExp (N : Nat) (m : Int) : ℂ := Complex.exp (Complex.I * (2 * Real.pi * m / N))

theorem turnExp_add (N : Nat) (a b : Int) : turnExp N (a + b) = turnExp N a * turnExp N b := by
  rw [turnExp, turnExp, turnExp, ← Complex.exp_add]
  congr 1
  push_cast
  ring

theorem turnExp_mul_natCast (N : Nat) (a : Int) (n : Nat) : turnExp N (a * n) = turnExp N a ^ n := by
  rw [turnExp, turnExp, ← Complex.exp_nat_mul]
  congr 1
  push_cast
  ring

theorem turnExp_eq_cos_sin (N : Nat) (m : Int) :
    turnExp N m = ⟨Real.cos (2 * Real.pi * m / N), Real.sin (2 * Real.pi * m / N)⟩ := by
  have hreal : (2 * Real.pi * m / N : ℂ) = ((2 * Real.pi * m / N : ℝ) : ℂ) := by push_cast; rfl
  rw [turnExp, mul_comm, hreal, Complex.exp_mul_I, ← Complex.ofReal_cos, ← Complex.ofReal_sin, Complex.mk_eq_add_mul_I]

/-- The sign of the exponent as an integer: `FFT_SIGN` forward, its opposite inverse (rules R160, R161). -/
def turnSign (c : Config) : Dir → Int
  | .fwd => match c.fftSign with
    | .minus => -1
    | .plus => 1
  | .inv => match c.fftSign with
    | .minus => 1
    | .plus => -1

theorem turnSign_eq_or (c : Config) (d : Dir) : turnSign c d = 1 ∨ turnSign c d = -1 := by
  cases d <;> cases h : c.fftSign <;> simp [turnSign, h]

theorem exponentSign_eq_turnSign (c : Config) (d : Dir) : exponentSign c d = turnSign c d := by
  cases d <;> cases h : c.fftSign <;> simp [exponentSign, turnSign, h]

theorem exponentSignVal_eq_turnSign (c : Config) (d : Dir) : exponentSignVal c d = turnSign c d := by
  cases d <;> cases h : c.fftSign <;> simp [exponentSignVal, turnSign, h]

/-- The sum of rules R160 and R161 with its exponentials as powers of the root of unity. -/
theorem transformVal_eq_turnExp (c : Config) (d : Dir) (x : Vec) (k : Nat) :
    transformVal c d x k =
      scaleVal c d * ∑ n ∈ range c.tU, (x.getD n Cplx.zero).val * turnExp c.tU (turnSign c d * k * n) := by
  rw [transformVal, exponentSignVal_eq_turnSign]
  refine congrArg _ (Finset.sum_congr rfl fun n _ => congrArg _ ?_)
  rw [turnExp]
  congr 1
  push_cast
  ring

theorem transformScale_val (c : Config) (d : Dir) : ((transformScale c d).val : ℂ) = scaleVal c d := by
  cases hn : c.fftNorm <;> cases d <;> simp [transformScale, scaleVal, hn, Num.val]

theorem transformScale_finite (c : Config) (d : Dir) : (transformScale c d).finite = true := by
  cases hn : c.fftNorm <;> cases d <;> simp [transformScale, hn, Num.finite]

theorem Num.sum_finite {xs : List Num} (h : ∀ e ∈ xs, e.finite = true) : (Num.sum xs).finite = true := by
  induction xs with
  | nil => rfl
  | cons x xs ih =>
    obtain ⟨hx, hxs⟩ := List.forall_mem_cons.mp h
    simpa [Num.sum, Num.finite, hx] using ih hxs

theorem Num.sum_mapIdx_finite {f : Nat → Cplx → Num} {x : Vec} (h : ∀ n, ∀ z ∈ x, (f n z).finite = true) :
    (Num.sum (x.mapIdx f)).finite = true := by
  refine Num.sum_finite fun e he => ?_
  obtain ⟨n, hn, rfl⟩ := List.mem_mapIdx.mp he
  exact h n _ (List.getElem_mem hn)

theorem Num.sum_mapIdx_val (f : Nat → Cplx → Num) (x : Vec) :
    (Num.sum (x.mapIdx f)).val = ∑ n ∈ range x.length, (f n (x.getD n Cplx.zero)).val := by
  rw [Num.sum_val, List.mapIdx_eq_ofFn, List.map_ofFn, List.sum_ofFn, Finset.sum_range]
  simp

/-- The two parts written by `twiddleRe` and `twiddleIm` are those of the product with the turned unit. -/
theorem twiddle_val {σ : Int} (hσ : σ = 1 ∨ σ = -1) (N k n : Nat) (z : Cplx) :
    (⟨(twiddleRe σ N k n z).val, (twiddleIm σ N k n z).val⟩ : ℂ) = z.val * turnExp N (σ * k * n) := by
  have hangle : (2 * Real.pi * ((σ * k * n : Int) : ℝ) / N) = σ * (2 * Real.pi * ((k * n : Nat) : ℝ) / N) := by
    push_cast; ring
  rw [turnExp_eq_cos_sin, hangle]
  obtain rfl | rfl := hσ <;> apply Complex.ext <;> simp [twiddleRe, twiddleIm, Num.val, Cplx.val, add_comm]

/-- The expression of a bin denotes the sum of its rule (rules R160, R161). -/
theorem exactBin_val {c : Config} (d : Dir) {x : Vec} (k : Nat) (hx : x.length = c.tU) :
    (exactBin c d x k).val = transformVal c d x k := by
  rw [transformVal_eq_turnExp, ← transformScale_val]
  simp only [← twiddle_val (turnSign_eq_or c d), ← exponentSign_eq_turnSign]
  apply Complex.ext <;> simp [exactBin, Cplx.val, Num.val, Num.sum_mapIdx_val, hx]

theorem twiddle_finite {z : Cplx} (h : z.finite = true) (σ : Rat) (N k n : Nat) :
    (twiddleRe σ N k n z).finite = true ∧ (twiddleIm σ N k n z).finite = true := by
  obtain ⟨hre, him⟩ := Bool.and_eq_true_iff.mp h
  simp [twiddleRe, twiddleIm, Num.finite, hre, him]

/-- A bin over finite samples holds no NaN and no infinity. -/
theorem exactBin_finite (c : Config) (d : Dir) {x : Vec} (k : Nat) (hx : x.all Cplx.finite = true) :
    (exactBin c d x k).finite = true := by
  have hz := List.all_eq_true.mp hx
  have hre := Num.sum_mapIdx_finite fun n z hm => (twiddle_finite (hz z hm) (exponentSign c d) c.tU k n).1
  have him := Num.sum_mapIdx_finite fun n z hm => (twiddle_finite (hz z hm) (exponentSign c d) c.tU k n).2
  simp [Cplx.finite, exactBin, Num.finite, transformScale_finite, hre, him]

theorem transformBin_real {c : Config} (h : c.numerics = .real) (d : Dir) (x : Vec) (k : Nat) :
    transformBin c d x k = exactBin c d x k := by
  simp [transformBin, h]

/-- Settles O45: under `REAL` a value of the transform is the exact bin. -/
theorem transformIsTheSum : Obligations.TransformIsTheSum := by
  intro c d x k hreal hlen hfin hk
  refine ⟨exactBin c d x k, ?_, exactBin_finite c d k hfin, exactBin_val d k hlen⟩
  rw [transform_getElem? c d x hk, transformBin_real hreal]

end Sys2Proof.Machine
end

section
/-! PROOF. What follows from the sums of rules R160 and R161 (O46, O47, O48). The powers of a root of unity over one period sum to 0 unless the
root is 1: that isolates a sample in the round trip (rule R162) and a tone in its bin (rule R165). -/

namespace Sys2Proof.Machine

open Finset (range)

/-- The value of a bin in range, as the later rules read it. -/
theorem transform_getD_val {c : Config} {x : Vec} {k : Nat} (d : Dir) (hreal : c.numerics = .real) (hlen : x.length = c.tU)
    (hk : k < c.tU) : ((transform c d x).getD k Cplx.zero).val = transformVal c d x k := by
  rw [List.getD_eq_getElem?_getD, transform_getElem? c d x hk, Option.getD_some, transformBin_real hreal, exactBin_val d k hlen]

theorem dir_cases_of_ne {d e : Dir} (h : d ≠ e) : d = .fwd ∧ e = .inv ∨ d = .inv ∧ e = .fwd := by
  cases d <;> cases e <;> simp at h ⊢

/-- The two directions turn in opposite senses (rule R161). -/
theorem turnSign_of_ne {c : Config} {d e : Dir} (h : d ≠ e) : turnSign c e = -turnSign c d := by
  obtain ⟨rfl, rfl⟩ | ⟨rfl, rfl⟩ := dir_cases_of_ne h <;> cases hs : c.fftSign <;> simp [turnSign, hs]

theorem turnExp_eq_one_iff {N : Nat} (hN : N ≠ 0) (m : Int) : turnExp N m = 1 ↔ (N : Int) ∣ m := by
  have hroot : turnExp N m = Complex.exp (2 * Real.pi * Complex.I / N) ^ m := by
    rw [turnExp, ← Complex.exp_int_mul]
    congr 1
    ring
  rw [hroot, (Complex.isPrimitiveRoot_exp N hN).zpow_eq_one_iff_dvd]

/-- Over one period the powers of a root of unity sum to 0 unless the root is 1. -/
theorem sum_turnExp {N : Nat} (hN : N ≠ 0) (m : Int) :
    ∑ n ∈ range N, turnExp N (m * n) = if (N : Int) ∣ m then (N : ℂ) else 0 := by
  simp only [turnExp_mul_natCast]
  split
  case isTrue h => simp [(turnExp_eq_one_iff hN m).mpr h]
  case isFalse h =>
    have hperiod : turnExp N m ^ N = 1 := by
      rw [← turnExp_mul_natCast, turnExp_eq_one_iff hN]
      exact Dvd.intro_left m rfl
    rw [geom_sum_eq (mt (turnExp_eq_one_iff hN m).mp h), hperiod, sub_self, zero_div]

theorem dvd_natCast_sub_iff {N a b : Nat} (ha : a < N) (hb : b < N) : (N : Int) ∣ b - a ↔ a = b := by
  rw [← Nat.modEq_iff_dvd]
  exact ⟨fun h => h.eq_of_lt_of_lt ha hb, fun h => h ▸ rfl⟩

/-- The bin mirrored at 0 is the one that completes `b` to a multiple of `N` (rule R165). -/
theorem dvd_natCast_add_iff {N b k : Nat} (hb : b < N) (hk : k < N) : (N : Int) ∣ b + k ↔ k = (N - b) % N := by
  have hsum : b + (N - b) = N := by omega
  calc (N : Int) ∣ b + k
      ↔ N ∣ b + k := by exact_mod_cast Iff.rfl
    _ ↔ b + k ≡ b + (N - b) [MOD N] := by rw [hsum, Nat.ModEq, Nat.mod_self, Nat.dvd_iff_mod_eq_zero]
    _ ↔ k ≡ N - b [MOD N] := ⟨Nat.ModEq.add_left_cancel' b, Nat.ModEq.add_left b⟩
    _ ↔ k = (N - b) % N := by rw [Nat.ModEq, Nat.mod_eq_of_lt hk]

/-- A turn forward at bin `m` and back at bin `n`, summed over the bins, is `N` where they agree and 0 elsewhere. -/
theorem sum_turnExp_pair {σ : Int} (hσ : σ = 1 ∨ σ = -1) {N m n : Nat} (hm : m < N) (hn : n < N) :
    ∑ k ∈ range N, turnExp N (σ * k * m) * turnExp N (-σ * n * k) = if m = n then (N : ℂ) else 0 := by
  have hN : N ≠ 0 := by omega
  have hexp : ∀ k : Nat, σ * k * m + -σ * n * k = σ * (m - n) * k := fun k => by ring
  have hunit : IsUnit σ := Int.isUnit_iff.mpr hσ
  simp only [← turnExp_add, hexp, sum_turnExp hN, hunit.dvd_mul_left, dvd_natCast_sub_iff hn hm, eq_comm]

/-- The factor `c` of rule R162. -/
noncomputable def roundTripScale (c : Config) : ℂ :=
  match c.fftNorm with
  | .none => c.tU
  | .invN => 1
  | .unitary => 1

/-- Both scales and the length together are the factor of rule R162. -/
theorem scaleVal_mul_scaleVal {c : Config} {d e : Dir} (h : d ≠ e) (hN : c.tU ≠ 0) :
    scaleVal c e * scaleVal c d * c.tU = roundTripScale c := by
  have hN' : (c.tU : ℂ) ≠ 0 := Nat.cast_ne_zero.mpr hN
  have hsqrt : ((Real.sqrt c.tU : ℝ) : ℂ) * (Real.sqrt c.tU : ℝ) = c.tU := by
    rw [← Complex.ofReal_mul, Real.mul_self_sqrt c.tU.cast_nonneg, Complex.ofReal_natCast]
  cases hn : c.fftNorm with
  | none => simp [scaleVal, roundTripScale, hn]
  | invN => obtain ⟨rfl, rfl⟩ | ⟨rfl, rfl⟩ := dir_cases_of_ne h <;> simp [scaleVal, roundTripScale, hn, hN']
  | unitary => simp [scaleVal, roundTripScale, hn, ← mul_inv, hsqrt, hN']

/-- Settles O46: the double sum is taken over the bins first, where only the sample asked for is left. -/
theorem transformRoundTrip : Obligations.TransformRoundTrip := by
  intro c d e x n hreal hlen _ hn hde
  change _ = roundTripScale c * _
  rw [transform_getD_val e hreal (transform_length c d x) hn, ← scaleVal_mul_scaleVal hde (by omega : c.tU ≠ 0)]
  have hbins : ∀ k ∈ range c.tU, ((transform c d x).getD k Cplx.zero).val * turnExp c.tU (turnSign c e * n * k) =
      scaleVal c d * ∑ m ∈ range c.tU, (x.getD m Cplx.zero).val *
        (turnExp c.tU (turnSign c d * k * m) * turnExp c.tU (-turnSign c d * n * k)) := fun k hk => by
    rw [transform_getD_val d hreal hlen (Finset.mem_range.mp hk), transformVal_eq_turnExp, turnSign_of_ne hde, mul_assoc,
      Finset.sum_mul]
    simp only [mul_assoc]
  have hsamples : ∀ m ∈ range c.tU, ∑ k ∈ range c.tU, (x.getD m Cplx.zero).val *
      (turnExp c.tU (turnSign c d * k * m) * turnExp c.tU (-turnSign c d * n * k)) =
      if m = n then (x.getD n Cplx.zero).val * c.tU else 0 := fun m hm => by
    rw [← Finset.mul_sum, sum_turnExp_pair (turnSign_eq_or c d) (Finset.mem_range.mp hm) hn, mul_ite, mul_zero]
    split
    case isTrue h => rw [h]
    case isFalse => rfl
  rw [transformVal_eq_turnExp, Finset.sum_congr rfl hbins, ← Finset.mul_sum, Finset.sum_comm, Finset.sum_congr rfl hsamples,
    Finset.sum_ite_eq' (range c.tU) n, if_pos (Finset.mem_range.mpr hn)]
  ring

/-- A vector of zeros transforms to zeros (rule R166). -/
theorem transformVal_of_zero {c : Config} {x : Vec} (h : ∀ n, n < c.tU → (x.getD n Cplx.zero).val = 0) (d : Dir) (k : Nat) :
    transformVal c d x k = 0 := by
  rw [transformVal, Finset.sum_eq_zero fun n hn => by rw [h n (Finset.mem_range.mp hn), zero_mul], mul_zero]

/-- The transform is linear (rule R166). -/
theorem transformVal_linear {c : Config} {x y z : Vec} {a b : ℂ}
    (h : ∀ n, n < c.tU → (z.getD n Cplx.zero).val = a * (x.getD n Cplx.zero).val + b * (y.getD n Cplx.zero).val) (d : Dir) (k : Nat) :
    transformVal c d z k = a * transformVal c d x k + b * transformVal c d y k := by
  rw [transformVal, transformVal, transformVal, mul_left_comm a, mul_left_comm b, ← mul_add, Finset.mul_sum (a := a),
    Finset.mul_sum (a := b), ← Finset.sum_add_distrib]
  refine congrArg _ (Finset.sum_congr rfl fun n hn => ?_)
  rw [h n (Finset.mem_range.mp hn)]
  ring

/-- Bin 0 is the scaled sum of the samples (rule R166). -/
theorem transformVal_bin_zero (c : Config) (d : Dir) (x : Vec) :
    transformVal c d x 0 = scaleVal c d * ∑ n ∈ range c.tU, (x.getD n Cplx.zero).val := by
  simp [transformVal]

/-- An impulse at `m` gives the exponential of rule R166. -/
theorem transformVal_of_impulse {c : Config} {x : Vec} {m : Nat} (hm : m < c.tU)
    (h : ∀ n, n < c.tU → (x.getD n Cplx.zero).val = if n = m then 1 else 0) (d : Dir) (k : Nat) :
    transformVal c d x k =
      scaleVal c d * Complex.exp (exponentSignVal c d * Complex.I * (2 * Real.pi * k * m / c.tU)) := by
  rw [transformVal, Finset.sum_eq_single_of_mem m (Finset.mem_range.mpr hm), h m hm, if_pos rfl, one_mul]
  intro n hn hne
  rw [h n (Finset.mem_range.mp hn), if_neg hne, zero_mul]

/-- Settles O47: each line of rule R166 by its lemma about the sum. -/
theorem transformCornerCases : Obligations.TransformCornerCases := by
  intro c x hreal hlen _
  refine ⟨fun h d k hk => ?_, fun y z a b k hy hz _ _ hk h => ?_, fun h0 => ?_, fun m hm h k hk => ?_⟩
  · rw [transform_getD_val d hreal hlen hk, transformVal_of_zero h]
  · rw [transform_getD_val .fwd hreal hz hk, transform_getD_val .fwd hreal hlen hk, transform_getD_val .fwd hreal hy hk,
      transformVal_linear h]
  · rw [transform_getD_val .fwd hreal hlen h0, transformVal_bin_zero]
  · rw [transform_getD_val .fwd hreal hlen hk, transformVal_of_impulse hm h]

/-- A tone at bin `b` is left only where the turn of the transform undoes it (rule R165). -/
theorem transformVal_of_tone {c : Config} {x : Vec} {a : ℂ} {b : Nat} (hN : c.tU ≠ 0)
    (h : ∀ n, n < c.tU → (x.getD n Cplx.zero).val = a * Complex.exp (Complex.I * (2 * Real.pi * b * n / c.tU))) (d : Dir) (k : Nat) :
    transformVal c d x k = if (c.tU : Int) ∣ b + turnSign c d * k then scaleVal c d * c.tU * a else 0 := by
  have hterm : ∀ n ∈ range c.tU, (x.getD n Cplx.zero).val * turnExp c.tU (turnSign c d * k * n) =
      a * turnExp c.tU ((b + turnSign c d * k) * n) := fun n hn => by
    have htone : Complex.exp (Complex.I * (2 * Real.pi * b * n / c.tU)) = turnExp c.tU (b * n) := by
      rw [turnExp]; push_cast; ring_nf
    rw [h n (Finset.mem_range.mp hn), htone, mul_assoc, ← turnExp_add, ← add_mul]
  rw [transformVal_eq_turnExp, Finset.sum_congr rfl hterm, ← Finset.mul_sum, sum_turnExp hN]
  split
  · ring
  · simp

/-- Settles O48: the bin that undoes the tone is `b` itself under one sign and its mirror under the other. -/
theorem toneLandsInItsBin : Obligations.ToneLandsInItsBin := by
  intro c x a b k hreal hlen _ hb hk h
  rw [transform_getD_val .fwd hreal hlen hk, transformVal_of_tone (by omega) h]
  cases hs : c.fftSign with
  | minus =>
    have hdvd : (c.tU : Int) ∣ b + turnSign c .fwd * k ↔ k = b := by
      simpa [turnSign, hs, ← sub_eq_add_neg] using dvd_natCast_sub_iff hk hb
    simp only [hdvd]
  | plus =>
    have hdvd : (c.tU : Int) ∣ b + turnSign c .fwd * k ↔ k = (c.tU - b) % c.tU := by
      simpa [turnSign, hs] using dvd_natCast_add_iff hb hk
    simp only [hdvd]

end Sys2Proof.Machine
end

section
/-! PROOF. The SNR update and the process step at position 0 (O28), and the cadence of the reports (O29). -/

namespace Sys2Proof.Machine

/-! ### The update (rules R197, R198): each field once -/

@[simp] theorem smoothSnr_snrCnt (x : Vec) (s : State) : (smoothSnr x s).snrCnt = s.snrCnt := by
  obtain ⟨v, n, b, h⟩ := smoothSnr_eq x s
  rw [h]

@[simp] theorem smoothSnr_trace (x : Vec) (s : State) : (smoothSnr x s).trace = s.trace := by
  obtain ⟨v, n, b, h⟩ := smoothSnr_eq x s
  rw [h]

theorem snrOpen_iff {s : State} {x : Vec} : snrOpen s x = true ↔ s.snrFree = true ∨ x.all Cplx.finite = false := by
  rw [snrOpen, Bool.or_eq_true, Bool.not_eq_true']

/-- The new `snr` is a free value once a symbol was not finite, and the smoothed value until then (rule R197, entry I4). -/
theorem smoothSnr_snr (x : Vec) (s : State) : (smoothSnr x s).snr =
    if s.snrFree = true ∨ x.all Cplx.finite = false then .lit (Config.freeSnr s.freeCtr)
    else smooth s.cfg s.snr (snrInstant s.cfg x) := by
  simp only [smoothSnr, snrOpen_iff]
  split <;> rfl

/-- The tenth update is the one that finds nine counted. -/
theorem count_reaches_period_iff (n : BitVec 4) : n + 1#4 = snrPeriod ↔ n = 9#4 := by
  rw [snrPeriod]
  bv_omega

@[simp] theorem snrUpdate_snr (x : Vec) (s : State) : (snrUpdate x s).snr = (smoothSnr x s).snr := by
  obtain ⟨n, tr, h, -⟩ := reportSnr_eq (smoothSnr x s)
  rw [snrUpdate, h]

theorem snrUpdate_snrCnt (x : Vec) (s : State) :
    (snrUpdate x s).snrCnt = if s.snrCnt = 9#4 then 0#4 else s.snrCnt + 1#4 := by
  obtain ⟨n, tr, h, hn⟩ := reportSnr_eq (smoothSnr x s)
  rw [snrUpdate, h]
  simp only [ne_eq, count_reaches_period_iff, smoothSnr_snrCnt] at hn
  obtain ⟨h9, hn, -⟩ | ⟨h9, hn, -⟩ := hn
  · rw [if_pos h9, hn]
  · rw [if_neg h9, hn]

/-- The report carries the value just smoothed (rule R198). -/
theorem snrUpdate_trace (x : Vec) (s : State) :
    (snrUpdate x s).trace = s.trace ++ if s.snrCnt = 9#4 then [.record (.snr (snrUpdate x s).snr)] else [] := by
  obtain ⟨n, tr, h, hn⟩ := reportSnr_eq (smoothSnr x s)
  rw [snrUpdate_snr, snrUpdate, h]
  simp only [ne_eq, count_reaches_period_iff, smoothSnr_snrCnt, smoothSnr_trace] at hn
  obtain ⟨h9, -, ht⟩ | ⟨h9, -, ht⟩ := hn
  · rw [if_pos h9, ht]
  · rw [if_neg h9, ht, List.append_nil]

/-! ### The process step at position 0 (rules R133, R190) -/

/-! What phase-reference processing does to `snr`, its count and the trace is the update's doing: the write of `work` before it and the store of the
reference after it touch none of the three. -/

theorem prsApply_snr (x : Vec) (s : State) : (prsApply x s).snr =
    if s.snrFree = true ∨ x.all Cplx.finite = false then .lit (Config.freeSnr s.freeCtr)
    else smooth s.cfg s.snr (snrInstant s.cfg x) :=
  (snrUpdate_snr x (writeWork x s)).trans (smoothSnr_snr x (writeWork x s))

theorem prsApply_snrCnt (x : Vec) (s : State) :
    (prsApply x s).snrCnt = if s.snrCnt = 9#4 then 0#4 else s.snrCnt + 1#4 :=
  snrUpdate_snrCnt x (writeWork x s)

theorem prsApply_trace (x : Vec) (s : State) :
    (prsApply x s).trace = s.trace ++ if s.snrCnt = 9#4 then [.record (.snr (prsApply x s).snr)] else [] :=
  snrUpdate_trace x (writeWork x s)

/-- Phase-reference processing replaces `work` and the whole reference, and leaves what the retire and the hosts work on (rule R190). -/
theorem prsApply_frame (x : Vec) (s : State) :
    (prsApply x s).work = some x ∧ (prsApply x s).ref = x.map some ∧ (prsApply x s).pending = s.pending ∧
    (prsApply x s).curblk = s.curblk ∧ (prsApply x s).cbuf = s.cbuf ∧ (prsApply x s).slots = s.slots ∧
    (prsApply x s).running = s.running ∧ (prsApply x s).hosts = s.hosts := by
  obtain ⟨v, n, b, cnt, tr, h, -⟩ := prsApply_eq x s
  rw [h]
  exact ⟨rfl, rfl, rfl, rfl, rfl, rfl, rfl, rfl⟩

/-- The position after 0, which is 0 again in a frame of one symbol (rule R134). -/
theorem nextPosition_zero (c : Config) : nextPosition c 0 = if c.l = 1 then 0 else 1 := by
  rw [nextPosition]
  split
  case isTrue h => rw [h]
  case isFalse h => exact Nat.one_mod_eq_one.mpr h

theorem nextPosition_zero_eq_zero_iff (c : Config) : nextPosition c 0 = 0 ↔ c.l = 1 := by
  rw [nextPosition_zero]
  split <;> simp [*]

/-- Settles O28: the step is the retire of the processed reference symbol, and each field is read from those two. -/
theorem positionZeroRefreshesTheReference : Obligations.PositionZeroRefreshesTheReference := by
  rintro s w x hw h0 rfl
  refine ⟨_, workerProcess_reference hw h0, ?_⟩
  generalize transform s.cfg .fwd w = x
  obtain ⟨hwork, href, hpending, hcurblk, hcbuf, hslots, hrunning, hhosts⟩ := prsApply_frame x s
  have hwrap : nextPosition (prsApply x s).cfg (prsApply x s).curblk = 0 ↔ s.cfg.l = 1 := by
    rw [prsApply_cfg, hcurblk, h0, nextPosition_zero_eq_zero_iff]
  refine ⟨?_, ?_, ?_, ?_, ?_, ?_, ?_, retire_wphase _, ?_, ?_, ?_, ?_, ?_, ?_⟩
  · rw [retire_work, hwork]
  · rw [retire_ref, href]
  · rw [retire_snr, prsApply_snr]
  · rw [retire_snrCnt, prsApply_snrCnt]
  · rw [retire_trace, retire_snr, prsApply_trace, hcbuf]
    simp only [hwrap]
    split <;> simp
  · rw [retire_pending, hpending]
  · rw [retire_curblk, prsApply_cfg, hcurblk, h0, nextPosition_zero]
  · rw [retire_cbuf, hcbuf]
    simp only [hwrap]
  · rw [retire_cfg, prsApply_cfg]
  · rw [retire_slots, hslots]
  · rw [retire_running, hrunning]
  · rw [retire_fault, prsApply_fault]
  · rw [retire_hosts, hhosts]

/-! ### The cadence over a sequence of updates (rules R29, R198) -/

/-- The state after one update for each symbol of `xs`, in order. -/
def snrUpdates (xs : List Vec) (s : State) : State := xs.foldl (fun a x => snrUpdate x a) s

theorem snrUpdates_concat (xs : List Vec) (x : Vec) (s : State) :
    snrUpdates (xs ++ [x]) s = snrUpdate x (snrUpdates xs s) := by
  rw [snrUpdates, List.foldl_concat, snrUpdates]

/-- The reports of a sequence of updates from a fresh count: one after each full ten, with the value at that point. -/
def cadenceReports (xs : List Vec) (s : State) : List Event :=
  (List.range (xs.length / 10)).map fun j => .record (.snr (snrUpdates (xs.take (10 * (j + 1))) s).snr)

/-- A further update adds its report exactly where nine were counted since the last one. -/
theorem cadenceReports_concat (xs : List Vec) (x : Vec) (s : State) :
    cadenceReports (xs ++ [x]) s = cadenceReports xs s ++
      if xs.length % 10 = 9 then [.record (.snr (snrUpdates (xs ++ [x]) s).snr)] else [] := by
  have hold : ∀ j ∈ List.range (xs.length / 10), (xs ++ [x]).take (10 * (j + 1)) = xs.take (10 * (j + 1)) := fun j hj =>
    List.take_append_of_le_length (by have := List.mem_range.mp hj; omega)
  have hreports : (List.range (xs.length / 10)).map
      (fun j => Event.record (.snr (snrUpdates ((xs ++ [x]).take (10 * (j + 1))) s).snr)) = cadenceReports xs s :=
    List.map_congr_left fun j hj => by rw [hold j hj]
  rw [cadenceReports, List.length_append, List.length_singleton]
  split
  case isTrue h9 =>
    have hlen : (xs.length + 1) / 10 = xs.length / 10 + 1 := by omega
    have hall : (xs ++ [x]).take (10 * (xs.length / 10 + 1)) = xs ++ [x] :=
      List.take_of_length_le (by simp only [List.length_append, List.length_singleton]; omega)
    rw [hlen, List.range_succ, List.map_append, hreports, List.map_singleton, hall]
  case isFalse h9 =>
    have hlen : (xs.length + 1) / 10 = xs.length / 10 := by omega
    rw [hlen, hreports, List.append_nil]

/-- The count in four bits is nine exactly where the number of updates is, modulo ten. -/
theorem ofNat_mod_ten_eq_nine_iff (n : Nat) : BitVec.ofNat 4 (n % 10) = 9#4 ↔ n % 10 = 9 := by
  bv_omega

theorem count_succ (n : Nat) :
    (if n % 10 = 9 then 0#4 else BitVec.ofNat 4 (n % 10) + 1#4) = BitVec.ofNat 4 ((n + 1) % 10) := by
  split
  case isTrue h9 => rw [show (n + 1) % 10 = 0 by omega]
  case isFalse h9 => rw [show (n + 1) % 10 = n % 10 + 1 by omega, BitVec.ofNat_add]

/-- From a fresh count the updates count modulo ten, and append their cadence reports. -/
theorem snrUpdates_cadence {s : State} (h : s.snrCnt = 0#4) (xs : List Vec) :
    (snrUpdates xs s).trace = s.trace ++ cadenceReports xs s ∧
    (snrUpdates xs s).snrCnt = BitVec.ofNat 4 (xs.length % 10) := by
  induction xs using List.reverseRecOn with
  | nil => exact ⟨(List.append_nil _).symm, h⟩
  | append_singleton xs x ih =>
    obtain ⟨htrace, hcount⟩ := ih
    constructor
    · rw [cadenceReports_concat, snrUpdates_concat, snrUpdate_trace, htrace, hcount, List.append_assoc]
      simp only [ofNat_mod_ten_eq_nine_iff]
    · rw [snrUpdates_concat, snrUpdate_snrCnt, hcount, List.length_append, List.length_singleton]
      simp only [ofNat_mod_ten_eq_nine_iff, count_succ]

/-- Settles O29, by induction on the sequence from its end. -/
theorem everyTenthUpdateReports : Obligations.EveryTenthUpdateReports := fun _ xs h => snrUpdates_cadence h xs

end Sys2Proof.Machine
end

section
/-! PROOF. The SNR estimator: the instantaneous SNR (O53), its smoothing (O54), its corner cases (O55) and the index sets of the scenario geometry
(O56). Under `REAL` each expression denotes the real of its rule, so the corner cases are facts about `meanModulusVal`. -/

namespace Sys2Proof.Machine

/-! ### The values of the expressions (rules R196, R199) -/

theorem Num.val_lit_zero : (Num.lit 0#32).val = 0 := by
  have hzero : f32ToRat 0#32 = 0 := by simp [f32ToRat, f32Exponent]
  rw [Num.val, hzero, Rat.cast_zero, ite_self]

theorem modulus_val (z : Cplx) : (modulus z).val = ‖z.val‖ := by
  rw [Complex.norm_def, Complex.normSq_apply]
  rfl

theorem meanModulusVal_nil (c : Config) (x : Vec) : meanModulusVal c [] x = 0 := by
  simp [meanModulusVal]

/-- The mean expression denotes the mean, 0 over an empty set included (rule R196). -/
theorem meanModulus_val {c : Config} (h : c.numerics = .real) (js : List Nat) (x : Vec) :
    (meanModulus c (binsAt c js x)).val = meanModulusVal c js x := by
  cases js with
  | nil => rw [meanModulusVal_nil]; exact Num.val_lit_zero
  | cons j js =>
    have hmap : ((binsAt c (j :: js) x).map modulus).map Num.val =
        (j :: js).map fun i => ‖(x.getD (centredBin c i) Cplx.zero).val‖ := by
      simp only [binsAt, List.map_map, Function.comp_def, modulus_val]
    have hlen : (binsAt c (j :: js) x).length = (j :: js).length := List.length_map _
    have hne : (binsAt c (j :: js) x).isEmpty = false := rfl
    simp only [meanModulus, hne, h, Bool.false_eq_true, if_false]
    rw [Num.val, Num.sum_val, hmap, hlen, meanModulusVal, Num.val]
    push_cast
    ring

theorem decibel_val {c : Config} (h : c.numerics = .real) (x : Num) :
    (decibel c x).val = 20 * Real.logb 10 (x.val + c.dbOffset) := by
  simp [decibel, h, Num.val]

theorem decibelDiff_val {c : Config} (h : c.numerics = .real) (a b : Num) : (decibelDiff c a b).val = a.val - b.val := by
  simp [decibelDiff, h, Num.val]

theorem quantise_none {c : Config} (h : c.snrInstQuant = .none) (x : Num) : quantise c x = x := by
  simp [quantise, h]

theorem quantise_truncInt_val {c : Config} (hreal : c.numerics = .real) (h : c.snrInstQuant = .truncInt) (x : Num) :
    (quantise c x).val = (truncInt x.val : ℝ) := by
  simp [quantise, h, hreal, Num.val]

/-- The difference of the two decibel values is the real of rule R196. -/
theorem decibelDiff_means_val {c : Config} (h : c.numerics = .real) (x : Vec) :
    (decibelDiff c (decibel c (meanModulus c (binsAt c (signalSet c) x)))
      (decibel c (meanModulus c (binsAt c (noiseSet c) x)))).val = snrInstantVal c x := by
  rw [decibelDiff_val h, decibel_val h, decibel_val h, meanModulus_val h, meanModulus_val h, snrInstantVal]

theorem snrInstant_val {c : Config} (hreal : c.numerics = .real) (h : c.snrInstQuant = .none) (x : Vec) :
    (snrInstant c x).val = snrInstantVal c x := by
  rw [snrInstant, quantise_none h, decibelDiff_means_val hreal]

/-- Settles O53, by the two quantisations. -/
theorem instantaneousSnrIsTheDifference : Obligations.InstantaneousSnrIsTheDifference := by
  intro c x hreal _ _
  refine ⟨fun h => snrInstant_val hreal h x, fun h => ?_⟩
  rw [snrInstant, quantise_truncInt_val hreal h, decibelDiff_means_val hreal]

/-! ### The smoothing (rule R197) -/

/-- While every symbol was finite the update smooths (rule R197). -/
theorem snrUpdate_snr_of_finite {x : Vec} {s : State} (hfree : s.snrFree = false) (hfin : x.all Cplx.finite = true) :
    (snrUpdate x s).snr = smooth s.cfg s.snr (snrInstant s.cfg x) := by
  rw [snrUpdate_snr, smoothSnr_snr, if_neg (by simp [hfree, hfin])]

/-- Settles O54, by the arithmetic. -/
theorem smoothingIsTheMovingAverage : Obligations.SmoothingIsTheMovingAverage := by
  intro x s hfree hfin
  rw [snrUpdate_snr_of_finite hfree hfin]
  refine ⟨fun h => ?_, fun h => ?_, fun f h => ?_⟩
  · simp [smooth, h, Num.val]
  · simp [smooth, h]
  · simp [smooth, h]

/-! ### Index sets (rule R195) -/

theorem mem_natRange {a b j : Nat} : j ∈ natRange a b ↔ a ≤ j ∧ j < b := by
  simp only [natRange, List.mem_map, List.mem_range]
  constructor
  · rintro ⟨i, hi, rfl⟩
    omega
  · rintro ⟨ha, hb⟩
    exact ⟨j - a, by omega, by omega⟩

@[simp] theorem natRange_length (a b : Nat) : (natRange a b).length = b - a := by
  simp [natRange]

theorem natRange_self (a : Nat) : natRange a a = [] := by
  simp [natRange]

theorem centredBin_lt {c : Config} (h : 0 < c.tU) (j : Nat) : centredBin c j < c.tU := Nat.mod_lt _ h

theorem signalSet_eq_nil {c : Config} (h : c.k < 4) : signalSet c = [] := by
  rw [signalSet, Nat.div_eq_of_lt h, Nat.sub_zero, Nat.add_zero, natRange_self]

theorem centre_mem_signalSet {c : Config} (h : 4 ≤ c.k) : centre c ∈ signalSet c := by
  rw [signalSet, mem_natRange]
  omega

/-- The centre index names bin 0 (rule R195). -/
theorem centredBin_centre {c : Config} (h : c.tU % 2 = 0) : centredBin c (centre c) = 0 := by
  have hsum : centre c + centre c = c.tU := by rw [centre]; omega
  rw [centredBin, hsum, Nat.mod_self]

/-! ### Corner cases (rule R200) -/

theorem meanModulusVal_of_flat {c : Config} {js : List Nat} {x : Vec} {a : ℝ} (hne : js ≠ [])
    (h : ∀ j ∈ js, ‖(x.getD (centredBin c j) Cplx.zero).val‖ = a) : meanModulusVal c js x = a := by
  have hlen : (js.length : ℝ) ≠ 0 := by simpa using hne
  rw [meanModulusVal, List.map_congr_left h, List.map_const', List.sum_replicate, nsmul_eq_mul, mul_div_cancel_left₀ a hlen]

theorem meanModulusVal_of_zero {c : Config} {js : List Nat} {x : Vec}
    (h : ∀ j ∈ js, (x.getD (centredBin c j) Cplx.zero).val = 0) : meanModulusVal c js x = 0 := by
  by_cases hne : js = []
  · rw [hne, meanModulusVal_nil]
  · exact meanModulusVal_of_flat hne fun j hj => by rw [h j hj, norm_zero]

/-- Equal means cancel (rule R200). -/
theorem snrInstantVal_of_equal_means {c : Config} {x : Vec}
    (h : meanModulusVal c (signalSet c) x = meanModulusVal c (noiseSet c) x) : snrInstantVal c x = 0 := by
  rw [snrInstantVal, h, sub_self]

/-- Under the default offset no noise leaves the signal's decibel value alone (rule R200). -/
theorem snrInstantVal_of_no_noise {c : Config} {x : Vec} (hoffset : c.dbOffset = 1) (h : meanModulusVal c (noiseSet c) x = 0) :
    snrInstantVal c x = 20 * Real.logb 10 (meanModulusVal c (signalSet c) x + 1) := by
  rw [snrInstantVal, h, hoffset, Rat.cast_one, zero_add, Real.logb_one, mul_zero, sub_zero]

/-- Settles O55: each line of rule R200 by its lemma about the two means. -/
theorem snrCornerCases : Obligations.SnrCornerCases := by
  intro c x hreal hquant _ _ hpos
  rw [snrInstant_val hreal hquant]
  refine ⟨fun h => ?_, fun a hnoise hsignal h => ?_, fun hoffset h => ?_, fun h => ?_, fun h => ?_, fun hk _ heven => ?_⟩
  · have hbins : ∀ js : List Nat, meanModulusVal c js x = 0 := fun js =>
      meanModulusVal_of_zero fun j _ => h _ (centredBin_lt hpos j)
    exact snrInstantVal_of_equal_means (by rw [hbins, hbins])
  · have hbins : ∀ js : List Nat, js ≠ [] → meanModulusVal c js x = a := fun js hne =>
      meanModulusVal_of_flat hne fun j _ => h _ (centredBin_lt hpos j)
    exact snrInstantVal_of_equal_means (by rw [hbins _ hsignal, hbins _ hnoise])
  · exact snrInstantVal_of_no_noise hoffset (meanModulusVal_of_zero h)
  · rw [meanModulus_val hreal, h, meanModulusVal_nil]
  · rw [meanModulus_val hreal, signalSet_eq_nil h, meanModulusVal_nil]
    exact ⟨rfl, rfl⟩
  · exact ⟨centre c, centre_mem_signalSet hk, centredBin_centre heven⟩

/-! ### The scenario geometry (rule R203) -/

@[simp] theorem scenarioConfig_tU (decim : Nat) : (scenarioConfig decim).tU = 2048 := rfl
@[simp] theorem scenarioConfig_k (decim : Nat) : (scenarioConfig decim).k = 1536 := rfl
@[simp] theorem scenarioConfig_snrMWrap (decim : Nat) : (scenarioConfig decim).snrMWrap = 10 := rfl
@[simp] theorem scenarioConfig_snrMEdge (decim : Nat) : (scenarioConfig decim).snrMEdge = 20 := rfl

@[simp] theorem scenario_centre (decim : Nat) : centre (scenarioConfig decim) = 1024 := by simp [centre]

@[simp] theorem scenario_bandLow (decim : Nat) : bandLow (scenarioConfig decim) = 256 := by simp [bandLow]

@[simp] theorem scenario_bandHigh (decim : Nat) : bandHigh (scenarioConfig decim) = 1792 := by simp [bandHigh]

theorem scenario_noiseSet (decim : Nat) : noiseSet (scenarioConfig decim) = natRange 10 236 ++ natRange 1812 2038 := by
  simp [noiseSet]

theorem scenario_signalSet (decim : Nat) : signalSet (scenarioConfig decim) = natRange 640 1408 := by
  simp [signalSet]

theorem scenario_mem_noiseSet {decim j : Nat} :
    j ∈ noiseSet (scenarioConfig decim) ↔ (10 ≤ j ∧ j < 236) ∨ (1812 ≤ j ∧ j < 2038) := by
  rw [scenario_noiseSet, List.mem_append, mem_natRange, mem_natRange]

theorem scenario_mem_signalSet {decim j : Nat} : j ∈ signalSet (scenarioConfig decim) ↔ 640 ≤ j ∧ j < 1408 := by
  rw [scenario_signalSet, mem_natRange]

theorem scenario_centredBin (decim j : Nat) : centredBin (scenarioConfig decim) j = (j + 1024) % 2048 := by
  simp [centredBin]

/-- The shift by half the length is its own inverse, so the index of bin `k` is `(k + 1024) mod 2048`. -/
theorem exists_index_of_bin_iff {p : Nat → Prop} {k : Nat} (hp : ∀ j, p j → j < 2048) :
    (∃ j, p j ∧ (j + 1024) % 2048 = k) ↔ k < 2048 ∧ p ((k + 1024) % 2048) := by
  constructor
  · rintro ⟨j, hj, rfl⟩
    have hlt := hp j hj
    have hback : ((j + 1024) % 2048 + 1024) % 2048 = j := by omega
    exact ⟨Nat.mod_lt _ (by decide), hback.symm ▸ hj⟩
  · rintro ⟨hk, hj⟩
    exact ⟨_, hj, by omega⟩

/-- Settles O56: the two sets as integer ranges, and their bins by the shift of half the length. -/
theorem scenarioIndexSets : Obligations.ScenarioIndexSets := by
  intro decim
  refine ⟨scenario_centre decim, scenario_bandLow decim, scenario_bandHigh decim, fun _ => scenario_mem_noiseSet, ?_,
    fun _ => scenario_mem_signalSet, ?_, fun k => ?_, fun k => ?_⟩
  · rw [scenario_noiseSet, List.length_append, natRange_length, natRange_length]
  · rw [scenario_signalSet, natRange_length]
  · simp only [scenario_mem_noiseSet, scenario_centredBin]
    rw [exists_index_of_bin_iff (by omega)]
    omega
  · simp only [scenario_mem_signalSet, scenario_centredBin]
    rw [exists_index_of_bin_iff (by omega)]
    omega

end Sys2Proof.Machine
end

section
/-! PROOF. A data position (O30): what the loop over the carriers makes, then the step as the retire of the demodulated symbol. -/

namespace Sys2Proof.Machine

/-- What a data symbol is demodulated to (rules R220 to R227): its soft bits, its taps, and the symbol itself as the reference at every mapped
bin. -/
theorem demodulate_spec {x : Vec} {s : State} {a : CarrierAcc} (hc : configLegal s.cfg = true) (hd : demodulate x s = some a) :
    a.bits = blockBits s.cfg x s.ref ∧ a.cbuf = s.cbuf ++ blockTaps s.cfg x s.ref ∧
    (∀ i k, i < s.cfg.k → carrierBin s.cfg i = some k → readRef a.ref k = x[k]?) ∧
    (∀ k, (∀ i, i < s.cfg.k → carrierBin s.cfg i ≠ some k) → readRef a.ref k = readRef s.ref k) := by
  obtain ⟨hre, him, hcbuf, hmapped, hunmapped⟩ := carrierLoop_range hc x s.ref s.cbuf s.cfg.k le_rfl a hd
  exact ⟨by rw [CarrierAcc.bits, blockBits, hre, him], hcbuf, hmapped, hunmapped⟩

/-- The position after `p`: 0 after the last one of the frame (rule R134). -/
theorem nextPosition_eq_ite {c : Config} {p : Nat} (h : p < c.l) : nextPosition c p = if p + 1 = c.l then 0 else p + 1 := by
  rw [nextPosition]
  split
  case isTrue hlast => rw [hlast, Nat.mod_self]
  case isFalse hlast => exact Nat.mod_eq_of_lt (by omega)

theorem nextPosition_eq_zero_iff {c : Config} {p : Nat} (h : p < c.l) : nextPosition c p = 0 ↔ p + 1 = c.l := by
  rw [nextPosition_eq_ite h]
  split <;> simp [*]

/-- Settles O30: the step is the retire of the demodulated symbol, and each field is read from those two. -/
theorem dataPositionEmitsItsBlock : Obligations.DataPositionEmitsItsBlock := by
  rintro s w x hc hw h0 hpos - hvalid rfl
  obtain ⟨a, hd⟩ : ∃ a, demodulate (transform s.cfg .fwd w) s = some a :=
    carrierLoop_total hc (transform_length s.cfg .fwd w) _ _ (fun _ => List.mem_range.mp) hvalid
  refine ⟨_, workerProcess_block hw h0 hd, ?_⟩
  generalize transform s.cfg .fwd w = x at hd
  obtain ⟨hbits, hcbuf, hmapped, hunmapped⟩ := demodulate_spec hc hd
  have hwrap : nextPosition (dataApply x a s).cfg (dataApply x a s).curblk = 0 ↔ s.curblk + 1 = s.cfg.l := by
    rw [dataApply_cfg, dataApply_curblk, nextPosition_eq_zero_iff hpos]
  refine ⟨?_, ?_, ?_, ?_, ?_, ?_, ?_, retire_wphase _, ?_, ?_, ?_, ?_, ?_, ?_, ?_⟩
  · rw [retire_work, dataApply_work]
  · rw [retire_trace, dataApply_trace, dataApply_cbuf, hbits, hcbuf, blockRecord]
    simp only [hwrap]
    split <;> simp
  · rw [retire_cbuf, dataApply_cbuf, hcbuf]
    simp only [hwrap]
  · rwa [retire_ref, dataApply_ref]
  · rwa [retire_ref, dataApply_ref]
  · rw [retire_pending, dataApply_pending]
  · rw [retire_curblk, dataApply_cfg, dataApply_curblk, nextPosition_eq_ite hpos]
  · rw [retire_cfg, dataApply_cfg]
  · rw [retire_slots, dataApply_slots]
  · rw [retire_running, dataApply_running]
  · rw [retire_fault, dataApply_fault]
  · rw [retire_snr, dataApply_snr]
  · rw [retire_snrCnt, dataApply_snrCnt]
  · rw [retire_hosts, dataApply_hosts]

end Sys2Proof.Machine
end

section
/-! PROOF. The differential product and the soft-bit mapper (O49 to O52). Under `REAL` a product denotes `w · conj(f)` and a soft bit is `softBit` of
the two real parts, so the rules are facts about `softBit` over the reals. -/

namespace Sys2Proof.Machine

/-! ### The differential product (rule R222) -/

section Product

variable {c : Config} (hreal : c.numerics = .real) (w f : Cplx)

include hreal

theorem diffProduct_re_val : (diffProduct c w f).re.val = w.re.val * f.re.val + w.im.val * f.im.val := by
  simp [diffProduct, hreal, Num.val]

theorem diffProduct_im_val : (diffProduct c w f).im.val = w.im.val * f.re.val - w.re.val * f.im.val := by
  simp [diffProduct, hreal, Num.val]

theorem diffProduct_val : (diffProduct c w f).val = w.val * (starRingEnd ℂ) f.val := by
  apply Complex.ext
  · simp [Cplx.val, diffProduct_re_val hreal]
  · simp only [Cplx.val, diffProduct_im_val hreal, Complex.mul_im, Complex.conj_re, Complex.conj_im]
    ring

theorem diffProduct_finite {w f : Cplx} (hw : w.finite = true) (hf : f.finite = true) : (diffProduct c w f).finite = true := by
  obtain ⟨hwr, hwi⟩ := Bool.and_eq_true_iff.mp hw
  obtain ⟨hfr, hfi⟩ := Bool.and_eq_true_iff.mp hf
  simp [diffProduct, hreal, Cplx.finite, Num.finite, hwr, hwi, hfr, hfi]

end Product

/-- Settles O49: modulus and phase are those of the product with the conjugate. -/
theorem differentialProductIsConjugateProduct : Obligations.DifferentialProductIsConjugateProduct := by
  intro c w f hreal hw hf
  refine ⟨diffProduct_finite hreal hw hf, diffProduct_val hreal w f, diffProduct_re_val hreal w f, diffProduct_im_val hreal w f,
    ?modulus, fun hw0 hf0 => ?phase⟩
  case modulus => rw [diffProduct_val hreal, norm_mul, RCLike.norm_conj]
  case phase =>
    have hconj : (starRingEnd ℂ) f.val ≠ 0 := (map_ne_zero _).mpr hf0
    rw [diffProduct_val hreal, Complex.arg_mul_coe_angle hw0 hconj, Complex.arg_conj_coe_angle, sub_eq_add_neg]

/-! ### Truncation toward zero (rule R10) -/

theorem truncInt_of_nonneg {x : ℝ} (h : 0 ≤ x) : truncInt x = ⌊x⌋ := if_pos h

theorem truncInt_of_nonpos {x : ℝ} (h : x ≤ 0) : truncInt x = ⌈x⌉ := by
  obtain rfl | hneg := h.eq_or_lt
  · simp [truncInt]
  · exact if_neg hneg.not_ge

theorem abs_truncInt (x : ℝ) : |truncInt x| = ⌊|x|⌋ := by
  rcases le_total 0 x with h | h
  · rw [truncInt_of_nonneg h, abs_of_nonneg h, abs_of_nonneg (Int.floor_nonneg.mpr h)]
  · rw [truncInt_of_nonpos h, abs_of_nonpos h, Int.floor_neg, abs_of_nonpos (Int.ceil_le.mpr (by simpa using h))]

/-! ### The mapper over the reals (rules R225, R229, R230) -/

theorem softBit_of_norm_zero {x y : ℝ} (h : |x| + |y| = 0) : softBit x y = 0 := if_pos h

theorem abs_scaledPart (x y : ℝ) : |-x / (|x| + |y|) * 127| = |x| / (|x| + |y|) * 127 := by
  rw [abs_mul, abs_div, abs_neg, abs_of_nonneg (by positivity : 0 ≤ |x| + |y|), abs_of_nonneg (by norm_num : (0 : ℝ) ≤ 127)]

/-- The clamp never acts, because a part is at most the norm. -/
theorem softBit_eq_truncInt {x y : ℝ} (h : |x| + |y| ≠ 0) : softBit x y = truncInt (-x / (|x| + |y|) * 127) := by
  have hquotient : |x| / (|x| + |y|) ≤ 1 := div_le_one_of_le₀ (by simp) (by positivity)
  have hbound : |truncInt (-x / (|x| + |y|) * 127)| ≤ 127 := by
    rw [abs_truncInt, abs_scaledPart]
    exact Int.floor_le_iff.mpr (by push_cast; linarith)
  obtain ⟨hlo, hhi⟩ := abs_le.mp hbound
  rw [softBit, if_neg h, clampInt, max_eq_right hlo, min_eq_right hhi]

theorem abs_softBit {x y : ℝ} (h : |x| + |y| ≠ 0) : |softBit x y| = ⌊|x| / (|x| + |y|) * 127⌋ := by
  rw [softBit_eq_truncInt h, abs_truncInt, abs_scaledPart]

/-- The two reals sum to exactly 127, and truncation removes less than 1 from each (rule R230). -/
theorem abs_softBit_add {x y : ℝ} (h : |x| + |y| ≠ 0) :
    |softBit x y| + |softBit y x| = 126 ∨ |softBit x y| + |softBit y x| = 127 := by
  have hsum : |x| / (|x| + |y|) * 127 + |y| / (|x| + |y|) * 127 = 127 := by field_simp
  have hupper := Int.le_floor_add (|x| / (|x| + |y|) * 127) (|y| / (|x| + |y|) * 127)
  have hlower := Int.le_floor_add_floor (|x| / (|x| + |y|) * 127) (|y| / (|x| + |y|) * 127)
  rw [hsum, Int.floor_ofNat] at hupper hlower
  rw [abs_softBit h, abs_softBit (add_comm |x| |y| ▸ h), add_comm |y| |x|]
  omega

theorem softBit_zero_left (y : ℝ) : softBit 0 y = 0 := by
  simp [softBit, truncInt, clampInt]

theorem softBit_nonpos {x : ℝ} (y : ℝ) (hx : 0 ≤ x) : softBit x y ≤ 0 := by
  by_cases h : |x| + |y| = 0
  · exact (softBit_of_norm_zero h).le
  have hneg : -x / (|x| + |y|) * 127 ≤ 0 :=
    mul_nonpos_of_nonpos_of_nonneg (div_nonpos_of_nonpos_of_nonneg (by linarith) (by positivity)) (by norm_num)
  rw [softBit_eq_truncInt h, truncInt_of_nonpos hneg]
  exact Int.ceil_le.mpr (by exact_mod_cast hneg)

theorem softBit_nonneg {x : ℝ} (y : ℝ) (hx : x ≤ 0) : 0 ≤ softBit x y := by
  by_cases h : |x| + |y| = 0
  · exact (softBit_of_norm_zero h).ge
  have hpos : 0 ≤ -x / (|x| + |y|) * 127 := mul_nonneg (div_nonneg (by linarith) (by positivity)) (by norm_num)
  rw [softBit_eq_truncInt h, truncInt_of_nonneg hpos]
  exact Int.floor_nonneg.mpr hpos

/-- A positive amplitude cancels in the quotient (rule R229). -/
theorem softBit_scale {a : ℝ} (ha : 0 < a) (x y : ℝ) : softBit (a * x) (a * y) = softBit x y := by
  have hnorm : |a * x| + |a * y| = a * (|x| + |y|) := by rw [abs_mul, abs_mul, abs_of_pos ha]; ring
  by_cases h : |x| + |y| = 0
  · rw [softBit_of_norm_zero h, softBit_of_norm_zero (by rw [hnorm, h, mul_zero])]
  · have hscaled : |a * x| + |a * y| ≠ 0 := by rw [hnorm]; exact mul_ne_zero ha.ne' h
    rw [softBit_eq_truncInt h, softBit_eq_truncInt hscaled, hnorm, ← mul_neg, mul_div_mul_left _ _ ha.ne']

/-- At an amplitude times rational parts the soft bit is that of the rationals, which can be computed. -/
theorem softBit_amplitude {a x y : ℝ} (ha : 0 < a) (p q : ℚ) (hx : x = a * p) (hy : y = a * q) : softBit x y = softBit p q := by
  rw [hx, hy, softBit_scale ha, softBit_cast]

theorem softBit_positive_axis {x : ℝ} (hx : 0 < x) : softBit x 0 = -127 := by
  rw [softBit_amplitude hx 1 0 (by simp) (by simp)]
  decide +kernel

/-! ### The soft bits of a product (rules R225, R229, R230) -/

theorem int8_zero_value : (SoftVal.int8 0#8).value = 0 := rfl

theorem softBits_real {c : Config} {r : Cplx} (hreal : c.numerics = .real) (hr : r.finite = true) :
    (softBits c r).1.value = softBit r.re.val r.im.val ∧ (softBits c r).2.value = softBit r.im.val r.re.val := by
  simp [softBits, hreal, hr]

/-- The degenerate case of rule R225 in each arithmetic: a part that is not finite, or a realised norm that is zero or not finite. -/
theorem softBits_degenerate {c : Config} {r : Cplx} (h : r.finite = false ∨
    (c.numerics = .binary32 ∧
      (f32Zero (Config.f32NormOne r.bits) = true ∨ f32Finite (Config.f32NormOne r.bits) = false)) ∨
    (∃ f, c.numerics = .format f ∧
      (Config.fmtZero f (Config.fmtNormOne f r) = true ∨ Config.fmtFinite f (Config.fmtNormOne f r) = false))) :
    softBits c r = (.int8 0#8, .int8 0#8) := by
  rcases h with hr | ⟨hn, hm⟩ | ⟨f, hn, hm⟩
  · cases hn : c.numerics <;> simp [softBits, hn, f32Degenerate, fmtDegenerate, hr]
  · have hdeg : f32Degenerate r = true := by rcases hm with hm | hm <;> simp [f32Degenerate, hm]
    simp [softBits, hn, hdeg]
  · have hdeg : fmtDegenerate f r = true := by rcases hm with hm | hm <;> simp [fmtDegenerate, hm]
    simp [softBits, hn, hdeg]

/-- A soft bit lies in `[−127, 127]` (rules R225, R230). -/
def SoftVal.InRange (b : SoftVal) : Prop := -127 ≤ b.value ∧ b.value ≤ 127

theorem int8_zero_inRange : (SoftVal.int8 0#8).InRange := by
  rw [SoftVal.InRange, int8_zero_value]
  omega

theorem exactSoft_inRange (x y : Num) : (exactSoft x y).InRange := by
  rw [SoftVal.InRange, exactSoft_value]
  exact softBit_range _ _

theorem int8Of_clamp_inRange (v : Int) : (int8Of (clampInt (-127) 127 v)).InRange := by
  have hclamp : -127 ≤ clampInt (-127) 127 v ∧ clampInt (-127) 127 v ≤ 127 := by rw [clampInt]; omega
  rwa [SoftVal.InRange, int8Of_value (by omega)]

theorem softBits_inRange (c : Config) (r : Cplx) : (softBits c r).1.InRange ∧ (softBits c r).2.InRange := by
  unfold softBits
  split
  case h_1 =>
    split
    · exact ⟨exactSoft_inRange _ _, exactSoft_inRange _ _⟩
    · exact ⟨int8_zero_inRange, int8_zero_inRange⟩
  case h_2 | h_3 =>
    split
    · exact ⟨int8_zero_inRange, int8_zero_inRange⟩
    · exact ⟨int8Of_clamp_inRange _, int8Of_clamp_inRange _⟩

/-- Settles O50: the mapper over the reals, the degenerate case, and the range by the arithmetic. -/
theorem softBitsAreTheMapper : Obligations.SoftBitsAreTheMapper := by
  refine fun c r => ⟨fun hreal hr => ?mapper, fun h => ?degenerate, ?range⟩
  case mapper =>
    obtain ⟨hre, him⟩ := softBits_real hreal hr
    exact ⟨hre, by rw [him, add_comm |r.re.val|]; rfl⟩
  case degenerate => rw [softBits_degenerate h]; exact ⟨int8_zero_value, int8_zero_value⟩
  case range =>
    obtain ⟨⟨hrelo, hrehi⟩, himlo, himhi⟩ := softBits_inRange c r
    exact ⟨hrelo, hrehi, himlo, himhi⟩

theorem Cplx.parts_ne_zero {r : Cplx} (h : r.val ≠ 0) : |r.re.val| + |r.im.val| ≠ 0 := by
  contrapose! h
  obtain ⟨hre, him⟩ := (add_eq_zero_iff_of_nonneg (abs_nonneg _) (abs_nonneg _)).mp h
  exact Complex.ext (abs_eq_zero.mp hre) (abs_eq_zero.mp him)

/-- The soft bits at an amplitude times rational parts, as those rationals give them. -/
theorem softBit_pair_amplitude {u v a : ℝ} (ha : 0 < a) (p q : ℚ) {m n : Int} (hbits : softBit p q = m ∧ softBit q p = n)
    (hu : u = a * p) (hv : v = a * q) : softBit u v = m ∧ softBit v u = n :=
  ⟨(softBit_amplitude ha p q hu hv).trans hbits.1, (softBit_amplitude ha q p hv hu).trans hbits.2⟩

/-- The bits at the eight multiples of a quarter of π (rule R230). -/
theorem softBit_eight_angles (u v : ℝ) {a : ℝ} (ha : 0 < a) :
    (u = a → v = 0 → softBit u v = -127 ∧ softBit v u = 0) ∧ (u = a → v = a → softBit u v = -63 ∧ softBit v u = -63) ∧
    (u = 0 → v = a → softBit u v = 0 ∧ softBit v u = -127) ∧ (u = -a → v = a → softBit u v = 63 ∧ softBit v u = -63) ∧
    (u = -a → v = 0 → softBit u v = 127 ∧ softBit v u = 0) ∧ (u = -a → v = -a → softBit u v = 63 ∧ softBit v u = 63) ∧
    (u = 0 → v = -a → softBit u v = 0 ∧ softBit v u = 127) ∧ (u = a → v = -a → softBit u v = -63 ∧ softBit v u = 63) := by
  refine ⟨?_, ?_, ?_, ?_, ?_, ?_, ?_, ?_⟩ <;> intro hu hv
  · exact softBit_pair_amplitude ha 1 0 (by decide +kernel) (by simpa) (by simpa)
  · exact softBit_pair_amplitude ha 1 1 (by decide +kernel) (by simpa) (by simpa)
  · exact softBit_pair_amplitude ha 0 1 (by decide +kernel) (by simpa) (by simpa)
  · exact softBit_pair_amplitude ha (-1) 1 (by decide +kernel) (by simpa) (by simpa)
  · exact softBit_pair_amplitude ha (-1) 0 (by decide +kernel) (by simpa) (by simpa)
  · exact softBit_pair_amplitude ha (-1) (-1) (by decide +kernel) (by simpa) (by simpa)
  · exact softBit_pair_amplitude ha 0 (-1) (by decide +kernel) (by simpa) (by simpa)
  · exact softBit_pair_amplitude ha 1 (-1) (by decide +kernel) (by simpa) (by simpa)

/-- Settles O51: the facts about `softBit` at the two parts of `r`. -/
theorem softBitRangeAndQuadrants : Obligations.SoftBitRangeAndQuadrants := by
  rintro c r x y hreal hr hr0 rfl rfl
  obtain ⟨hre, him⟩ := softBits_real hreal hr
  rw [hre, him]
  generalize hu : r.re.val = u
  generalize hv : r.im.val = v
  have hnorm : |u| + |v| ≠ 0 := hu ▸ hv ▸ Cplx.parts_ne_zero hr0
  obtain ⟨hulo, huhi⟩ := softBit_range u v
  obtain ⟨hvlo, hvhi⟩ := softBit_range v u
  refine ⟨⟨hulo, huhi, hvlo, hvhi⟩, abs_softBit_add hnorm,
    fun h => softBit_nonpos v h.le, fun h => softBit_nonneg v h.le, fun h => h ▸ softBit_zero_left v,
    fun h => softBit_nonpos u h.le, fun h => softBit_nonneg u h.le, fun h => h ▸ softBit_zero_left u,
    fun a ha => softBit_eight_angles u v ha⟩

section Product

variable {c : Config} (hreal : c.numerics = .real) {w f : Cplx} (hw : w.finite = true) (hf : f.finite = true)

include hreal hw hf

/-- The soft bits of a product depend on the number it denotes alone. -/
theorem softBits_diffProduct {z : ℂ} (hz : w.val * (starRingEnd ℂ) f.val = z) :
    (softBits c (diffProduct c w f)).1.value = softBit z.re z.im ∧
    (softBits c (diffProduct c w f)).2.value = softBit z.im z.re := by
  rw [← hz, ← diffProduct_val hreal]
  exact softBits_real hreal (diffProduct_finite hreal hw hf)

theorem softBits_diffProduct_zero (hz : w.val * (starRingEnd ℂ) f.val = 0) :
    (softBits c (diffProduct c w f)).1.value = 0 ∧ (softBits c (diffProduct c w f)).2.value = 0 := by
  obtain ⟨hre, him⟩ := softBits_diffProduct hreal hw hf hz
  exact ⟨hre.trans (softBit_zero_left _), him.trans (softBit_zero_left _)⟩

/-- A product with a positive real part and no imaginary part gives `(−127, 0)`. -/
theorem softBits_diffProduct_pos {m : ℝ} (hm : 0 < m) (hz : w.val * (starRingEnd ℂ) f.val = m) :
    (softBits c (diffProduct c w f)).1.value = -127 ∧ (softBits c (diffProduct c w f)).2.value = 0 := by
  obtain ⟨hre, him⟩ := softBits_diffProduct hreal hw hf hz
  exact ⟨hre.trans (softBit_positive_axis hm), him.trans (softBit_zero_left _)⟩

end Product

/-- Settles O52: the scales multiply the product by `a · b`, the same symbol twice gives its squared modulus, and a zero symbol a zero product. -/
theorem softBitsIgnoreScale : Obligations.SoftBitsIgnoreScale := by
  refine fun c w f hreal hw hf => ⟨fun u g a b hu hg ha hb hua hgb => ?scale, fun hrepeat => ?same, fun hzero => ?zero⟩
  case scale =>
    have hz : u.val * (starRingEnd ℂ) g.val = ((a * b : ℝ) : ℂ) * (w.val * (starRingEnd ℂ) f.val) := by
      rw [hua, hgb, map_mul, Complex.conj_ofReal]
      push_cast
      ring
    obtain ⟨hre, him⟩ := softBits_diffProduct hreal hw hf rfl
    obtain ⟨hre', him'⟩ := softBits_diffProduct hreal hu hg hz
    rw [Complex.re_ofReal_mul, Complex.im_ofReal_mul, softBit_scale (mul_pos ha hb)] at hre' him'
    exact ⟨hre'.trans hre.symm, him'.trans him.symm⟩
  case same =>
    by_cases h0 : w.val = 0
    · rw [if_pos h0]
      exact softBits_diffProduct_zero hreal hw hf (by rw [h0, zero_mul])
    · rw [if_neg h0]
      exact softBits_diffProduct_pos hreal hw hf (Complex.normSq_pos.mpr h0) (by rw [hrepeat, Complex.mul_conj])
  case zero =>
    refine softBits_diffProduct_zero hreal hw hf ?_
    rcases hzero with h0 | h0
    · rw [h0, zero_mul]
    · rw [h0, map_zero, mul_zero]

end Sys2Proof.Machine
end

section
/-! PROOF. Faults of the commands (O21, O22, O23): what every command leaves to the worker, what a command that newly sets a fault bit did, and the
order of the checks. -/

namespace Sys2Proof.Machine

/-- Settles O21, over every shape a command can have. -/
theorem commandsLeaveWorkerState : Obligations.CommandsLeaveWorkerState := by
  intro i s t h
  rcases exec_cases h with ⟨f, -, rfl | rfl | rfl⟩ | ⟨b, v, -, -, -, rfl⟩ | rfl | ⟨r, rfl⟩
  case inr.inl => simp [markOverrun_eq]
  all_goals simp

theorem faultSet_congr {s t : State} (h : t.fault = s.fault) (f : FaultBit) : faultSet t f = faultSet s f := by
  rw [faultSet, faultSet, h]

/-- A bit that a raised fault newly sets is that fault's own (rule R32). -/
theorem eq_of_raiseFault_sets {f g : FaultBit} {s t : State} (ht : t.fault = s.fault ||| faultMask g)
    (h0 : faultSet s f = false) (h1 : faultSet t f = true) : g = f := by
  rw [faultSet_congr (s := raiseFault g s) ht, faultSet_raiseFault, h0, Bool.false_or] at h1
  exact of_decide_eq_true h1

theorem markOverrun_of_le {s : State} (h : s.cfg.l ≤ s.pending.toNat) : markOverrun s = raiseFault .overrun s := if_pos h

theorem markOverrun_of_lt {s : State} (h : s.pending.toNat < s.cfg.l) : markOverrun s = s := if_neg (Nat.not_le.mpr h)

/-- What a command did that newly set the fault bit `f` (rule R250): an overrun ingress, or nothing but the bit and the default response. -/
theorem exec_newFault_cases {i : Instr} {s t : State} {f : FaultBit} (h : exec i s = .next t) (h0 : faultSet s f = false)
    (h1 : faultSet t f = true) :
    (f = .overrun ∧ ∃ b v, t = commitIngest b v (raiseFault f s)) ∨ t = raiseFault f s ∨
      t = respond (.word (.bits 0#32)) (raiseFault f s) ∨ t = respond (.samples (zeroSamples s.cfg)) (raiseFault f s) := by
  have hchanged : t.fault ≠ s.fault := fun he => by
    rw [faultSet_congr he, h0] at h1
    exact Bool.false_ne_true h1
  rcases exec_cases h with ⟨g, -, hg⟩ | ⟨b, v, -, -, -, rfl⟩ | rfl | ⟨r, rfl⟩
  · have ht : t.fault = s.fault ||| faultMask g := by rcases hg with rfl | rfl | rfl <;> rfl
    obtain rfl := eq_of_raiseFault_sets ht h0 h1
    exact .inr hg
  · by_cases hp : s.cfg.l ≤ s.pending.toNat
    · rw [markOverrun_of_le hp] at h1 ⊢
      obtain rfl := eq_of_raiseFault_sets rfl h0 h1
      exact .inl ⟨rfl, b, v, rfl⟩
    · rw [markOverrun_of_lt (Nat.lt_of_not_le hp)] at hchanged
      exact absurd rfl hchanged
  · exact absurd rfl hchanged
  · exact absurd rfl hchanged

/-- A command that newly sets a bit adds that bit alone to the fault word (rule R258). -/
theorem exec_newFault_fault {i : Instr} {s t : State} {f : FaultBit} (h : exec i s = .next t) (h0 : faultSet s f = false)
    (h1 : faultSet t f = true) : t.fault = s.fault ||| faultMask f := by
  rcases exec_newFault_cases h h0 h1 with ⟨-, b, v, rfl⟩ | rfl | rfl | rfl <;> rfl

/-- Settles O22: a new bit other than OVERRUN comes with nothing but the default response. -/
theorem abortingFaultsArePrecise : Obligations.AbortingFaultsArePrecise := by
  intro i s t f hf h h0 h1
  rcases exec_newFault_cases h h0 h1 with ⟨rfl, -⟩ | rfl | rfl | rfl
  · exact absurd rfl hf
  · exact ⟨rfl, rfl, rfl, rfl, fun _ hr => hr, .inl rfl⟩
  · exact ⟨rfl, rfl, rfl, rfl, by simp, .inr (.inl rfl)⟩
  · exact ⟨rfl, rfl, rfl, rfl, by simp, .inr (.inr rfl)⟩

theorem readCsr_unassigned {n : Nat} (h : csrOf n = none) (s : State) :
    readCsr n s = respond (.word (.bits 0#32)) (raiseFault .illegalCmd s) := by
  rw [readCsr, h]

/-- The fault an ingress past its own checks raises: PEND_SAT, else OVERRUN, else none (rules R100, R258). -/
theorem ingestTail_fault (b : Nat) (v : Vec) (s : State) :
    (ingestTail b v s).fault = s.fault |||
      (if s.pending = 0xFFFFFFFF#32 then 0x08#6 else if s.cfg.l ≤ s.pending.toNat then 0x10#6 else 0#6) := by
  by_cases hsat : s.pending = 0xFFFFFFFF#32
  · rw [if_pos hsat, ingestTail_saturated b v hsat]
    rfl
  · rw [if_neg hsat, ingestTail_commits b v hsat, commitIngest_fault]
    split
    case isTrue hp =>
      rw [markOverrun_of_le hp]
      rfl
    case isFalse hp => rw [markOverrun_of_lt (Nat.lt_of_not_le hp), BitVec.or_zero]

/-- The fault a data ingress raises, by its checks in order: BAD_LENGTH, BAD_INDEX, then those of the tail (rule R258). -/
theorem dataIngest_fault (idx : Nat) (s : State) :
    (dataIngest idx s).fault = s.fault |||
      (if s.port.payload.length ≠ 8 * s.cfg.tS then 0x02#6
        else if s.cfg.l ≤ idx then 0x04#6
        else if s.pending = 0xFFFFFFFF#32 then 0x08#6
        else if s.cfg.l ≤ s.pending.toNat then 0x10#6 else 0#6) := by
  by_cases hlen : s.port.payload.length = 8 * s.cfg.tS
  · rw [if_neg (not_not.mpr hlen)]
    by_cases hidx : s.cfg.l ≤ idx
    · rw [if_pos hidx, dataIngest_badIndex hlen hidx]
      rfl
    · rw [if_neg hidx, dataIngest_accepted hlen (Nat.lt_of_not_le hidx), ingestTail_fault]
  · rw [if_pos hlen, dataIngest_badLength hlen]
    rfl

/-- Settles O23: two newly set bits are the one the command added; the order is that of the checks of each command. -/
theorem oneFaultInPriorityOrder : Obligations.OneFaultInPriorityOrder := by
  refine ⟨fun i s t f g h hf0 hg0 hf1 hg1 => ?single, fun n s t hn h => ?unassigned, fun idx i s t hi h => ?data⟩
  case single => exact eq_of_raiseFault_sets (exec_newFault_fault h hf0 hf1) hg0 hg1
  case unassigned =>
    obtain rfl : readCsr n s = t := Host.Outcome.next.inj h
    rw [readCsr_unassigned hn]
    rfl
  case data =>
    obtain rfl : dataIngest idx s = t := by
      rcases hi with rfl | rfl <;> exact Host.Outcome.next.inj h
    exact dataIngest_fault idx s

end Sys2Proof.Machine
end

section
/-! PROOF. What reset alone undoes (O24): a worker that has exited or faulted, a set fault bit, and a stop request. -/

namespace Sys2Proof.Machine

/-- What no step undoes (rules R30, R32, R139, R261): the terminal phases, the set fault bits, and `running = 0`. -/
def KeptUntilReset (s t : State) : Prop :=
  (s.wphase = .exited → t.wphase = .exited) ∧ (s.wphase = .faulted → t.wphase = .faulted) ∧
    (∀ f : FaultBit, faultSet s f = true → faultSet t f = true) ∧ (s.running = false → t.running = false)

theorem KeptUntilReset.of_wphase_eq {s t : State} (hw : t.wphase = s.wphase)
    (hf : ∀ f, faultSet s f = true → faultSet t f = true) (hr : s.running = false → t.running = false) : KeptUntilReset s t :=
  ⟨hw.trans, hw.trans, hf, hr⟩

/-- A worker step starts in `WAIT` or `RUN`, so it leaves no terminal phase (rule R139). -/
theorem KeptUntilReset.of_active {s t : State} (hw : s.wphase = .wait ∨ s.wphase = .run)
    (hf : ∀ f, faultSet s f = true → faultSet t f = true) (hr : t.running = s.running) : KeptUntilReset s t :=
  ⟨fun h => by simp [h] at hw, fun h => by simp [h] at hw, hf, hr.trans⟩

theorem faultSet_of_fault_eq {s t : State} (h : t.fault = s.fault) (f : FaultBit) : faultSet s f = true → faultSet t f = true :=
  (faultSet_congr h f).trans

/-- A raised fault keeps every set bit (rule R32). -/
theorem raiseFault_keeps_faultSet (g : FaultBit) {s : State} (f : FaultBit) (h : faultSet s f = true) :
    faultSet (raiseFault g s) f = true := by
  rw [faultSet_raiseFault, h, Bool.true_or]

theorem markOverrun_keeps_faultSet {s : State} (f : FaultBit) (h : faultSet s f = true) : faultSet (markOverrun s) f = true := by
  rcases Nat.lt_or_ge s.pending.toNat s.cfg.l with hp | hp
  · rwa [markOverrun_of_lt hp]
  · rw [markOverrun_of_le hp]
    exact raiseFault_keeps_faultSet _ f h

@[simp] theorem markOverrun_running (s : State) : (markOverrun s).running = s.running := by rw [markOverrun_eq]

theorem exec_wphase {i : Instr} {s t : State} (h : exec i s = .next t) : t.wphase = s.wphase := by
  obtain ⟨-, -, -, -, hw, -⟩ := commandsLeaveWorkerState i s t h
  exact hw

/-- No command undoes any of these: its faults only add bits, and STOP is the only command that writes `running` (rules R32, R105). -/
theorem exec_keptUntilReset {i : Instr} {s t : State} (h : exec i s = .next t) : KeptUntilReset s t := by
  have hw := exec_wphase h
  rcases exec_cases h with ⟨f, -, rfl | rfl | rfl⟩ | ⟨b, v, -, -, -, rfl⟩ | rfl | ⟨r, rfl⟩
  · exact .of_wphase_eq hw (raiseFault_keeps_faultSet f) id
  · exact .of_wphase_eq hw (raiseFault_keeps_faultSet f) id
  · exact .of_wphase_eq hw (raiseFault_keeps_faultSet f) id
  · exact .of_wphase_eq hw (fun f hf => markOverrun_keeps_faultSet f hf) (markOverrun_running s).trans
  · exact .of_wphase_eq hw (fun _ => id) (fun _ => rfl)
  · exact .of_wphase_eq hw (fun _ => id) id

theorem workerDequeue_keeps_faultSet {s : State} (f : FaultBit) (h : faultSet s f = true) :
    faultSet (workerDequeue s) f = true := by
  unfold workerDequeue
  split
  · exact h
  · exact raiseFault_keeps_faultSet .uninitRead f h

theorem WorkerFrame.running_eq {s t : State} (h : WorkerFrame s t) : t.running = s.running := by
  obtain ⟨-, -, hr, -⟩ := h
  exact hr

/-- Settles O24, over every shape a step can have. -/
theorem onlyResetUndoesThese : Obligations.OnlyResetUndoesThese := by
  refine step_relation (P := KeptUntilReset) ?wait ?choice ?request ?command ?illegal ?release ?dequeue ?leave ?reference
    ?block ?unwritten
  case wait | release => exact fun s => .of_wphase_eq rfl (fun _ => id) id
  case choice => exact fun _ _ _ _ h => h
  case request => exact fun _ _ _ _ _ h => h
  case command => exact fun _ _ _ => exec_keptUntilReset
  case illegal => exact fun s => .of_wphase_eq rfl (raiseFault_keeps_faultSet _) id
  case dequeue =>
    exact fun s hw _ => .of_active (.inl hw) workerDequeue_keeps_faultSet (workerDequeue_workerFrame s).running_eq
  case leave => exact fun s hw _ => .of_active (.inl hw) (fun _ => id) rfl
  case reference =>
    exact fun s w hw _ _ => .of_active (.inr hw) (faultSet_of_fault_eq (by rw [retire_fault, prsApply_fault]))
      (retire_prsApply_workerFrame _ s).running_eq
  case block =>
    exact fun s w a hw _ _ _ => .of_active (.inr hw) (faultSet_of_fault_eq (by rw [retire_fault, dataApply_fault]))
      (retire_dataApply_workerFrame _ a s).running_eq
  case unwritten => exact fun s hw => .of_active (.inr hw) (raiseFault_keeps_faultSet .uninitRead) rfl

end Sys2Proof.Machine
end

section
/-! PROOF. The teardown (O11, O41): the join polls until the worker has ended, the release waits for that, and in a fair execution the worker ends. -/

namespace Sys2Proof.Machine

/-! ### Join and release (rule R284) -/

theorem joined_iff {s : State} : joined s = true ↔ s.wphase = .exited ∨ s.wphase = .faulted := by
  cases hw : s.wphase <;> simp [joined, hw]

theorem releaseReady_iff {s : State} :
    releaseReady s = true ↔ s.running = false ∧ (s.wphase = .exited ∨ s.wphase = .faulted) := by
  rw [releaseReady, Bool.and_eq_true, Bool.not_eq_true', joined_iff]

/-- A host whose first request is the join polls (rule R284). -/
theorem runMove_host_of_pollJoin {t : State} {h : Nat} {rest : List HostReq} (hq : t.hosts.getD h [] = .pollJoin :: rest) :
    runMove (.host h) t = runPoll h rest t := by
  simp only [runMove, runHost, hq]

theorem hostReady_of_enabled {s : State} {h : Nat} (hm : .host h ∈ enabledMoves s) :
    hostReady s (s.hosts.getD h []) = true := by
  rw [enabledMoves, List.mem_append, mem_hostMoves, mem_workerMoves] at hm
  rcases hm with ⟨k, -, hready, ⟨⟩⟩ | hworker
  · exact hready
  · simp at hworker

theorem exec_ne_refused (i : Instr) (s : State) (r : Refusal) : exec i s ≠ .refused r := by
  obtain ⟨t, ht⟩ := exec_next i s
  simp [ht]

/-- A host's move is refused for a transaction without a command word at most (log entry 13). -/
theorem runHost_ne_refused_released (h : Nat) (s : State) : runHost h s ≠ .refused .released := by
  unfold runHost
  split
  case h_1 => simp
  case h_2 bytes rest _ =>
    unfold runCommand
    split
    case h_1 => exact exec_ne_refused _ _ _
    all_goals simp
  case h_3 => exact exec_ne_refused _ _ _
  case h_4 => simp

theorem workerProcess_ne_refused (s : State) (r : Refusal) : workerProcess s ≠ .refused r := by
  by_cases hw : s.work = none
  · simp [workerProcess, hw]
  · obtain ⟨t, ht⟩ := workerProcess_next hw
    simp [ht]

/-- No move is refused for a release: only the step itself looks at `released` (rule R284). -/
theorem runMove_ne_refused_released (m : Move) (s : State) : runMove m s ≠ .refused .released := by
  cases m with
  | host h => exact runHost_ne_refused_released h s
  | process => exact workerProcess_ne_refused s _
  | dequeue | exit => simp [runMove]

theorem step_refused_released_iff {s : State} : step s = .refused .released ↔ s.released = true := by
  constructor
  · intro h
    by_contra hr
    rw [Bool.not_eq_true] at hr
    rcases pick_cases s with ⟨-, hp⟩ | ⟨m, ns, n, -, hp⟩
    · simp [step, stepState, hr, hp] at h
    · exact runMove_ne_refused_released m _ ((step_of_pick hr hp).symm.trans h)
  · intro hr
    simp [step, stepState, hr]

theorem exec_released {i : Instr} {s t : State} (h : exec i s = .next t) : t.released = s.released := by
  obtain ⟨-, -, -, -, -, -, -, -, -, -, hr, -⟩ := commandsLeaveWorkerState i s t h
  exact hr

/-- The only move that sets `released` is a host's release (rule R284). -/
theorem runMove_releases {m : Move} {s t : State} (h : runMove m s = .next t) (hs : s.released = false)
    (ht : t.released = true) : ∃ k rest, m = .host k ∧ s.hosts.getD k [] = .release :: rest := by
  have hkeep : t.released ≠ s.released := by simp [hs, ht]
  have worker : (m = .dequeue ∨ m = .process ∨ m = .exit) → False := fun hm => by
    obtain ⟨-, -, -, -, -, hr, -⟩ := workerStepsLeaveHostState m s t hm h
    exact hkeep hr
  cases m with
  | host k =>
    rcases runHost_cases h with rfl | ⟨i, rest, p, he⟩ | ⟨rest, rfl⟩ | ⟨rest, hq, -⟩
    · exact absurd rfl hkeep
    · exact absurd (exec_released he) hkeep
    · exact absurd rfl hkeep
    · exact ⟨k, rest, rfl, hq⟩
  | dequeue | process | exit => exact (worker (by simp)).elim

/-- Settles O11: the poll's whole effect, the refusal after release, and the release as a move that waits for stop and join. -/
theorem releaseEndsTheInstance : Obligations.ReleaseEndsTheInstance := by
  refine ⟨fun s t h rest hr hp hq => ?poll, fun s => step_refused_released_iff, fun s t hstep ht => ?release⟩
  case poll =>
    rw [step_of_pick hr hp, runMove_host_of_pollJoin hq, runPoll_eq]
    simp only [joined_iff]
  case release =>
    obtain ⟨hr, ⟨-, rfl⟩ | ⟨m, ns, n, hm, h⟩⟩ := step_cases hstep
    · simp [hr] at ht
    · obtain ⟨k, rest, rfl, hq⟩ := runMove_releases h hr ht
      have hready := hostReady_of_enabled hm
      rw [show s.hosts.getD k [] = _ from hq] at hready
      exact releaseReady_iff.mp hready

/-! ### The worker ends (rules R138, R285) -/

/-- The process step leaves phase `RUN`: it retires the symbol or stops the worker (rules R134, R255). -/
theorem workerProcess_leaves_run {s t : State} (h : workerProcess s = .next t) : t.wphase ≠ .run := by
  obtain ⟨w, -, ⟨-, rfl⟩ | ⟨-, a, -, rfl⟩ | ⟨-, -, rfl⟩⟩ := workerProcess_cases h
  all_goals simp

namespace Execution

variable {e : Execution}

/-- The move taken at step `n` leads to the next state. -/
theorem Valid.runMove_taken (hv : e.Valid) {n : Nat} {m : Move} (h : e.taken n = some m) :
    runMove m (pick (e.before n)).2 = .next (e.st (n + 1)) := by
  obtain ⟨hr, -⟩ := step_cases (hv n)
  have hp : pick (e.before n) = (some m, (pick (e.before n)).2) := Prod.ext h rfl
  rw [← step_of_pick hr hp]
  exact hv n

/-- A stop request stays (rules R30, R280); what the outside supplies does not touch it. -/
theorem Valid.running_false (hv : e.Valid) {n : Nat} (h : (e.st n).running = false) :
    ∀ m, n ≤ m → (e.st m).running = false := by
  intro m hm
  induction m, hm using Nat.le_induction with
  | base => exact h
  | succ m _ ih =>
    obtain ⟨-, -, -, hrun⟩ := onlyResetUndoesThese _ _ (hv m)
    exact hrun ih

theorem Valid.exited_of_taken_exit (hv : e.Valid) {n : Nat} (h : e.taken n = some .exit) : (e.st (n + 1)).wphase = .exited := by
  rw [← Host.Outcome.next.inj (hv.runMove_taken h)]
  rfl

/-- Weak fairness of the process step: the worker does not stay in `RUN` for ever (rule R138). -/
theorem Fair.leaves_run (hf : e.Fair) (hv : e.Valid) (n : Nat) : ∃ m, n ≤ m ∧ (e.st m).wphase ≠ .run := by
  by_contra hrun
  push Not at hrun
  obtain ⟨m, hm, htaken⟩ := hf.process n fun m hm => decide_eq_true (hrun m hm)
  exact workerProcess_leaves_run (hv.runMove_taken htaken) (hrun (m + 1) (by omega))

/-- Strong fairness of the exit: a stopped worker that is in `WAIT` again and again exits (rule R138). -/
theorem Fair.exits (hf : e.Fair) (hv : e.Valid) {n : Nat} (hr : (e.st n).running = false)
    (hwait : ∀ k, n ≤ k → ∃ m, k ≤ m ∧ (e.st m).wphase = .wait) : ∃ m, n ≤ m ∧ (e.st m).wphase = .exited := by
  obtain ⟨m, hm, htaken⟩ := hf.exit (fun k => by
    obtain ⟨m, hm, hw⟩ := hwait (max k n) (le_max_right k n)
    exact ⟨m, by omega, decide_eq_true ⟨hw, hv.running_false hr m (by omega)⟩⟩) n
  exact ⟨m + 1, by omega, hv.exited_of_taken_exit htaken⟩

end Execution

/-- Settles O41: a worker that never ended would be in `WAIT` again and again, because it does not stay in `RUN`; but then it exits. -/
theorem teardownEnds : Obligations.TeardownEnds := by
  intro e n hv hf hr
  by_contra hend
  push Not at hend
  have hwait : ∀ k, n ≤ k → ∃ m, k ≤ m ∧ (e.st m).wphase = .wait := fun k hk => by
    obtain ⟨m, hm, hrun⟩ := hf.leaves_run hv k
    obtain ⟨hexited, hfaulted⟩ := hend m (hk.trans hm)
    cases hw : (e.st m).wphase with
    | wait => exact ⟨m, hm, hw⟩
    | run => exact absurd hw hrun
    | exited => exact absurd hw hexited
    | faulted => exact absurd hw hfaulted
  obtain ⟨m, hm, hexited⟩ := hf.exits hv hr hwait
  exact (hend m hm).1 hexited

end Sys2Proof.Machine
end

section
/-! PROOF. The ingress contract makes the observation determinate (O42, O43): each ingress writes the slot its number names, each dequeue reads the
ingress of its own number, and every step between keeps the coherence. -/

namespace Sys2Proof.Machine

theorem inFlightCount_of_run {s : State} (h : s.wphase = .run) : inFlightCount s = 1 := if_pos h

theorem inFlightCount_of_wait {s : State} (h : s.wphase = .wait) : inFlightCount s = 0 := if_neg (by simp [h])

theorem inFlightCount_congr {s t : State} (h : t.wphase = s.wphase) : inFlightCount t = inFlightCount s := by
  rw [inFlightCount, inFlightCount, h]

/-- The coherence is about the configuration, the slots, the counters and the worker alone. -/
theorem Coherent.congr {s t : State} {h : List Vec} {d : Nat} (hs : Coherent s h d) (hcfg : t.cfg = s.cfg)
    (hslots : t.slots = s.slots) (hpending : t.pending = s.pending) (hcurblk : t.curblk = s.curblk) (hwork : t.work = s.work)
    (hwphase : t.wphase = s.wphase) : Coherent t h d := by
  obtain ⟨hin, hcounts, hpos, hcap, hread, hcopy, halive⟩ := hs
  rw [← inFlightCount_congr hwphase] at hin hcounts hpos hread
  exact ⟨hin, by rwa [hpending], by rwa [hcurblk, hcfg], by rwa [hpending, hcfg],
    fun j h1 h2 => by rw [readSlot_congr hslots, hcfg]; exact hread j h1 h2, by rwa [hwphase, hwork], by rwa [hwphase]⟩

/-! ### The ingress (rules R100, R108) -/

/-- Under the contract the `n`-th ingress passes its checks and is the ingress tail at slot `n mod L` (rules R101, R102, R108). -/
theorem exec_contractInstr {s : State} {n : Nat} (hl : 0 < s.cfg.l)
    (hlen : s.port.payload.length = 8 * nPayload s.cfg (contractInstr s.cfg n)) :
    exec (contractInstr s.cfg n) s = .next (ingestTail (n % s.cfg.l) (usefulPart s.cfg
      (if n % s.cfg.l = 0 ∧ s.cfg.prsMode = .useful then 0 else s.cfg.tG) (samplesOf s.port.payload)) s) := by
  by_cases h0 : n % s.cfg.l = 0
  · rw [contractInstr, if_pos h0] at hlen ⊢
    rw [exec, execIngestPrs, ingestPrs_accepted hlen, prsOffset_eq]
    simp only [h0, true_and]
  · have hoff : ¬ (n % s.cfg.l = 0 ∧ s.cfg.prsMode = .useful) := fun h => h0 h.1
    have hdata := dataIngest_accepted (s := s) (idx := n % s.cfg.l)
    rw [contractInstr, if_neg h0] at hlen ⊢
    rw [if_neg hoff]
    split at hlen
    case isTrue hfic => rw [if_pos hfic, exec, execIngestFic, hdata hlen (Nat.mod_lt _ hl)]
    case isFalse hfic => rw [if_neg hfic, exec, execIngestMsc, hdata hlen (Nat.mod_lt _ hl)]

/-- With room in the ring an ingress neither saturates nor overruns: it is the slot write and the count (rules R100, R254, R256). -/
theorem ingestTail_of_room {b : Nat} {v : Vec} {s : State} (hl : s.cfg.l ≤ 65536) (hroom : s.pending.toNat < s.cfg.l) :
    ingestTail b v s = commitIngest b v s := by
  have hsat : s.pending ≠ pendMax := by
    rw [pendMax]
    bv_omega
  rw [ingestTail_commits b v hsat, markOverrun_of_lt hroom]

theorem readSlot_commitIngest_self {b : Nat} (v : Vec) {s : State} (h : b < s.slots.length) :
    readSlot (commitIngest b v s) b = some v :=
  readSlot_writeSlot_self v h

theorem readSlot_commitIngest_other {a b : Nat} (v : Vec) (s : State) (h : b ≠ a) :
    readSlot (commitIngest b v s) a = readSlot s a :=
  readSlot_writeSlot_other v _ h

/-- Two ingresses fewer than `L` apart are in different slots. -/
theorem mod_ne_mod_of_lt {j n l : Nat} (hj : j < n) (hn : n < j + l) : n % l ≠ j % l := by
  intro h
  have hdvd : l ∣ n - j := (Nat.modEq_iff_dvd' hj.le).mp h.symm
  have hle : l ≤ n - j := Nat.le_of_dvd (by omega) hdvd
  omega

/-- An ingress into the slot of its number, with room in the ring, keeps the coherence: it overwrites no slot that is still to be read. -/
theorem Coherent.commitIngest {s : State} {h : List Vec} {d : Nat} (hs : Coherent s h d) (hi : s.Inv)
    (hroom : s.pending.toNat < s.cfg.l) (v : Vec) : Coherent (commitIngest (h.length % s.cfg.l) v s) (h ++ [v]) d := by
  obtain ⟨hin, hcounts, hpos, hcap, hread, hcopy, halive⟩ := hs
  obtain ⟨-, -, -, ⟨hl0, hl⟩, -⟩ := configLegal_ranges hi.cfgLegal
  obtain ⟨hslots, -, -⟩ := (storageWf_iff s).mp hi.storage
  have hcount : (s.pending + 1#32).toNat = s.pending.toNat + 1 := by bv_omega
  refine ⟨hin, ?counts, hpos, ?capacity, fun j (hj : d - inFlightCount s ≤ j) hlt => ?slots, fun hrun => ?copy, halive⟩
  case counts =>
    rw [List.length_append, List.length_singleton, commitIngest_pending, hcount, hcounts]
    rfl
  case capacity =>
    rw [commitIngest_pending, hcount]
    exact hroom
  case slots =>
    rw [commitIngest_cfg]
    rw [List.length_append, List.length_singleton] at hlt
    rcases Nat.lt_succ_iff_lt_or_eq.mp hlt with hold | rfl
    · rw [readSlot_commitIngest_other v s (mod_ne_mod_of_lt hold (by omega)), hread j hj hold,
        List.getElem?_append_left hold]
    · rw [readSlot_commitIngest_self v (by rw [hslots]; exact Nat.mod_lt _ hl0), List.getElem?_concat_length]
  case copy =>
    have hrun : s.wphase = .run := hrun
    have hpending : s.pending ≠ 0#32 := hi.inFlight hrun
    rw [inFlightCount_of_run hrun] at hin hcounts
    have hlast : d - 1 < h.length := by bv_omega
    rw [List.getElem?_append_left hlast]
    exact hcopy hrun

/-- Settles O42: the command is the ingress tail at its slot, and with room the tail is the slot write and the count. -/
theorem contractIngressKeepsCoherence : Obligations.ContractIngressKeepsCoherence := by
  intro s h d hi hs hroom hlen
  obtain ⟨-, -, -, ⟨hl0, hl⟩, -⟩ := configLegal_ranges hi.cfgLegal
  obtain ⟨hslots, -, -⟩ := (storageWf_iff s).mp hi.storage
  refine ⟨_, _, exec_contractInstr hl0 hlen, rfl, ?_, ?_, ?_⟩
  all_goals rw [ingestTail_of_room hl hroom]
  · exact readSlot_commitIngest_self _ (by rw [hslots]; exact Nat.mod_lt _ hl0)
  · rfl
  · exact hs.commitIngest hi hroom _

/-! ### The worker (rules R132, R134) and the commands that only read -/

/-- In `WAIT` with a symbol pending, the slot at the position holds the next vector to be dequeued. -/
theorem Coherent.readSlot_curblk {s : State} {h : List Vec} {d : Nat} (hs : Coherent s h d) (hw : s.wphase = .wait)
    (hp : s.pending ≠ 0#32) : ∃ v, h[d]? = some v ∧ readSlot s s.curblk = some v := by
  obtain ⟨-, hcounts, hpos, -, hread, -, -⟩ := hs
  rw [inFlightCount_of_wait hw, Nat.sub_zero] at hcounts hpos hread
  have hlt : d < h.length := by bv_omega
  have hd : h[d]? = some h[d] := List.getElem?_eq_getElem hlt
  exact ⟨h[d], hd, by rw [hpos, hread d le_rfl hlt, hd]⟩

theorem readSlot_eq_some_iff {s : State} {b : Nat} {v : Vec} : readSlot s b = some v ↔ s.slots[b]? = some (some v) :=
  Option.join_eq_some_iff

/-- The dequeue of the next vector keeps the coherence: the symbol in flight is not yet retired (rules R33, R132). -/
theorem Coherent.dequeue {s : State} {h : List Vec} {d : Nat} {v : Vec} (hs : Coherent s h d) (hw : s.wphase = .wait)
    (hv : h[d]? = some v) : Coherent { s with work := some v, wphase := .run } h (d + 1) := by
  obtain ⟨-, hcounts, hpos, hcap, hread, -, -⟩ := hs
  rw [inFlightCount_of_wait hw] at hcounts hpos hread
  exact ⟨Nat.succ_pos d, hcounts, hpos, hcap, hread, fun _ => hv.symm, .inr rfl⟩

/-- What a process step that ends back in `WAIT` leaves to the coherence: the retire of one symbol (rules R133, R134). -/
theorem workerProcess_retired {s t : State} (h : workerProcess s = .next t) (hw : t.wphase = .wait) :
    t.cfg = s.cfg ∧ t.slots = s.slots ∧ t.pending = s.pending - 1#32 ∧ t.curblk = nextPosition s.cfg s.curblk := by
  obtain ⟨hcfg, hslots, -⟩ := workerProcess_workerFrame h
  refine ⟨hcfg, hslots, ?_⟩
  obtain ⟨w, -, ⟨-, rfl⟩ | ⟨-, a, -, rfl⟩ | ⟨-, -, rfl⟩⟩ := workerProcess_cases h
  · obtain ⟨-, -, hpending, hcurblk, -⟩ := prsApply_frame (transform s.cfg .fwd w) s
    rw [retire_pending, retire_curblk, hpending, hcurblk, prsApply_cfg]
    exact ⟨rfl, rfl⟩
  · exact ⟨retire_pending _, retire_curblk _⟩
  · simp at hw

/-- The retire of the symbol in flight keeps the coherence (rule R134). -/
theorem Coherent.retired {s t : State} {h : List Vec} {d : Nat} (hs : Coherent s h d) (hrun : s.wphase = .run)
    (hp : s.pending ≠ 0#32) (hw : t.wphase = .wait) (hcfg : t.cfg = s.cfg) (hslots : t.slots = s.slots)
    (hpending : t.pending = s.pending - 1#32) (hcurblk : t.curblk = nextPosition s.cfg s.curblk) : Coherent t h d := by
  obtain ⟨hin, hcounts, hpos, hcap, hread, -, -⟩ := hs
  rw [inFlightCount_of_run hrun] at hin hcounts hpos hread
  have hcount : t.pending.toNat + 1 = s.pending.toNat := by
    rw [hpending]
    bv_omega
  refine ⟨?inFlight, ?counts, ?position, ?capacity, ?slots, fun hr => by simp [hw] at hr, .inl hw⟩
  case inFlight => simp [inFlightCount_of_wait hw]
  case counts =>
    rw [inFlightCount_of_wait hw]
    omega
  case position =>
    rw [inFlightCount_of_wait hw, hcurblk, nextPosition, hpos, hcfg, Nat.mod_add_mod, Nat.sub_add_cancel hin, Nat.sub_zero]
  case capacity =>
    rw [hcfg]
    omega
  case slots =>
    intro j hj hlt
    rw [inFlightCount_of_wait hw] at hj
    rw [readSlot_congr hslots, hcfg]
    exact hread j (by omega) hlt

/-- `READ_CSR` and `XFORM` write no slot and no counter (rules R106, R107). -/
theorem exec_slots_pending_of_reading {i : Instr} {s t : State} (hi : (∃ n, i = .readCsr n) ∨ (∃ dir, i = .xform dir))
    (h : exec i s = .next t) : t.slots = s.slots ∧ t.pending = s.pending := by
  rcases hi with ⟨n, rfl⟩ | ⟨dir, rfl⟩
  · obtain rfl : readCsr n s = t := Host.Outcome.next.inj h
    unfold readCsr
    split
    · split <;> exact ⟨rfl, rfl⟩
    · exact ⟨rfl, rfl⟩
  · obtain rfl : xform dir s = t := Host.Outcome.next.inj h
    unfold xform
    split <;> exact ⟨rfl, rfl⟩

/-- Settles O43: the dequeue of the slot at the position, the retire, and the two reading commands. -/
theorem dequeueReadsTheMatchingIngress : Obligations.DequeueReadsTheMatchingIngress := by
  refine fun s h d hs => ⟨fun hw hp => ?dequeue, fun t hrun hp ht hw => ?process, fun i t hi ht => ?command⟩
  case dequeue =>
    obtain ⟨v, hv, hslot⟩ := hs.readSlot_curblk hw hp
    have hwritten := workerDequeue_of_written (readSlot_eq_some_iff.mp hslot)
    exact ⟨v, { s with work := some v, wphase := .run }, hv, by rw [runMove, hwritten], rfl, rfl, hs.dequeue hw hv⟩
  case process =>
    obtain ⟨hcfg, hslots, hpending, hcurblk⟩ := workerProcess_retired ht hw
    exact hs.retired hrun hp hw hcfg hslots hpending hcurblk
  case command =>
    obtain ⟨hslots, hpending⟩ := exec_slots_pending_of_reading hi ht
    obtain ⟨hcfg, hcurblk, hwork, -, hwphase, -⟩ := commandsLeaveWorkerState i s t ht
    exact hs.congr hcfg hslots hpending hcurblk hwork hwphase

end Sys2Proof.Machine
end

section
/-! PROOF. A placed word is the very next transaction (O7): its host stands first among the enabled moves, and the choice placed with it falls on
the first. -/

namespace Sys2Proof.Machine

/-- The wire bytes of a numbered word are those of the word (rule R62). -/
theorem tableBytes_toNat (w : Word) : tableBytes 32 w.toNat = leBytes w := by
  rw [tableBytes, Nat.mod_eq_of_lt w.isLt, BitVec.ofNat_toNat, BitVec.setWidth_eq]

/-- The payload placed with a command's word is all zeros, of the length the command takes (rule R85). -/
theorem zeroPayload_encode (c : Config) {i : Instr} (hi : i.wellFormed = true) :
    zeroPayload c (leBytes (encode i)) = List.replicate (8 * nPayload c i) 0#8 := by
  have hd : decode (leBytes (encode i)) = .ok (i, []) := by
    simpa [encodeBytes] using decodeOfEncodeIsIdentity i [] hi
  simp only [zeroPayload, hd]

/-! ### Host 0 with one more request in front (rule R264) -/

theorem hostsWith_getD_zero (r : HostReq) (hosts : List (List HostReq)) :
    (hostsWith r hosts).getD 0 [] = r :: hosts.getD 0 [] := by
  cases hosts <;> rfl

/-- Taking the request off again leaves the lists as they were, with host 0 there. -/
theorem hostsWith_set_zero (r : HostReq) (hosts : List (List HostReq)) :
    (hostsWith r hosts).set 0 (hosts.getD 0 []) = if hosts = [] then [[]] else hosts := by
  cases hosts <;> rfl

/-- The state with one more request in front of host 0's: what `withFetchWord` makes before the choice falls on it (log entry 2). -/
def State.withFirstRequest (s : State) (r : HostReq) : State := { s with hosts := hostsWith r s.hosts }

theorem withFetchWord_encode (s : State) {i : Instr} (hi : i.wellFormed = true) : s.withFetchWord 32 (encode i).toNat =
    chooseFirst (s.withFirstRequest (.cmd (encodeBytes i (List.replicate (8 * nPayload s.cfg i) 0#8)))) := by
  rw [State.withFetchWord, placeWord, tableBytes_toNat, zeroPayload_encode s.cfg hi]
  rfl

/-- A transaction in front makes host 0 the first of the enabled moves. -/
theorem enabledMoves_withFirstRequest (s : State) (bytes : List Byte) :
    ∃ ms, enabledMoves (s.withFirstRequest (.cmd bytes)) = .host 0 :: ms := by
  have hready : hostReady (s.withFirstRequest (.cmd bytes)) ((s.withFirstRequest (.cmd bytes)).hosts.getD 0 []) = true := by
    rw [State.withFirstRequest, hostsWith_getD_zero]
    rfl
  have hlen : 0 < (s.withFirstRequest (.cmd bytes)).hosts.length := by
    rw [State.withFirstRequest]
    cases s.hosts <;> simp [hostsWith]
  obtain ⟨n, hn⟩ := Nat.exists_eq_add_one.mpr hlen
  rw [enabledMoves, hostMoves, hn, List.range_succ_eq_map, List.filter_cons, if_pos hready]
  exact ⟨_, rfl⟩

/-! ### The choice (log entries 1, 2) -/

/-- `chooseFirst` makes the next choice take the first enabled move, and the choice is used up by it. -/
theorem pick_chooseFirst {s : State} {m : Move} {ms : List Move} (h : enabledMoves s = m :: ms) :
    pick (chooseFirst s) = (some m, s) := by
  cases ms with
  | nil => simp [chooseFirst, pick, h]
  | cons a ms =>
    have hmoves : enabledMoves { s with choices := 0 :: s.choices } = m :: a :: ms := h
    simp [chooseFirst, pick, h, hmoves, chosen]

theorem chooseFirst_released (s : State) : (chooseFirst s).released = s.released := by
  unfold chooseFirst
  split <;> rfl

/-- Settles O7: the step picks host 0, whose first request is the placed transaction, and that decodes to the command and its zero payload. -/
theorem fetchWordRunsNext : Obligations.FetchWordRunsNext := by
  intro s i hr hi
  obtain ⟨ms, hms⟩ := enabledMoves_withFirstRequest s (encodeBytes i (List.replicate (8 * nPayload s.cfg i) 0#8))
  rw [withFetchWord_encode s hi, ← hostsWith_set_zero]
  exact stepRunsTheDecodedCommand _ _ 0 _ _ _ i ((chooseFirst_released (s.withFirstRequest _)).trans hr)
    (pick_chooseFirst hms) (hostsWith_getD_zero _ _) (decodeOfEncodeIsIdentity i _ hi)

end Sys2Proof.Machine
end

section
/-! PROOF. The unreachable stops of the process step (O31): no carrier of the loop writes a reference entry that is not valid, so the carrier that
reads it finds it so. -/

namespace Sys2Proof.Machine

/-- A carrier is demodulated at a bin with a valid reference alone, so an entry that is not valid stays so (rules R44, R220). -/
theorem carrierStep_keeps_unwritten {c : Config} {x : Vec} {j k : Nat} {a b : CarrierAcc} (h : carrierStep c x j a = some b)
    (hk : readRef a.ref k = none) : readRef b.ref k = none := by
  obtain ⟨k', w, f, -, -, hf, rfl⟩ := carrierStep_cases h
  have hne : k' ≠ k := by
    rintro rfl
    simp [hk] at hf
  rwa [demodCarrier, readRef_set_other _ hne]

/-- A loop that comes to a carrier whose reference is not valid stops (rules R44, R220). -/
theorem carrierLoop_of_unwritten {c : Config} {x : Vec} {i k : Nat} (hbin : carrierBin c i = some k) :
    ∀ {is : List Nat} {a : CarrierAcc}, i ∈ is → readRef a.ref k = none → carrierLoop c x is a = none
  | j :: is, a, hi, hk => by
    cases hj : carrierStep c x j a with
    | none => simp only [carrierLoop, hj]
    | some b =>
      have hne : i ≠ j := by
        rintro rfl
        simp [carrierStep, hbin, hk] at hj
      simp only [carrierLoop, hj]
      exact carrierLoop_of_unwritten hbin (List.mem_of_ne_of_mem hne hi) (carrierStep_keeps_unwritten hj hk)

/-- Settles O31: without `work` the step stops by name, and with an invalid reference the loop and so the worker. -/
theorem unwrittenStorageStopsTheWorker : Obligations.UnwrittenStorageStopsTheWorker := by
  refine ⟨fun s hw => by rw [runMove, workerProcess, hw], fun s w i k hw h0 _ hi hbin hk => ?_⟩
  have hstop : demodulate (transform s.cfg .fwd w) s = none :=
    carrierLoop_of_unwritten hbin (List.mem_range.mpr hi) hk
  rw [runMove, workerProcess_stops hw h0 hstop]
  rfl

end Sys2Proof.Machine
end

section
/-! PROOF. Once open, `snr` stays open (O44). -/

namespace Sys2Proof.Machine

/-- An update that is open draws the next free value and stays open (entry I4). -/
theorem smoothSnr_of_open {x : Vec} {s : State} (h : s.snrFree = true ∨ x.all Cplx.finite = false) : smoothSnr x s =
    { s with snr := .lit (Config.freeSnr s.freeCtr), freeCtr := s.freeCtr + 1, snrFree := true } :=
  if_pos (snrOpen_iff.mpr h)

/-- Of the reference symbol's processing the update alone touches `snr` and the free-value fields (rules R190, R197). -/
theorem prsApply_of_open {x : Vec} {s : State} (h : s.snrFree = true ∨ x.all Cplx.finite = false) :
    (prsApply x s).snr = .lit (Config.freeSnr s.freeCtr) ∧ (prsApply x s).snrFree = true ∧
      (prsApply x s).freeCtr = s.freeCtr + 1 := by
  obtain ⟨n, tr, hreport, -⟩ := reportSnr_eq (smoothSnr x (writeWork x s))
  rw [prsApply, snrUpdate, hreport, smoothSnr_of_open (s := writeWork x s) h]
  exact ⟨rfl, rfl, rfl⟩

theorem exec_snrFree {i : Instr} {s t : State} (h : exec i s = .next t) : t.snrFree = s.snrFree := by
  obtain ⟨-, -, -, -, -, -, -, -, -, -, -, -, -, hfree⟩ := commandsLeaveWorkerState i s t h
  exact hfree

@[simp] theorem workerDequeue_snrFree (s : State) : (workerDequeue s).snrFree = s.snrFree := by
  unfold workerDequeue
  split <;> rfl

/-- Settles O44: over every shape a step can have, only the reference symbol writes the flag, and it keeps it set. -/
theorem openSnrStaysOpen : Obligations.OpenSnrStaysOpen := by
  refine ⟨step_relation (P := fun s t => s.snrFree = true → t.snrFree = true) ?wait ?choice ?request ?command ?illegal
    ?release ?dequeue ?leave ?reference ?block ?unwritten, fun _ _ => prsApply_of_open⟩
  case wait | illegal | release => exact fun _ => id
  case leave => exact fun _ _ _ => id
  case unwritten => exact fun _ _ => id
  case choice => exact fun _ _ _ _ h => h
  case request => exact fun _ _ _ _ _ h => h
  case command => exact fun _ _ _ h => (exec_snrFree h).trans
  case dequeue => exact fun s _ _ => (workerDequeue_snrFree s).trans
  case reference =>
    intro s w _ _ _ hopen
    obtain ⟨-, hfree, -⟩ := prsApply_of_open (x := transform s.cfg .fwd w) (.inl hopen)
    rwa [retire_snrFree]
  case block => exact fun s w a _ _ _ _ hopen => by rwa [retire_snrFree, dataApply_snrFree]

end Sys2Proof.Machine
end

section
/-! PROOF. The blocked worker (O9). -/

namespace Sys2Proof.Machine

/-- A running worker with nothing pending waits (rule R131). -/
theorem workerMoves_of_blocked {s : State} (hw : s.wphase = .wait) (hp : s.pending = 0#32) (hr : s.running = true) :
    workerMoves s = [] := by
  simp [workerMoves, movesIf, dequeueEnabled, processEnabled, exitEnabled, hw, hp, hr]

theorem hostMoves_of_no_request {s : State} (h : ∀ q, q ∈ s.hosts → q = []) : hostMoves s = [] := by
  refine List.eq_nil_iff_forall_not_mem.mpr fun m hm => ?_
  obtain ⟨k, hk, hready, -⟩ := mem_hostMoves.mp hm
  rw [List.getD_eq_getElem _ _ hk, h _ (List.getElem_mem hk)] at hready
  exact Bool.false_ne_true hready

/-- With no enabled move a step before release changes nothing (rule R131; log entry 3). -/
theorem step_of_no_move {s : State} (hr : s.released = false) (h : enabledMoves s = []) : step s = .next s := by
  simp [step, stepState, hr, pick, h]

/-- Settles O9: neither the worker nor a host has a move. -/
theorem blockedWorkerHasNoMove : Obligations.BlockedWorkerHasNoMove := by
  intro s hw hp hrun
  have hworker := workerMoves_of_blocked hw hp hrun
  refine ⟨hworker, fun hhosts hrel => step_of_no_move hrel ?_⟩
  rw [enabledMoves, hostMoves_of_no_request hhosts, hworker, List.append_nil]

end Sys2Proof.Machine
end

section
/-! PROOF. `STOP` and `READ_CSR` past their length check (O14, O15). -/

namespace Sys2Proof.Machine

/-- An empty payload passes the check, and so does any payload where the configuration does not ask for it (rules R64, R85; log entry 12). -/
theorem emptyPayloadOk_of {s : State} (h : s.port.payload = [] ∨ s.cfg.lengthCheckAll = false) : emptyPayloadOk s = true := by
  obtain h | h := h
  · simp [emptyPayloadOk, payloadIs, h]
  · simp [emptyPayloadOk, h]

theorem exec_stop_accepted {s : State} (h : emptyPayloadOk s = true) : exec .stop s = .next { s with running := false } := by
  rw [exec, execStop, stopWorker, if_pos h]

/-- Settles O14: the check looks at the payload and the configuration alone, so the second `STOP` passes it as well. -/
theorem stopClearsRunning : Obligations.StopClearsRunning := fun s h =>
  ⟨exec_stop_accepted (emptyPayloadOk_of h), exec_stop_accepted (s := { s with running := false }) (emptyPayloadOk_of h)⟩

/-- Settles O15: the number names a register, or it is unassigned. -/
theorem readCsrAnswersOnce : Obligations.ReadCsrAnswersOnce := by
  refine fun s h => ⟨fun r => ?assigned, fun n hn => ?unassigned⟩
  case assigned =>
    rw [exec, execReadCsr, readCsr, csrOf_csrNumber]
    simp only [if_pos (emptyPayloadOk_of h)]
    rfl
  case unassigned =>
    rw [exec, execReadCsr, readCsr_unassigned (csrOf_eq_none hn)]
    rfl

end Sys2Proof.Machine
end

section
/-! PROOF. The default DAB maps (O58). The generator of rule R172 is `x ↦ 13·x + c` modulo a power of two with `c` odd. Its `j`-th value from 0 is
`c · (13^j − 1) / 12`, and `(13^j − 1) / 12` has as many factors 2 as `j`, so the generator passes every residue once before it returns. -/

namespace Sys2Proof.Machine

open Finset (range)

/-! ### The generator has full period (rule R172) -/

/-- A power of two that divides `1 + 13 + … + 13^(d−1)` divides `d`: lifting the exponent in `13^d − 1`. -/
theorem two_pow_dvd_of_dvd_geomSum {n d : Nat} (h : 2 ^ n ∣ ∑ t ∈ range d, 13 ^ t) : 2 ^ n ∣ d := by
  have hsum : (2 : ℤ) ^ (2 + n) ∣ 13 ^ d - 1 := by
    have hcast : (2 : ℤ) ^ n ∣ ∑ t ∈ range d, 13 ^ t := by exact_mod_cast h
    rw [← geom_sum_mul, mul_comm, pow_add]
    exact mul_dvd_mul (by norm_num) hcast
  have hlift : emultiplicity 2 ((13 : ℤ) ^ d - 1) = 2 + emultiplicity (2 : ℤ) d := by
    have hbase : emultiplicity (2 : ℤ) (13 - 1) = 2 := emultiplicity_eq_coe.mpr (by decide)
    have hexp := Int.two_pow_sub_pow' (x := 13) (y := 1) d (by decide) (by decide)
    rwa [one_pow, hbase] at hexp
  rw [pow_dvd_iff_le_emultiplicity, hlift, Nat.cast_add] at hsum
  have hd : (n : ℕ∞) ≤ emultiplicity (2 : ℤ) d := (ENat.add_le_add_iff_left (by decide)).mp hsum
  exact_mod_cast pow_dvd_of_le_emultiplicity hd

/-- The generator in closed form, from 0. -/
theorem dabNext_iterate_mod (tU j : Nat) : (dabNext tU)^[j] 0 % tU = (tU / 4 - 1) * (∑ t ∈ range j, 13 ^ t) % tU := by
  induction j with
  | zero => simp
  | succ j ih =>
    rw [Function.iterate_succ_apply', dabNext, Nat.mod_mod, geom_sum_succ]
    calc (13 * (dabNext tU)^[j] 0 + (tU / 4 - 1)) % tU
      _ = (13 * ((tU / 4 - 1) * ∑ t ∈ range j, 13 ^ t) + (tU / 4 - 1)) % tU := (Nat.ModEq.mul_left 13 ih).add_right _
      _ = (tU / 4 - 1) * (13 * ∑ t ∈ range j, 13 ^ t + 1) % tU := by ring_nf

/-- The first `T_u` values of the generator from 0 are pairwise distinct. -/
theorem dabNext_iterate_inj {n i j : Nat} (hn : 3 ≤ n) (hij : i ≤ j) (hj : j < 2 ^ n)
    (h : (dabNext (2 ^ n))^[i] 0 = (dabNext (2 ^ n))^[j] 0) : i = j := by
  obtain ⟨d, rfl⟩ := Nat.exists_eq_add_of_le hij
  have hodd : Nat.Coprime (2 ^ n) (2 ^ n / 4 - 1) := by
    obtain ⟨m, rfl⟩ := Nat.exists_eq_add_of_le' hn
    refine Nat.Coprime.pow_left _ (Nat.coprime_two_left.mpr ⟨2 ^ m - 1, ?_⟩)
    have hpos := Nat.two_pow_pos m
    rw [pow_add]
    omega
  have hmod : ∑ t ∈ range i, 13 ^ t ≡ ∑ t ∈ range (i + d), 13 ^ t [MOD 2 ^ n] := by
    refine Nat.ModEq.cancel_left_of_coprime hodd ?_
    rw [Nat.ModEq, ← dabNext_iterate_mod, ← dabNext_iterate_mod, h]
  rw [Finset.sum_range_add] at hmod
  have hdvd : 2 ^ n ∣ 13 ^ i * ∑ t ∈ range d, 13 ^ t := by
    rw [Finset.mul_sum, ← Nat.modEq_zero_iff_dvd]
    simp only [← pow_add]
    exact Nat.ModEq.add_left_cancel' _ hmod.symm
  have hd : 2 ^ n ∣ d := two_pow_dvd_of_dvd_geomSum ((Nat.Coprime.pow _ _ (by decide)).dvd_of_dvd_mul_left hdvd)
  have hzero := Nat.eq_zero_of_dvd_of_lt hd (by omega)
  omega

theorem dabSeq_eq_iterate (tU : Nat) : ∀ n x, dabSeq tU n x = List.iterate (dabNext tU) x n
  | 0, _ => rfl
  | n + 1, x => congrArg (x :: ·) (dabSeq_eq_iterate tU n _)

/-- One period of the generator passes every residue once. -/
theorem dabSeq_perm_range {tU n : Nat} (htU : tU = 2 ^ n) (hn : 3 ≤ n) : (dabSeq tU tU 0).Perm (List.range tU) := by
  subst htU
  rw [dabSeq_eq_iterate, ← List.range_map_iterate]
  have hnodup : ((List.range (2 ^ n)).map ((dabNext (2 ^ n))^[·] 0)).Nodup := by
    refine List.Nodup.map_on (fun i hi j hj h => ?_) List.nodup_range
    rw [List.mem_range] at hi hj
    rcases Nat.le_total i j with hij | hij
    · exact dabNext_iterate_inj hn hij hj h
    · exact (dabNext_iterate_inj hn hij hi h.symm).symm
  have hrange : (List.range (2 ^ n)).map ((dabNext (2 ^ n))^[·] 0) ⊆ List.range (2 ^ n) := by
    intro x hx
    obtain ⟨j, -, rfl⟩ := List.mem_map.mp hx
    rw [List.mem_range]
    cases j with
    | zero => exact Nat.two_pow_pos n
    | succ j =>
      rw [Function.iterate_succ_apply']
      exact Nat.mod_lt _ (Nat.two_pow_pos n)
  exact (List.subperm_of_subset hnodup hrange).perm_of_length_le (by simp)

/-! ### The map keeps the band (rules R172, R174) -/

/-- The values of rule R172 before the first `K` of them are taken. -/
def dabBand (tU k : Nat) : List Int := ((dabSeq tU tU 0).filter (dabKeep tU k)).map fun x : Nat => (x : Int) - (tU / 2 : Nat)

theorem dabMap_eq_take (tU k : Nat) : dabMap tU k = (dabBand tU k).take k := by
  simp [dabMap, dabBand, List.map_eq_flatMap, List.flatMap_assoc]

section Band

variable {tU n k : Nat} (htU : tU = 2 ^ n) (hn : 3 ≤ n) (heven : k % 2 = 0) (hk : k < tU)
include htU hn

theorem dabBand_nodup (k : Nat) : (dabBand tU k).Nodup := by
  have hseq : (dabSeq tU tU 0).Nodup := (dabSeq_perm_range htU hn).nodup_iff.mpr List.nodup_range
  refine (hseq.filter _).map fun x y h => ?_
  simpa using h

include heven hk

theorem mem_dabBand (m : Int) : m ∈ dabBand tU k ↔ -((k / 2 : Nat) : Int) ≤ m ∧ m ≤ (k / 2 : Nat) ∧ m ≠ 0 := by
  have htwo : tU % 2 = 0 := by
    rw [htU]
    exact Nat.mod_eq_zero_of_dvd (dvd_pow_self 2 (by omega))
  simp only [dabBand, List.mem_map, List.mem_filter, (dabSeq_perm_range htU hn).mem_iff, List.mem_range, dabKeep,
    decide_eq_true_eq]
  constructor
  · rintro ⟨x, hx, rfl⟩
    omega
  · intro hm
    exact ⟨(m + (tU / 2 : Nat)).toNat, by omega, by omega⟩

/-- The band has `K` values: those of `[−K/2, K/2]` but 0. -/
theorem dabBand_length : (dabBand tU k).length = k := by
  have hset : (dabBand tU k).toFinset = (Finset.Icc (-((k / 2 : Nat) : Int)) (k / 2 : Nat)).erase 0 := by
    ext m
    rw [List.mem_toFinset, mem_dabBand htU hn heven hk, Finset.mem_erase, Finset.mem_Icc]
    tauto
  have hzero : (0 : Int) ∈ Finset.Icc (-((k / 2 : Nat) : Int)) (k / 2 : Nat) := by
    rw [Finset.mem_Icc]
    omega
  rw [← List.toFinset_card_of_nodup (dabBand_nodup htU hn k), hset, Finset.card_erase_of_mem hzero, Int.card_Icc]
  omega

/-- The take of rule R172 drops nothing. -/
theorem dabMap_eq_dabBand : dabMap tU k = dabBand tU k := by
  rw [dabMap_eq_take, List.take_of_length_le (dabBand_length htU hn heven hk).le]

end Band

/-- Settles O58: each mode's `T_u` is a power of two, and the listed values are those of mode I. -/
theorem defaultMapIsAPermutation : Obligations.DefaultMapIsAPermutation := by
  refine ⟨fun p hp => ?_, by decide +kernel, by decide +kernel⟩
  obtain ⟨n, hn, htU, heven, hk⟩ : ∃ n, 3 ≤ n ∧ p.1 = 2 ^ n ∧ p.2 % 2 = 0 ∧ p.2 < p.1 := by
    simp only [List.mem_cons, List.not_mem_nil, or_false] at hp
    rcases hp with rfl | rfl | rfl | rfl
    · exact ⟨11, by decide⟩
    · exact ⟨9, by decide⟩
    · exact ⟨8, by decide⟩
    · exact ⟨10, by decide⟩
  rw [dabMap_eq_dabBand htU hn heven hk]
  exact ⟨dabBand_length htU hn heven hk, dabBand_nodup htU hn p.2, mem_dabBand htU hn heven hk⟩

end Sys2Proof.Machine
end
